-- ==== Sys2Proof/Word.lean ====
section
/-! DEFINITION. Words, bytes, symbols and bit sequences of HUFF_CORE (00_scope.md R7-R9, R11). -/

namespace Sys2Proof

/-- A CSR or a command word: 32 bits, bit 0 the least significant (R7, R8). -/
abbrev Word := BitVec 32

/-- A byte; bit 7 is the most significant (R8). -/
abbrev Byte := BitVec 8

/-- A symbol is an integer code point, compared by its value (R11). Which integers are symbols is
`Machine.isScalar`. -/
abbrev Symbol := Nat

/-- A Bits value: index 0 is the first bit emitted by the encoder and consumed by the decoder (R9). -/
abbrev Bits := List Bool

/-- The largest count, count sum and node weight (R7). -/
def countMax : Nat := 2 ^ 32 - 1

end Sys2Proof
end

