-- ==== Sys2Proof/Syntax.lean ====
section
/-! DEFINITION. The commands of 30_encoding.md R66: one constructor per row of opcode_table.json. -/

namespace Sys2Proof

/-- A HUFF_CORE command. A command has no operand field: every operand is a CSR, a store or IN_MEM
(R65, R70), so no constructor has an argument. -/
inductive Instr where
  | nop
  | encode
  | decode
  | count
  | build
  | gencode
  | map
  | pack
  | serialize
  | deserialize
  | unpack
  | walk
  | query
  | clear
deriving DecidableEq, Repr

end Sys2Proof
end

