-- ==== Sys2Proof/Config.lean ====
section
/-! DEFINITION. The implementation parameters of 00_scope.md R6 and the free values of
93_implementation_defined.md U1-U3. Nothing here has a value a proof could lean on. -/

namespace Sys2Proof

/-- The six parameters of R6. They are an argument of the model: the state carries them unchanged
(DESIGN CHOICE, safe, log 1). Their constraints are `Params.wf`. -/
structure Params where
  /-- HUFF_BASE: base address of the block in the host address space. -/
  base : Nat
  /-- IN_CAP: size of IN_MEM in bytes. -/
  inCap : Nat
  /-- OUT_CAP: size of OUT_MEM in bytes. -/
  outCap : Nat
  /-- K_MAX: maximum number of distinct symbols in FREQ. -/
  kMax : Nat
  /-- BITS_CAP: maximum length of BITS in bits. -/
  bitsCap : Nat
  /-- L_MAX: maximum code length GENCODE accepts, in bits. -/
  lMax : Nat
deriving DecidableEq, Repr

namespace Config

/-- Free numbers from which the parameters of the machine at reset are made (R6: OPEN). -/
opaque freeBase : Nat
opaque freeInCap : Nat
opaque freeOutCap : Nat
opaque freeKMax : Nat
opaque freeBitsCap : Nat
opaque freeLMax : Nat

/-- IN_CAP ranges over all of 1..2^24 (R6). -/
def inCap : Nat := freeInCap % 2 ^ 24 + 1

/-- The parameters of the machine at reset: any values that meet R6, and nothing else is known of
them. Each is a free number brought into the range R6 gives (log 1). -/
def params : Params where
  base := 0x04000000 * freeBase
  inCap := inCap
  outCap := freeOutCap % 2 ^ 24 + 1
  kMax := freeKMax % 1112064 + 1
  bitsCap := 8 * (inCap + freeBitsCap % (2 ^ 29 - inCap))
  lMax := freeLMax % (2 ^ 32 - 1) + 1

/-- What a byte of IN_MEM the host has not written since reset number `r` holds: one free byte per
reset and index, fixed until written (R143, U1; log 5). -/
opaque freeInByte : Nat → Nat → Byte

/-- The n-th free byte handed out by a read of the OUT window (R50, R61, U2, U3; log 4). -/
opaque freeByte : Nat → Byte

/-- The n-th free word handed out by a read of a result CSR while BUSY (R47, U3; log 4). -/
opaque freeWord : Nat → Word

end Config
end Sys2Proof
end

