-- ==== Sys2Proof/WellFormed.lean ====
section
/-! DEFINITION. What is well formed: commands (all of them), command words (30_encoding.md R66, R67)
and parameter sets (00_scope.md R6). -/

namespace Sys2Proof

/-- Every command is well formed: CMD32 has no operand field that could be out of range (R65). -/
def Instr.wellFormed : Instr → Bool
  | .nop | .encode | .decode | .count | .build | .gencode | .map | .pack | .serialize
  | .deserialize | .unpack | .walk | .query | .clear => true

/-- A legal command word: RSVD (bits 31:8) is 0 and OP is outside the gaps 0x03..0x0F, 0x16..0x1F,
0x23..0x2F and 0x32..0xFF, as R67 lists them. Written from R67 alone; the decoder is written from R66. -/
def legalWord (w : Word) : Bool :=
  let op := w.toNat % 256
  w.toNat / 256 == 0 &&
    !((0x03 ≤ op && op ≤ 0x0F) || (0x16 ≤ op && op ≤ 0x1F) ||
      (0x23 ≤ op && op ≤ 0x2F) || (0x32 ≤ op && op ≤ 0xFF))

/-- The constraints R6 puts on the parameters. -/
abbrev Params.wf (p : Params) : Prop :=
  p.base % 0x04000000 = 0 ∧
  (1 ≤ p.inCap ∧ p.inCap ≤ 2 ^ 24) ∧
  (1 ≤ p.outCap ∧ p.outCap ≤ 2 ^ 24) ∧
  (1 ≤ p.kMax ∧ p.kMax ≤ 1112064) ∧
  (8 * p.inCap ≤ p.bitsCap ∧ p.bitsCap ≤ 2 ^ 32 - 8 ∧ p.bitsCap % 8 = 0) ∧
  (1 ≤ p.lMax ∧ p.lMax ≤ 2 ^ 32 - 1)

end Sys2Proof
end

