-- ==== Sys2Proof/Decode.lean ====
section
/-! DEFINITION. The command word CMD32 (30_encoding.md R65-R68): a total decoder that rejects by
name, and after it the encoder. -/

namespace Sys2Proof

/-- Why bytes are not a command (R67, R68). A word rejected here is still accepted by CMD and
completes with ILLEGAL_COMMAND (`State.illegalCommand`). -/
inductive DecodeError where
  /-- fewer than the four bytes of a command word -/
  | truncated
  /-- RSVD, bits 31:8, is not 0 -/
  | reservedBits
  /-- OP is not in the opcode map -/
  | undefinedOp (op : Byte)
deriving DecidableEq, Repr

/-- The opcode map of R66, row by row. -/
def opcodeMap : List (Byte × Instr) :=
  [(0x00, .nop), (0x01, .encode), (0x02, .decode),
   (0x10, .count), (0x11, .build), (0x12, .gencode), (0x13, .map), (0x14, .pack), (0x15, .serialize),
   (0x20, .deserialize), (0x21, .unpack), (0x22, .walk),
   (0x30, .query), (0x31, .clear)]

/-- OP, bits 7:0 of a command word (R65). -/
def opField (w : Word) : Byte := w.setWidth 8

/-- RSVD, bits 31:8 of a command word (R65). -/
def rsvdField (w : Word) : BitVec 24 := w.extractLsb' 8 24

/-- The command a word stands for: total on all 2^32 words (R68). -/
def decodeWord (w : Word) : Except DecodeError Instr :=
  if rsvdField w ≠ 0 then .error .reservedBits
  else
    match opcodeMap.lookup (opField w) with
    | some i => .ok i
    | none => .error (.undefinedOp (opField w))

/-- A 32-bit word from the four bytes that carry it on the little-endian host bus (20_memory.md R51). -/
def wordOfBytes (b0 b1 b2 b3 : Byte) : Word := b3 ++ b2 ++ b1 ++ b0

/-- Decoding of bytes: the first four are one command word; the rest is handed back (R68: every
command word is exactly 32 bits). -/
def decodeBytes : List Byte → Except DecodeError (Instr × List Byte)
  | b0 :: b1 :: b2 :: b3 :: rest =>
    match decodeWord (wordOfBytes b0 b1 b2 b3) with
    | .ok i => .ok (i, rest)
    | .error e => .error e
  | _ => .error .truncated

/-- The opcode of a command, by R66. -/
def Instr.opcode : Instr → Byte
  | .nop => 0x00
  | .encode => 0x01
  | .decode => 0x02
  | .count => 0x10
  | .build => 0x11
  | .gencode => 0x12
  | .map => 0x13
  | .pack => 0x14
  | .serialize => 0x15
  | .deserialize => 0x20
  | .unpack => 0x21
  | .walk => 0x22
  | .query => 0x30
  | .clear => 0x31

/-- The command word of a command: OP with RSVD = 0 (R65). -/
def encode (i : Instr) : Word := i.opcode.setWidth 32

/-- The four bytes of a word as the little-endian host bus carries them (20_memory.md R51). -/
def bytesOfWord (w : Word) : List Byte :=
  [w.extractLsb' 0 8, w.extractLsb' 8 8, w.extractLsb' 16 8, w.extractLsb' 24 8]

/-- The bytes of a command word. -/
def encodeBytes (i : Instr) : List Byte := bytesOfWord (encode i)

/-- The decoder's answer for a row of opcode_table.json: `nbits` bits `w`, every higher bit 0. Every
row is one 32-bit word (R68); a longer one is no command. -/
def decodeTableWord (nbits w : Nat) : Option Instr :=
  if nbits ≤ 32 then
    match decodeBytes (bytesOfWord (BitVec.ofNat 32 (w % 2 ^ nbits))) with
    | .ok (i, _) => some i
    | .error _ => none
  else none

end Sys2Proof
end

