-- ==== Sys2Proof/Machine/State.lean ====
section
/-! DEFINITION. The state of one HUFF_CORE instance (10_state.md R13) as plain data, and its reset
(70_reset_and_hazards.md R143). -/

namespace Sys2Proof.Machine

/-- The phase of the command sequencer (R14). -/
inductive Phase where
  | idle
  | busy
deriving DecidableEq, Repr

/-- The error codes of 60_exceptions.md R125. `none` is ERR.CODE after a successful completion and is
never raised. The reserved codes 0x09..0xFF have no constructor: they are never written. -/
inductive ErrCode where
  | none
  | emptyInput
  | unrepresentableSymbol
  | corruptContainer
  | illegalCommand
  | capacity
  | invalidText
  | sequence
  | noCode
deriving DecidableEq, Repr

/-- The four defined bits of STATUS (R19); bits 31:4 are reserved and read 0 (log 11). -/
structure Status where
  busy : Bool
  done : Bool
  err : Bool
  dropped : Bool
deriving DecidableEq, Repr

/-- The two fields of ERR (R20); bits 31:16 read 0 (log 11). -/
structure ErrReg where
  code : ErrCode
  stage : Byte
deriving DecidableEq, Repr

/-- The registers of R15 that hold state (R13). CTRL and QSYM hold only their defined bits: the
reserved ones read 0 and ignore writes (R17, R32; log 11). -/
structure Csr where
  /-- CTRL bit 0, IE (R17) -/
  ctrlIE : Bool
  /-- CMD (R18) -/
  cmd : Word
  /-- STATUS (R19) -/
  status : Status
  /-- ERR (R20) -/
  err : ErrReg
  /-- IN_LEN (R21) -/
  inLen : Word
  /-- OUT_LEN (R22) -/
  outLen : Word
  /-- PAD_BITS (R30) -/
  padBits : Word
  /-- TRAIL_BITS (R31) -/
  trailBits : Word
  /-- QSYM.SYM (R32) -/
  qsym : BitVec 21
  /-- QWORD (R33) -/
  qword : Word
  /-- QFREQ (R34) -/
  qfreq : Word
  /-- QCODE_LEN (R35) -/
  qcodeLen : Word
  /-- QCODE (R36) -/
  qcode : Word
deriving DecidableEq, Repr

/-- A frequency table: pairs of symbol and count in ascending symbol order (R9, R39). -/
abbrev FreqTable := List (Symbol × Nat)

/-- A tree node (R40): children are indices into the node array, `w` is the weight. -/
inductive Node where
  | leaf (sym : Symbol) (w : Nat)
  | internal (left right w : Nat)
deriving DecidableEq, Repr

/-- A Huffman tree: the node array and the leaf count N (R40). -/
structure Tree where
  nodes : List Node
  leaves : Nat
deriving DecidableEq, Repr

/-- A code table: pairs of symbol and code in ascending symbol order (R41). -/
abbrev CodeTable := List (Symbol × Bits)

/-- A byte memory: the bytes that are defined, by rising address, no address twice (`Memory.wf`). An
unlisted address holds no value; what a read of it gives is said where it is read (logs 4 and 5). -/
abbrev Memory := List Host.Cell

/-- The width of a host access: 8, 16 or 32 bits (R51, R69). -/
inductive Size where
  | b1
  | b2
  | b4
deriving DecidableEq, Repr

/-- One host access in the notation of 30_encoding.md R69: RD8/16/32 and WR8/16/32 at a host address.
A write of fewer than 32 bits takes the low bits of `value` (log 16). -/
inductive Access where
  | rd (size : Size) (addr : Nat)
  | wr (size : Size) (addr : Nat) (value : Word)
deriving DecidableEq, Repr

/-- What moves next (R58, R142): the core, the host with one access, or the reset input. The list of
turns in the state is one total order of the agents' steps; any list may stand there (log 2). -/
inductive Turn where
  /-- the core may take its step; it has one exactly when BUSY (R76) -/
  | core
  /-- the host makes one access -/
  | access (a : Access)
  /-- the reset input is asserted (R142) -/
  | assertReset
  /-- the reset input is released (R142) -/
  | releaseReset
deriving DecidableEq, Repr

/-- What the bus answered to the last host access (log 3). -/
inductive Response where
  /-- no access since reset -/
  | none
  /-- a read's data, zero above the access width (log 17) -/
  | data (size : Size) (value : Word)
  /-- a write was taken or dropped; the bus does not tell which (R147; log 18) -/
  | written
  /-- the error response of R55 -/
  | busError
  /-- the address is outside the block's region (log 8) -/
  | notSelected
deriving DecidableEq, Repr

/-- The whole state. The fields down to `inReset` are the spec's (R13, R142), the rest the model's own
(INVENTORY.md, State). A store is `none` when its validity flag is 0 (R38: the value is then absent). -/
structure State where
  phase : Phase
  pending : Word
  csr : Csr
  freq : Option FreqTable
  tree : Option Tree
  codes : Option CodeTable
  bits : Option Bits
  payload : Option (List Byte)
  /-- IN_MEM: the bytes the host has written since reset, by window offset (R44, R49) -/
  inMem : Memory
  /-- OUT_MEM: the defined bytes, indices 0 to OUT_LEN - 1 (R44, R50) -/
  outMem : Memory
  /-- the reset input is asserted (R142) -/
  inReset : Bool
  /-- the model's own: the parameters of R6, an argument of the model (log 1) -/
  params : Params
  /-- the model's own: resets taken so far, which selects the free contents of IN_MEM (log 5) -/
  resets : Nat
  /-- the model's own: free values handed out so far (log 4) -/
  draws : Nat
  /-- the model's own: who moves next, oldest first (log 2) -/
  schedule : List Turn
  /-- the model's own: the bus's last answer (log 3) -/
  response : Response
deriving DecidableEq, Repr

/-- Why a step stops the machine. -/
inductive Fault where
  /-- Raised by `step` alone, when the schedule puts a host access while reset is asserted: "the block
  accepts no host access while reset is asserted" (R142), and the access "has no step until reset is
  released" (U8). A stuck state. Safe: no claim about the hardware follows from it (log 6). -/
  | accessInReset
deriving DecidableEq, Repr

/-- Why a step refuses an instruction. -/
inductive Refusal where
  /-- Raised by `exec` for a command that has no meaning yet. Every command has one, so nothing raises
  it. Safe. -/
  | notModelled (mnemonic : String)
deriving DecidableEq, Repr

/-- The registers right after reset (R143). -/
def Csr.reset : Csr where
  ctrlIE := false
  cmd := 0
  status := ⟨false, false, false, false⟩
  err := ⟨.none, 0⟩
  inLen := 0
  outLen := 0
  padBits := 0
  trailBits := 0
  qsym := 0
  qword := 0
  qfreq := 0
  qcodeLen := 0
  qcode := 0

/-- The machine right after reset (R143): IDLE, registers 0, stores invalid, no byte of either memory
defined. The model's own fields: unconstrained legal parameters, nothing counted, nothing scheduled
(DESIGN CHOICE, logs 1 to 5). -/
def State.reset : State where
  phase := .idle
  pending := 0
  csr := Csr.reset
  freq := none
  tree := none
  codes := none
  bits := none
  payload := none
  inMem := []
  outMem := []
  inReset := false
  params := Config.params
  resets := 0
  draws := 0
  schedule := []
  response := .none

end Sys2Proof.Machine
end

