-- ==== Sys2Proof/Machine/Flags.lean ====
section
/-! DEFINITION. Every flag the spec gives: STATUS, ERR, CTRL and VALID as words, the error code
numbers, the write-one-to-clear rule, what acceptance and the two completions do to the flags, and
the interrupt line. -/

namespace Sys2Proof.Machine

/-- The bit of a word at place `n` that a flag stands for. -/
def flagAt (b : Bool) (n : Nat) : Word := if b then 1 <<< n else 0

/-- STATUS as the host reads it (R19): BUSY[0] DONE[1] ERR[2] DROPPED[3], the rest 0. -/
def Status.toWord (f : Status) : Word :=
  flagAt f.busy 0 ||| flagAt f.done 1 ||| flagAt f.err 2 ||| flagAt f.dropped 3

/-- The number of an error code (R125). -/
def ErrCode.toByte : ErrCode → Byte
  | .none => 0x00
  | .emptyInput => 0x01
  | .unrepresentableSymbol => 0x02
  | .corruptContainer => 0x03
  | .illegalCommand => 0x04
  | .capacity => 0x05
  | .invalidText => 0x06
  | .sequence => 0x07
  | .noCode => 0x08

/-- ERR as the host reads it (R20): CODE[7:0] STAGE[15:8], the rest 0. -/
def ErrReg.toWord (e : ErrReg) : Word :=
  (e.stage ++ e.code.toByte : BitVec 16).setWidth 32

/-- CTRL as the host reads it (R17): IE[0], the rest 0. -/
def ctrlWord (ie : Bool) : Word := flagAt ie 0

/-- VALID as the host reads it (R29): FREQ[0] TREE[1] CODES[2] BITS[3] PAYLOAD[4], the rest 0. -/
def State.validWord (s : State) : Word :=
  flagAt s.freq.isSome 0 ||| flagAt s.tree.isSome 1 ||| flagAt s.codes.isSome 2 |||
    flagAt s.bits.isSome 3 ||| flagAt s.payload.isSome 4

/-- A host write of `w` to STATUS (R19): DONE, ERR and DROPPED are cleared where `w` has a 1; BUSY and
the reserved bits ignore the write. -/
def Status.clearOnes (f : Status) (w : Word) : Status :=
  { f with
    done := f.done && !w.getLsbD 1
    err := f.err && !w.getLsbD 2
    dropped := f.dropped && !w.getLsbD 3 }

/-- Acceptance (R75): DONE and ERR cleared, BUSY set; DROPPED stays. -/
def Status.accepted (f : Status) : Status :=
  { f with busy := true, done := false, err := false }

/-- Successful completion (R77): BUSY cleared, DONE set. -/
def Status.succeeded (f : Status) : Status := { f with busy := false, done := true }

/-- Error completion (R78): BUSY cleared, ERR set. -/
def Status.failed (f : Status) : Status := { f with busy := false, err := true }

/-- A host write dropped because the block is BUSY (R60). -/
def Status.setDropped (f : Status) : Status := { f with dropped := true }

/-- The interrupt line (R45, R138): level-sensitive, a function of the state. -/
def State.irq (s : State) : Bool := s.csr.ctrlIE && (s.csr.status.done || s.csr.status.err)

end Sys2Proof.Machine
end

