-- ==== Sys2Proof/Machine/Ops.lean ====
section
/-! DEFINITION. The named operations over memory and state: byte memories, acceptance of a command
(40_command_model.md R75), the two completions (R77, R78; an error completion is "the whole of taking
an exception", 60_exceptions.md R136), stages in order (R80, R81), and reset (70 R142, R143). -/

namespace Sys2Proof.Machine

/-! ### Byte memories -/

/-- The canonical form of a memory: addresses strictly rising. Every listed byte differs from what an
unlisted address holds, which is no value. -/
abbrev Memory.wf (m : Memory) : Prop := m.Pairwise fun x y => x.1 < y.1

/-- The byte at an address, if one is defined there. -/
def Memory.read? : Memory → Nat → Option Byte
  | [], _ => none
  | (a, b) :: m, k => if a = k then some b else Memory.read? m k

/-- The memory with byte `v` at address `k`. -/
def Memory.write : Memory → Nat → Byte → Memory
  | [], k, v => [(k, v)]
  | (a, b) :: m, k, v =>
    if k < a then (k, v) :: (a, b) :: m
    else if k = a then (k, v) :: m
    else (a, b) :: Memory.write m k v

/-- The memory with a byte sequence written from address `k` upward. -/
def Memory.writeBytes : Memory → Nat → List Byte → Memory
  | m, _, [] => m
  | m, k, v :: vs => Memory.writeBytes (Memory.write m k v) (k + 1) vs

/-- The memory whose defined bytes are `bs`, the first at address `k`. -/
def Memory.ofBytesFrom : Nat → List Byte → Memory
  | _, [] => []
  | k, b :: bs => (k, b) :: Memory.ofBytesFrom (k + 1) bs

/-- The memory whose defined bytes are `bs` at indices 0, 1, 2, … -/
def Memory.ofBytes (bs : List Byte) : Memory := Memory.ofBytesFrom 0 bs

/-- The bytes of a memory in address order. -/
def Memory.bytes (m : Memory) : List Byte := m.map (·.2)

/-- A byte of IN_MEM (R44): what the host last wrote there, else the free byte this reset left there
(U1, log 5). -/
def State.inByte (s : State) (a : Nat) : Byte :=
  (s.inMem.read? a).getD (Config.freeInByte s.resets a)

/-- `MemRead(IN, a, n)` (R10): the bytes IN_MEM[a..a+n). -/
def State.memReadIn (s : State) (a n : Nat) : List Byte :=
  (List.range n).map fun k => s.inByte (a + k)

/-- `MemWrite(OUT, bs)` (R10, R50): the defined content of OUT_MEM becomes `bs` and OUT_LEN its
length. The caller has checked that `bs` fits OUT_CAP. -/
def State.memWriteOut (s : State) (bs : List Byte) : State :=
  { s with
    outMem := Memory.ofBytes bs
    csr := { s.csr with outLen := BitVec.ofNat 32 bs.length } }

/-- OUT_LEN becomes 0, so no byte of OUT_MEM is defined (R44, R78, R122). -/
def State.dropOutput (s : State) : State :=
  { s with outMem := [], csr := { s.csr with outLen := 0 } }

/-- OUT_MEM[0..OUT_LEN). -/
def State.outBytes (s : State) : List Byte := s.outMem.bytes

/-! ### Acceptance and completion -/

/-- Acceptance of a written word (R75, the IDLE branch). It does not look at the word. -/
def State.accept (s : State) (w : Word) : State :=
  { s with
    phase := .busy
    pending := w
    csr := { s.csr with cmd := w, status := s.csr.status.accepted, err := ⟨.none, 0⟩ } }

/-- Successful completion (R77): ERR is left as acceptance set it. -/
def State.completeOk (s : State) : State :=
  { s with phase := .idle, csr := { s.csr with status := s.csr.status.succeeded } }

/-- Error completion (R78, R124), the whole of taking an exception (R136): it names the code and the
stage, and leaves no output. There is no return from it (R137): the host clears the flags by a write
to STATUS (`Status.clearOnes`) or by its next command (`State.accept`). -/
def State.completeError (s : State) (code : ErrCode) (stage : Byte) : State :=
  let t := s.dropOutput
  { t with
    phase := .idle
    csr := { t.csr with status := t.csr.status.failed, err := ⟨code, stage⟩ } }

/-- The outcome of a stage or of a sequence of stages (R76, R80). -/
inductive StageResult where
  | ok (s : State)
  | fail (code : ErrCode) (stage : Byte) (s : State)
deriving DecidableEq, Repr

/-- The completion that a result of `Exec` leads to (R76). -/
def StageResult.complete : StageResult → State
  | .ok s => s.completeOk
  | .fail code stage s => s.completeError code stage

/-- The stages of a command in order, stopping at the first failure (R81). -/
def runStages : List (State → StageResult) → State → StageResult
  | [], s => .ok s
  | f :: fs, s =>
    match f s with
    | .ok t => runStages fs t
    | .fail code stage t => .fail code stage t

/-- An illegal word's completion (R67, R81, R129): ILLEGAL_COMMAND, STAGE = the word's bits 7:0. -/
def State.illegalCommand (s : State) : State := s.completeError .illegalCommand (opField s.pending)

/-! ### Reset -/

/-- Assertion of the reset input (R142 to R144): every element takes the value of R143, a pending
command is abandoned, and IN_MEM is a new draw. The parameters, the schedule and the count of free
values are the model's own and stay (log 7). -/
def State.applyReset (s : State) : State :=
  { State.reset with
    inReset := true
    params := s.params
    resets := s.resets + 1
    draws := s.draws
    schedule := s.schedule }

/-- Release of the reset input: the block is IDLE in the state of R143 (R142). -/
def State.releaseReset (s : State) : State := { s with inReset := false }

end Sys2Proof.Machine
end

