-- ==== Sys2Proof/Machine/Text.lean ====
section
/-! DEFINITION. Encodings of data (30_encoding.md R71-R74): symbols, UTF-8 and decimal counts. -/

namespace Sys2Proof.Machine

/-- SPACE, U+0020 (R12). -/
def spaceSym : Symbol := 0x20

/-- COLON, U+003A (R12). -/
def colonSym : Symbol := 0x3A

/-- NEWLINE, U+000A (R12). -/
def newlineSym : Symbol := 0x0A

/-- The separator byte of a container, the UTF-8 of NEWLINE (R12, R99). -/
def newlineByte : Byte := 0x0A

/-- Which integers are symbols: the Unicode scalar values (R11). -/
def isScalar (c : Symbol) : Bool := c ≤ 0x10FFFF && !(0xD800 ≤ c && c ≤ 0xDFFF)

/-- The bit field `c[lo + n - 1 : lo]` of an integer (R8). -/
def fieldOf (c lo n : Nat) : Nat := c / 2 ^ lo % 2 ^ n

/-- A continuation byte that carries the six bits of `c` from bit `lo` up: `0x80 | c[lo+5:lo]` (R71).
The bits joined by `|` are disjoint, so the sum is the same number; so too in `utf8Enc`. -/
def contByte (c lo : Nat) : Byte := BitVec.ofNat 8 (0x80 + fieldOf c lo 6)

/-- `utf8_enc(c)`: the UTF-8 of one symbol (R71). -/
def utf8Enc (c : Symbol) : List Byte :=
  if c ≤ 0x7F then [BitVec.ofNat 8 c]
  else if c ≤ 0x7FF then [BitVec.ofNat 8 (0xC0 + fieldOf c 6 5), contByte c 0]
  else if c ≤ 0xFFFF then [BitVec.ofNat 8 (0xE0 + fieldOf c 12 4), contByte c 6, contByte c 0]
  else [BitVec.ofNat 8 (0xF0 + fieldOf c 18 3), contByte c 12, contByte c 6, contByte c 0]

/-- The UTF-8 of a symbol sequence: its symbols' bytes in order (R71). -/
def utf8 (syms : List Symbol) : List Byte := syms.flatMap utf8Enc

/-- A continuation byte: 0x80 to 0xBF (R72). -/
def isCont (b : Byte) : Bool := 0x80 ≤ b.toNat && b.toNat ≤ 0xBF

/-- The code point so far with a continuation byte's six bits appended: `(cp << 6) | b[5:0]` (R72). -/
def appendCont (cp : Nat) (b : Byte) : Nat := cp * 64 + fieldOf b.toNat 0 6

/-- `utf8_dec(b)` (R72): the symbols of a well-formed byte sequence, `none` for Bad. Each case is one
row of R72's table of lead bytes; a sequence cut short, a byte that is no continuation byte, an
overlong form, a surrogate and a value above 0x10FFFF are Bad. -/
def utf8Dec : List Byte → Option (List Symbol)
  | [] => some []
  | l :: t =>
    let lead := l.toNat
    if lead ≤ 0x7F then (utf8Dec t).map (lead :: ·)
    else if 0xC2 ≤ lead && lead ≤ 0xDF then
      match t with
      | b1 :: t1 =>
        if isCont b1 then (utf8Dec t1).map (appendCont (fieldOf lead 0 5) b1 :: ·) else none
      | _ => none
    else if 0xE0 ≤ lead && lead ≤ 0xEF then
      match t with
      | b1 :: b2 :: t2 =>
        let cp := appendCont (appendCont (fieldOf lead 0 4) b1) b2
        if isCont b1 && isCont b2 && 0x800 ≤ cp && isScalar cp then (utf8Dec t2).map (cp :: ·)
        else none
      | _ => none
    else if 0xF0 ≤ lead && lead ≤ 0xF4 then
      match t with
      | b1 :: b2 :: b3 :: t3 =>
        let cp := appendCont (appendCont (appendCont (fieldOf lead 0 3) b1) b2) b3
        if isCont b1 && isCont b2 && isCont b3 && 0x10000 ≤ cp && isScalar cp then
          (utf8Dec t3).map (cp :: ·)
        else none
      | _ => none
    else none

/-- The symbol of a decimal digit, U+0030 + d (R73). -/
def digitSym (d : Nat) : Symbol := 0x30 + d

/-- The digits of `n` before `acc`, least significant digit first taken; `fuel` bounds their number. -/
def decLoop : Nat → Nat → List Symbol → List Symbol
  | 0, _, acc => acc
  | fuel + 1, n, acc =>
    if n < 10 then digitSym n :: acc else decLoop fuel (n / 10) (digitSym (n % 10) :: acc)

/-- `dec(n)`: the shortest decimal representation, most significant digit first (R73). -/
def dec (n : Nat) : List Symbol := decLoop (n + 1) n []

/-- The outcomes of `parse_count` (R74). -/
inductive CountParse where
  | ok (v : Nat)
  | malformed
  | tooBig
deriving DecidableEq, Repr

/-- A symbol in U+0030..U+0039 (R74). -/
def isDigit (c : Symbol) : Bool := 0x30 ≤ c && c ≤ 0x39

/-- The decimal value of a digit sequence, most significant digit first (R74). -/
def decimalValue (r : List Symbol) : Nat := r.foldl (fun v c => 10 * v + (c - 0x30)) 0

/-- `parse_count(r)` (R74), its checks in the order written there. -/
def parseCount (r : List Symbol) : CountParse :=
  if r.length = 0 then .malformed
  else if !r.all isDigit then .malformed
  else if 2 ≤ r.length ∧ r.head? = some 0x30 then .malformed
  else if decimalValue r = 0 then .malformed
  else if countMax < decimalValue r then .tooBig
  else .ok (decimalValue r)

end Sys2Proof.Machine
end

