-- ==== Sys2Proof/Machine/Operands.lean ====
section
/-! DEFINITION. Where commands and the host find their operands: the input bytes, tables keyed by
symbol, runs of bits, and every CSR by name with its read value (10_state.md R15-R37, 30 R70). -/

namespace Sys2Proof.Machine

/-- The input of COUNT, MAP and DESERIALIZE: IN_MEM[0..IN_LEN), CAPACITY when IN_LEN exceeds IN_CAP
(R21, R109, R111, R106). -/
def State.input (s : State) : Except ErrCode (List Byte) :=
  if s.params.inCap < s.csr.inLen.toNat then .error .capacity
  else .ok (s.memReadIn 0 s.csr.inLen.toNat)

/-! ### Tables keyed by symbol (R9) -/

/-- A table with one entry more, before the first entry of a greater symbol. -/
def tableInsert {α : Type} (k : Symbol) (v : α) : List (Symbol × α) → List (Symbol × α)
  | [] => [(k, v)]
  | e :: t => if k < e.1 then (k, v) :: e :: t else e :: tableInsert k v t

/-- The entries of a table in ascending symbol order. -/
def tableSort {α : Type} (t : List (Symbol × α)) : List (Symbol × α) :=
  t.foldr (fun e acc => tableInsert e.1 e.2 acc) []

/-! ### Runs of bits -/

/-- The number whose binary digits are `b`, the first bit the most significant. -/
def bitsToNat (b : Bits) : Nat := b.foldl (fun v x => 2 * v + x.toNat) 0

/-- The `n` bits of `b` from index `start`, 0 beyond its end, as a number with the first bit the most
significant (R36 with n = 32, R93 with n = 8). -/
def chunkAt (b : Bits) (start n : Nat) : Nat :=
  bitsToNat ((List.range n).map fun i => b.getD (start + i) false)

/-! ### Control and status registers -/

/-- The CSRs by name (R15). -/
inductive Reg where
  | id
  | ctrl
  | cmd
  | status
  | err
  | inLen
  | outLen
  | freqN
  | symTotal
  | treeNodes
  | maxCodeLen
  | bitLen
  | payloadLen
  | valid
  | padBits
  | trailBits
  | qsym
  | qword
  | qfreq
  | qcodeLen
  | qcode
deriving DecidableEq, Repr

/-- The CSR map: the offset of each register (R15). -/
def Reg.offset : Reg → Nat
  | .id => 0x000
  | .ctrl => 0x004
  | .cmd => 0x008
  | .status => 0x00C
  | .err => 0x010
  | .inLen => 0x014
  | .outLen => 0x018
  | .freqN => 0x01C
  | .symTotal => 0x020
  | .treeNodes => 0x024
  | .maxCodeLen => 0x028
  | .bitLen => 0x02C
  | .payloadLen => 0x030
  | .valid => 0x034
  | .padBits => 0x038
  | .trailBits => 0x03C
  | .qsym => 0x040
  | .qword => 0x044
  | .qfreq => 0x048
  | .qcodeLen => 0x04C
  | .qcode => 0x050

/-- Every register, in the order of R15. -/
def Reg.all : List Reg :=
  [.id, .ctrl, .cmd, .status, .err, .inLen, .outLen, .freqN, .symTotal, .treeNodes, .maxCodeLen,
   .bitLen, .payloadLen, .valid, .padBits, .trailBits, .qsym, .qword, .qfreq, .qcodeLen, .qcode]

/-- The register at an offset of the CSR window, `none` in the reserved space (R37). -/
def regAt (offset : Nat) : Option Reg := Reg.all.find? fun r => r.offset == offset

/-- The constant ID (R16): the ASCII bytes "HUF1". -/
def idWord : Word := 0x48554631

/-- FREQ_N before it is put in 32 bits (R23). -/
def State.freqN (s : State) : Nat := (s.freq.map List.length).getD 0

/-- The sum of the counts of a frequency table. -/
def FreqTable.total (f : FreqTable) : Nat := (f.map (·.2)).sum

/-- SYM_TOTAL before it is put in 32 bits (R24). -/
def State.symTotal (s : State) : Nat := (s.freq.map FreqTable.total).getD 0

/-- TREE_NODES before it is put in 32 bits (R25). -/
def State.treeNodes (s : State) : Nat := (s.tree.map fun t => t.nodes.length).getD 0

/-- The longest code of a code table, 0 for an empty one (R26, R92). -/
def CodeTable.maxLen (c : CodeTable) : Nat := (c.map fun e => e.2.length).foldr max 0

/-- MAX_CODE_LEN before it is put in 32 bits (R26). -/
def State.maxCodeLen (s : State) : Nat := (s.codes.map CodeTable.maxLen).getD 0

/-- BIT_LEN before it is put in 32 bits (R27). -/
def State.bitLen (s : State) : Nat := (s.bits.map List.length).getD 0

/-- PAYLOAD_LEN before it is put in 32 bits (R28). -/
def State.payloadLen (s : State) : Nat := (s.payload.map List.length).getD 0

/-- The value of a CSR (R16-R36), as it reads in IDLE. -/
def State.regValue (s : State) : Reg → Word
  | .id => idWord
  | .ctrl => ctrlWord s.csr.ctrlIE
  | .cmd => s.csr.cmd
  | .status => s.csr.status.toWord
  | .err => s.csr.err.toWord
  | .inLen => s.csr.inLen
  | .outLen => s.csr.outLen
  | .freqN => BitVec.ofNat 32 s.freqN
  | .symTotal => BitVec.ofNat 32 s.symTotal
  | .treeNodes => BitVec.ofNat 32 s.treeNodes
  | .maxCodeLen => BitVec.ofNat 32 s.maxCodeLen
  | .bitLen => BitVec.ofNat 32 s.bitLen
  | .payloadLen => BitVec.ofNat 32 s.payloadLen
  | .valid => s.validWord
  | .padBits => s.csr.padBits
  | .trailBits => s.csr.trailBits
  | .qsym => s.csr.qsym.setWidth 32
  | .qword => s.csr.qword
  | .qfreq => s.csr.qfreq
  | .qcodeLen => s.csr.qcodeLen
  | .qcode => s.csr.qcode

/-- The registers that return their current value while BUSY; every other one returns a draw (R47). -/
def Reg.readableWhileBusy : Reg → Bool
  | .id | .ctrl | .cmd | .status | .inLen | .qsym | .qword => true
  | .err | .outLen | .freqN | .symTotal | .treeNodes | .maxCodeLen | .bitLen | .payloadLen | .valid
  | .padBits | .trailBits | .qfreq | .qcodeLen | .qcode => false

end Sys2Proof.Machine
end

