-- ==== Sys2Proof/Machine/BitPacker.lean ====
section
/-! DEFINITION. bit_packer and bit_unpacker: PACK and UNPACK (43_bit_packer.md R93-R98). -/

namespace Sys2Proof.Machine

/-- `Pack(b)` (R93): byte j holds bits 8j to 8j + 7, the first at bit 7, with zero bits after the end. -/
def pack (b : Bits) : List Byte :=
  (List.range ((b.length + 7) / 8)).map fun j => BitVec.ofNat 8 (chunkAt b (8 * j) 8)

/-- The eight bits of a byte, the most significant first (R94). -/
def byteBits (x : Byte) : Bits := (List.range 8).map fun k => x.getLsbD (7 - k)

/-- `Unpack(P)` (R94). -/
def unpack (p : List Byte) : Bits := p.flatMap byteBits

/-- What PACK makes of BITS, its checks in the order of R96: the packed bytes and the pad count. -/
def packResult (p : Params) : Option Bits → Except ErrCode (List Byte × Nat)
  | none => .error .sequence
  | some b =>
    if p.outCap < (pack b).length then .error .capacity
    else .ok (pack b, 8 * (pack b).length - b.length)

/-- The stage PACK (R80, R96): PAYLOAD, OUT_MEM, OUT_LEN and PAD_BITS are written; on an error PAYLOAD
is invalidated and PAD_BITS unchanged. -/
def stagePack (s : State) : StageResult :=
  match packResult s.params s.bits with
  | .ok (bs, pad) =>
    let t := s.memWriteOut bs
    .ok { t with payload := some bs, csr := { t.csr with padBits := BitVec.ofNat 32 pad } }
  | .error e => .fail e (Instr.opcode .pack) { s with payload := none }

/-- PACK (R96). -/
def execPack (s : State) : Host.Outcome State Fault Refusal := .next (stagePack s).complete

/-- What UNPACK makes of PAYLOAD, its checks in the order of R97. -/
def unpackResult (p : Params) : Option (List Byte) → Except ErrCode Bits
  | none => .error .sequence
  | some bs => if p.bitsCap < 8 * bs.length then .error .capacity else .ok (unpack bs)

/-- The stage UNPACK (R80, R97): BITS is written, or invalidated on an error. -/
def stageUnpack (s : State) : StageResult :=
  match unpackResult s.params s.payload with
  | .ok b => .ok { s with bits := some b }
  | .error e => .fail e (Instr.opcode .unpack) { s with bits := none }

/-- UNPACK (R97). -/
def execUnpack (s : State) : Host.Outcome State Fault Refusal := .next (stageUnpack s).complete

end Sys2Proof.Machine
end

