-- ==== Sys2Proof/Machine/CodeGenerator.lean ====
section
/-! DEFINITION. canonical_code_generator: GENCODE (42_code_generator.md R89-R92). The codes are the
tree paths (90_conflicts.md C1). -/

namespace Sys2Proof.Machine

/-- The root's index, 2N - 2 (R40). -/
def Tree.root (t : Tree) : Nat := 2 * t.leaves - 2

/-- The stack loop of R89: a leaf adds its path to the table; an internal node puts its right child
and then its left child on the stack. In a tree every node is taken off once, so `fuel` the number of
nodes never runs out; an index with no node is passed over, which no tree has (log 12). -/
def codeLoop (nodes : List Node) : Nat → List (Nat × Bits) → CodeTable → CodeTable
  | 0, _, c => c
  | _ + 1, [], c => c
  | fuel + 1, (i, p) :: stack, c =>
    match (nodes[i]? : Option Node) with
    | some (.leaf s _) => codeLoop nodes fuel stack (c ++ [(s, p)])
    | some (.internal l r _) =>
      codeLoop nodes fuel ((l, p ++ [false]) :: (r, p ++ [true]) :: stack) c
    | none => codeLoop nodes fuel stack c

/-- The code table of a tree of one leaf: the one-bit code [0] (R90). -/
def singleCode (t : Tree) : CodeTable :=
  match (t.nodes[0]? : Option Node) with
  | some (.leaf s _) => [(s, [false])]
  | _ => []

/-- `GenCodes(T)` (R89, R90). -/
def genCodes (t : Tree) : CodeTable :=
  if t.leaves = 1 then singleCode t
  else tableSort (codeLoop t.nodes t.nodes.length [(t.root, [])] [])

/-- What GENCODE makes of TREE, its checks in the order of R92. -/
def gencodeResult (p : Params) : Option Tree → Except ErrCode CodeTable
  | none => .error .sequence
  | some t =>
    if p.lMax < (genCodes t).maxLen then .error .capacity else .ok (genCodes t)

/-- The stage GENCODE (R80, R92): CODES is written, or invalidated on an error. -/
def stageGencode (s : State) : StageResult :=
  match gencodeResult s.params s.tree with
  | .ok c => .ok { s with codes := some c }
  | .error e => .fail e (Instr.opcode .gencode) { s with codes := none }

/-- GENCODE (R92). -/
def execGencode (s : State) : Host.Outcome State Fault Refusal := .next (stageGencode s).complete

end Sys2Proof.Machine
end

