-- ==== Sys2Proof/Machine/Container.lean ====
section
/-! DEFINITION. container_serializer: SERIALIZE and DESERIALIZE (44_container.md R99-R107). -/

namespace Sys2Proof.Machine

/-! ### Serialize -/

/-- The left-hand side of an entry (R100): empty for SPACE, the symbol itself otherwise. -/
def lhs (s : Symbol) : List Symbol := if s = spaceSym then [] else [s]

/-- One entry of the frequency text (R100). -/
def entryText (e : Symbol × Nat) : List Symbol := lhs e.1 ++ [colonSym] ++ dec e.2

/-- The frequency text (R100): the entries in ascending symbol order, one SPACE between two. -/
def freqText (f : FreqTable) : List Symbol := [spaceSym].intercalate (f.map entryText)

/-- COLON and NEWLINE, the symbols a container cannot hold (R101). -/
def unrepresentable (s : Symbol) : Bool := s == colonSym || s == newlineSym

/-- The bytes of a container (R99). -/
def containerBytes (f : FreqTable) (p : List Byte) : List Byte :=
  utf8 (freqText f) ++ newlineByte :: p

/-- `Serialize(F, P)` (R102). -/
def serialize (prm : Params) (f : FreqTable) (p : List Byte) : Except ErrCode (List Byte) :=
  if f.any fun e => unrepresentable e.1 then .error .unrepresentableSymbol
  else if prm.outCap < (containerBytes f p).length then .error .capacity
  else .ok (containerBytes f p)

/-- What SERIALIZE makes of FREQ and PAYLOAD, its checks in the order of R105. -/
def serializeResult (prm : Params) : Option FreqTable → Option (List Byte) →
    Except ErrCode (List Byte)
  | none, _ => .error .sequence
  | some _, none => .error .sequence
  | some f, some p => serialize prm f p

/-- The stage SERIALIZE (R80, R105): it writes no store. -/
def stageSerialize (s : State) : StageResult :=
  match serializeResult s.params s.freq s.payload with
  | .ok bs => .ok (s.memWriteOut bs)
  | .error e => .fail e (Instr.opcode .serialize) s

/-- SERIALIZE (R105). -/
def execSerialize (s : State) : Host.Outcome State Fault Refusal :=
  .next (stageSerialize s).complete

/-! ### Deserialize -/

/-- The bytes before and after the first separator byte, `none` when there is none (R103). -/
def splitNewline : List Byte → Option (List Byte × List Byte)
  | [] => none
  | b :: t =>
    if b = newlineByte then some ([], t)
    else (splitNewline t).map fun hp => (b :: hp.1, hp.2)

/-- A symbol sequence split at every SPACE: one field more than there are SPACEs (R103). -/
def splitSpaces : List Symbol → List (List Symbol)
  | [] => [[]]
  | c :: t =>
    if c = spaceSym then [] :: splitSpaces t
    else
      match splitSpaces t with
      | [] => [[c]]
      | f :: fs => (c :: f) :: fs

/-- The symbol an entry's left-hand side stands for (R104): SPACE when empty. -/
def lhsSymbol : List Symbol → Option Symbol
  | [] => some spaceSym
  | [s] => some s
  | _ => none

/-- `ParseField(f)` (R104), its checks in the order written there. -/
def parseField (f : List Symbol) : Except ErrCode (Symbol × Nat) :=
  let n := f.count colonSym
  if n = 0 then .error .corruptContainer
  else if 2 ≤ n then .error .unrepresentableSymbol
  else
    match lhsSymbol (f.takeWhile (· != colonSym)) with
    | none => .error .corruptContainer
    | some s =>
      match parseCount ((f.dropWhile (· != colonSym)).drop 1) with
      | .malformed => .error .corruptContainer
      | .tooBig => .error .capacity
      | .ok c => .ok (s, c)

/-- The loop of R103 over the fields, `f` the table and `total` the sum so far. -/
def addFields (prm : Params) : List (List Symbol) → FreqTable → Nat → Except ErrCode FreqTable
  | [], f, _ => .ok f
  | fd :: fds, f, total =>
    match parseField fd with
    | .error e => .error e
    | .ok (s, c) =>
      if (f.lookup s).isSome then .error .corruptContainer
      else if f.length = prm.kMax then .error .capacity
      else if countMax < total + c then .error .capacity
      else addFields prm fds (tableInsert s c f) (total + c)

/-- The frequency table of a frequency text: empty for the empty text (R103). -/
def parseFreqText (prm : Params) (syms : List Symbol) : Except ErrCode FreqTable :=
  if syms.length = 0 then .ok [] else addFields prm (splitSpaces syms) [] 0

/-- `Deserialize(B)` (R103). -/
def deserialize (prm : Params) (b : List Byte) : Except ErrCode (FreqTable × List Byte) :=
  match splitNewline b with
  | none => .error .corruptContainer
  | some (h, p) =>
    match utf8Dec h with
    | none => .error .corruptContainer
    | some syms =>
      match parseFreqText prm syms with
      | .error e => .error e
      | .ok f => .ok (f, p)

/-- What DESERIALIZE makes of IN_MEM, its checks in the order of R106. -/
def deserializeResult (s : State) : Except ErrCode (FreqTable × List Byte) :=
  match s.input with
  | .error e => .error e
  | .ok b => deserialize s.params b

/-- The stage DESERIALIZE (R80, R106): FREQ and PAYLOAD are written, or both invalidated. -/
def stageDeserialize (s : State) : StageResult :=
  match deserializeResult s with
  | .ok (f, p) => .ok { s with freq := some f, payload := some p }
  | .error e => .fail e (Instr.opcode .deserialize) { s with freq := none, payload := none }

/-- DESERIALIZE (R106). -/
def execDeserialize (s : State) : Host.Outcome State Fault Refusal :=
  .next (stageDeserialize s).complete

end Sys2Proof.Machine
end

