-- ==== Sys2Proof/Machine/TreeBuilder.lean ====
section
/-! DEFINITION. huffman_tree_builder: BUILD (41_tree_builder.md R84-R88). -/

namespace Sys2Proof.Machine

/-- The weight of a node (R40). -/
def Node.weight : Node → Nat
  | .leaf _ w => w
  | .internal _ _ w => w

/-- The weight of the node at an index of the array. -/
def weightAt (nodes : List Node) (i : Nat) : Nat := ((nodes[i]?).map Node.weight).getD 0

/-- Node order (R84): by weight, then by sequence number, which is the index. -/
def precedes (nodes : List Node) (x y : Nat) : Bool :=
  weightAt nodes x < weightAt nodes y || (weightAt nodes x == weightAt nodes y && x < y)

/-- The index of least key in a collection (R84, R85), `none` when it is empty. -/
def leastKey (nodes : List Node) : List Nat → Option Nat
  | [] => none
  | i :: q =>
    match leastKey nodes q with
    | none => some i
    | some j => some (if precedes nodes i j then i else j)

/-- One merge of R85: the two indices of least key in the order they are taken out, and the collection
without them; `none` when fewer than two are left. -/
def takeTwo (nodes : List Node) (q : List Nat) : Option (Nat × Nat × List Nat) :=
  match leastKey nodes q with
  | none => none
  | some x =>
    match leastKey nodes (q.erase x) with
    | none => none
    | some y => some (x, y, (q.erase x).erase y)

/-- The loop of R85: the first index taken out becomes the left child, the second the right one, and
the new node's index joins the collection. Each turn takes two indices out and puts one in, so `fuel`
at least the collection's size never runs out (log 12). -/
def mergeLoop : Nat → List Node → List Nat → List Node
  | 0, nodes, _ => nodes
  | fuel + 1, nodes, q =>
    match takeTwo nodes q with
    | none => nodes
    | some (x, y, q') =>
      mergeLoop fuel (nodes ++ [.internal x y (weightAt nodes x + weightAt nodes y)])
        (q' ++ [nodes.length])

/-- The leaves of a frequency table, in ascending symbol order (R85). -/
def leavesOf (f : FreqTable) : List Node := f.map fun e => .leaf e.1 e.2

/-- `BuildTree(F)` (R85). -/
def buildTree (f : FreqTable) : Tree where
  nodes := mergeLoop f.length (leavesOf f) (List.range f.length)
  leaves := f.length

/-- What BUILD makes of FREQ, its checks in the order of R87. -/
def buildResult : Option FreqTable → Except ErrCode Tree
  | none => .error .sequence
  | some f => if f.length = 0 then .error .emptyInput else .ok (buildTree f)

/-- The stage BUILD (R80, R87): TREE is written, or invalidated on an error. -/
def stageBuild (s : State) : StageResult :=
  match buildResult s.freq with
  | .ok t => .ok { s with tree := some t }
  | .error e => .fail e (Instr.opcode .build) { s with tree := none }

/-- BUILD (R87). -/
def execBuild (s : State) : Host.Outcome State Fault Refusal := .next (stageBuild s).complete

end Sys2Proof.Machine
end

