-- ==== Sys2Proof/Machine/Codec.lean ====
section
/-! DEFINITION. huffman_encoder and huffman_decoder: COUNT, MAP, WALK, ENCODE and DECODE
(45_codec.md R108-R120). -/

namespace Sys2Proof.Machine

/-! ### Frequency analysis -/

/-- A symbol joined to an ascending sequence of distinct symbols. -/
def insertSymbol (k : Symbol) : List Symbol → List Symbol
  | [] => [k]
  | a :: t => if k < a then k :: a :: t else if k = a then a :: t else a :: insertSymbol k t

/-- The distinct symbols of a sequence in ascending order. -/
def distinctSymbols (syms : List Symbol) : List Symbol := syms.foldr insertSymbol []

/-- The table of how often each symbol occurs (R108). -/
def countSymbols (syms : List Symbol) : FreqTable :=
  (distinctSymbols syms).map fun s => (s, syms.count s)

/-- `CountFreq(B)` (R108), its checks in the order written there. -/
def countFreq (prm : Params) (b : List Byte) : Except ErrCode FreqTable :=
  match utf8Dec b with
  | none => .error .invalidText
  | some syms =>
    if syms.length = 0 then .error .emptyInput
    else if prm.kMax < (countSymbols syms).length then .error .capacity
    else .ok (countSymbols syms)

/-- What COUNT makes of IN_MEM, its checks in the order of R109. -/
def countResult (s : State) : Except ErrCode FreqTable :=
  match s.input with
  | .error e => .error e
  | .ok b => countFreq s.params b

/-- The stage COUNT (R80, R109): FREQ is written, or invalidated on an error. -/
def stageCount (s : State) : StageResult :=
  match countResult s with
  | .ok f => .ok { s with freq := some f }
  | .error e => .fail e (Instr.opcode .count) { s with freq := none }

/-- COUNT (R109). -/
def execCount (s : State) : Host.Outcome State Fault Refusal := .next (stageCount s).complete

/-! ### Symbol mapping -/

/-- The loop of R110: the bits so far, and after each symbol the check against BITS_CAP. -/
def mapLoop (prm : Params) (c : CodeTable) : List Symbol → Bits → Except ErrCode Bits
  | [], b => .ok b
  | k :: syms, b =>
    match c.lookup k with
    | none => .error .noCode
    | some code =>
      if prm.bitsCap < (b ++ code).length then .error .capacity
      else mapLoop prm c syms (b ++ code)

/-- `MapSymbols(B, C)` (R110). -/
def mapSymbols (prm : Params) (b : List Byte) (c : CodeTable) : Except ErrCode Bits :=
  match utf8Dec b with
  | none => .error .invalidText
  | some syms => mapLoop prm c syms []

/-- What MAP makes of CODES and IN_MEM, its checks in the order of R111. -/
def mapResult (s : State) : Except ErrCode Bits :=
  match s.codes with
  | none => .error .sequence
  | some c =>
    match s.input with
    | .error e => .error e
    | .ok b => mapSymbols s.params b c

/-- The stage MAP (R80, R111): BITS is written, or invalidated on an error. -/
def stageMap (s : State) : StageResult :=
  match mapResult s with
  | .ok b => .ok { s with bits := some b }
  | .error e => .fail e (Instr.opcode .map) { s with bits := none }

/-- MAP (R111). -/
def execMap (s : State) : Host.Outcome State Fault Refusal := .next (stageMap s).complete

/-! ### Tree-walk decoding -/

/-- From a node down to a leaf, one bit per step: 0 to the left child, 1 to the right one (R112). The
leaf's symbol and the bits left, or `none` when the bits run out first. An index with no node gives
`none` too, which no tree has (log 12). -/
def descend (nodes : List Node) : Bits → Nat → Option (Symbol × Bits)
  | [], i =>
    match (nodes[i]? : Option Node) with
    | some (.leaf s _) => some (s, [])
    | _ => none
  | x :: b, i =>
    match (nodes[i]? : Option Node) with
    | some (.leaf s _) => some (s, x :: b)
    | some (.internal l r _) => descend nodes b (if x then r else l)
    | none => none

/-- A single-leaf tree: one bit per symbol, and it must be 0 (R112, D23). -/
def singleSymbol (t : Tree) : Bits → Option (Symbol × Bits)
  | false :: b =>
    match (t.nodes[0]? : Option Node) with
    | some (.leaf s _) => some (s, b)
    | _ => none
  | _ => none

/-- One symbol decoded from the bits (R112); `none` raises CORRUPT_CONTAINER. -/
def walkSymbol (t : Tree) (b : Bits) : Option (Symbol × Bits) :=
  if t.leaves = 1 then singleSymbol t b else descend t.nodes b t.root

/-- The loop of R112: `n` symbols still to emit, the bits not yet consumed, the bytes emitted. -/
def walkLoop (prm : Params) (t : Tree) : Nat → Bits → List Byte → Except ErrCode (List Byte × Bits)
  | 0, b, out => .ok (out, b)
  | n + 1, b, out =>
    match walkSymbol t b with
    | none => .error .corruptContainer
    | some (s, b') =>
      if prm.outCap < out.length + (utf8Enc s).length then .error .capacity
      else walkLoop prm t n b' (out ++ utf8Enc s)

/-- `WalkDecode(T, b)` (R112, R120): exactly as many symbols as the root's weight. The output bytes and
the number of bits consumed. -/
def walkDecode (prm : Params) (t : Tree) (b : Bits) : Except ErrCode (List Byte × Nat) :=
  match walkLoop prm t (weightAt t.nodes t.root) b [] with
  | .error e => .error e
  | .ok (out, rest) => .ok (out, b.length - rest.length)

/-- What WALK makes of TREE and BITS, its checks in the order of R113: the text and TRAIL_BITS. -/
def walkResult (prm : Params) : Option Tree → Option Bits → Except ErrCode (List Byte × Nat)
  | none, _ => .error .sequence
  | some _, none => .error .sequence
  | some t, some b =>
    match walkDecode prm t b with
    | .error e => .error e
    | .ok (out, pos) => .ok (out, b.length - pos)

/-- The stage WALK (R80, R113): it writes no store; on an error TRAIL_BITS is unchanged. -/
def stageWalk (s : State) : StageResult :=
  match walkResult s.params s.tree s.bits with
  | .ok (out, trail) =>
    let t := s.memWriteOut out
    .ok { t with csr := { t.csr with trailBits := BitVec.ofNat 32 trail } }
  | .error e => .fail e (Instr.opcode .walk) s

/-- WALK (R113). -/
def execWalk (s : State) : Host.Outcome State Fault Refusal := .next (stageWalk s).complete

/-! ### The codec commands -/

/-- The stages of ENCODE in order (R81, R114). -/
def encodeStages : List (State → StageResult) :=
  [stageCount, stageBuild, stageGencode, stageMap, stagePack, stageSerialize]

/-- The stages of DECODE in order (R81, R115). -/
def decodeStages : List (State → StageResult) :=
  [stageDeserialize, stageBuild, stageUnpack, stageWalk]

/-- ENCODE (R114). -/
def execEncode (s : State) : Host.Outcome State Fault Refusal :=
  .next (runStages encodeStages s).complete

/-- DECODE (R115). -/
def execDecode (s : State) : Host.Outcome State Fault Refusal :=
  .next (runStages decodeStages s).complete

end Sys2Proof.Machine
end

