-- ==== Sys2Proof/Machine/Control.lean ====
section
/-! DEFINITION. The control commands NOP, CLEAR and QUERY (46_control.md R121-R123). -/

namespace Sys2Proof.Machine

/-- NOP (R121): nothing changes but the completion. -/
def execNop (s : State) : Host.Outcome State Fault Refusal := .next s.completeOk

/-- CLEAR's own effect (R122): every store invalid, OUT_LEN and the result registers 0. -/
def State.cleared (s : State) : State :=
  let t := s.dropOutput
  { t with
    freq := none
    tree := none
    codes := none
    bits := none
    payload := none
    csr := { t.csr with padBits := 0, trailBits := 0, qfreq := 0, qcodeLen := 0, qcode := 0 } }

/-- CLEAR (R122). -/
def execClear (s : State) : Host.Outcome State Fault Refusal := .next s.cleared.completeOk

/-- The count of QSYM in FREQ, if FREQ is valid and has an entry for it (R34). -/
def State.queryFreq (s : State) : Option Nat := s.freq.bind fun f => f.lookup s.csr.qsym.toNat

/-- The code of QSYM in CODES, if CODES is valid and has an entry for it (R35, R36). -/
def State.queryCode (s : State) : Option Bits := s.codes.bind fun c => c.lookup s.csr.qsym.toNat

/-- QUERY's own effect (R123): QFREQ, QCODE_LEN and the 32 code bits from index 32*QWORD on in QCODE,
the first one at bit 31; all 0 where there is no entry. -/
def State.queried (s : State) : State :=
  { s with
    csr := { s.csr with
      qfreq := BitVec.ofNat 32 (s.queryFreq.getD 0)
      qcodeLen := BitVec.ofNat 32 ((s.queryCode.map List.length).getD 0)
      qcode := BitVec.ofNat 32
        ((s.queryCode.map fun b => chunkAt b (32 * s.csr.qword.toNat) 32).getD 0) } }

/-- QUERY (R123). It never fails. -/
def execQuery (s : State) : Host.Outcome State Fault Refusal := .next s.queried.completeOk

end Sys2Proof.Machine
end

