-- ==== Sys2Proof/Machine/Bus.lean ====
section
/-! DEFINITION. The host interface: which window an access reaches, bus errors, reads and writes of
CSRs, IN_MEM and OUT_MEM in either phase (20_memory.md R48-R62). -/

namespace Sys2Proof.Machine

/-- The number of bytes of an access. -/
def Size.bytes : Size → Nat
  | .b1 => 1
  | .b2 => 2
  | .b4 => 4

/-- Where an access lands: a window and the offset in it, the error response of R55, or outside the
block's region. -/
inductive Target where
  | csr (offset : Nat)
  | inMem (offset : Nat)
  | outMem (offset : Nat)
  | busError
  | notSelected
deriving DecidableEq, Repr

/-- The size of the region from HUFF_BASE on (R48). -/
def regionSize : Nat := 0x03000000

/-- The start of the IN window in the region (R48). -/
def inWindow : Nat := 0x01000000

/-- The start of the OUT window in the region (R48). -/
def outWindow : Nat := 0x02000000

/-- An access at an offset of a byte window is naturally aligned and lies wholly inside it (R54). -/
def fitsWindow (size : Size) (offset cap : Nat) : Bool :=
  offset % size.bytes == 0 && offset + size.bytes ≤ cap

/-- The window map and the access rules of each window, at an offset of the region (R48, R53, R54). -/
def locateOffset (p : Params) (size : Size) (off : Nat) : Target :=
  if off < 0x1000 then
    if size = .b4 ∧ off % 4 = 0 then .csr off else .busError
  else if inWindow ≤ off ∧ off < inWindow + p.inCap then
    if fitsWindow size (off - inWindow) p.inCap then .inMem (off - inWindow) else .busError
  else if outWindow ≤ off ∧ off < outWindow + p.outCap then
    if fitsWindow size (off - outWindow) p.outCap then .outMem (off - outWindow) else .busError
  else .busError

/-- Where an access at a host address lands (R48; outside the region: log 8). -/
def locate (p : Params) (size : Size) (addr : Nat) : Target :=
  if addr < p.base ∨ p.base + regionSize ≤ addr then .notSelected
  else locateOffset p size (addr - p.base)

/-- The number a byte sequence stands for on the bus, the first byte the least significant (R51). -/
def littleEndian : List Byte → Nat
  | [] => 0
  | b :: bs => b.toNat + 256 * littleEndian bs

/-- The first `n` bytes a bus value carries, the least significant first (R51). -/
def busBytes (n : Nat) (v : Word) : List Byte := (List.range n).map fun k => v.extractLsb' (8 * k) 8

/-- The state with the bus's answer set. Nothing of the block changes. -/
def State.respond (s : State) (r : Response) : State := { s with response := r }

/-- The answer to a read that returns these bytes (R51). -/
def readData (size : Size) (bs : List Byte) : Response :=
  .data size (BitVec.ofNat 32 (littleEndian bs))

/-! ### Reads: none has a side effect on the block (R56) -/

/-- A read in the CSR window (R37, R47): 0 in the reserved space, a fresh draw for a result register
while BUSY, the register's value otherwise. -/
def State.readCsr (s : State) (offset : Nat) : State :=
  match regAt offset with
  | none => s.respond (.data .b4 0)
  | some r =>
    if s.phase = .busy ∧ r.readableWhileBusy = false then
      { s with response := .data .b4 (Config.freeWord s.draws), draws := s.draws + 1 }
    else s.respond (.data .b4 (s.regValue r))

/-- A read in the IN window, in either phase (R49, R61). -/
def State.readIn (s : State) (size : Size) (offset : Nat) : State :=
  s.respond (readData size (s.memReadIn offset size.bytes))

/-- The byte a read of OUT_MEM returns at an index (R50, R61, R148): the draw while BUSY or at and
above OUT_LEN, the byte last written there otherwise. -/
def State.outByte (s : State) (i draw : Nat) : Byte :=
  if s.phase = .busy ∨ s.csr.outLen.toNat ≤ i then Config.freeByte draw
  else (s.outMem.read? i).getD (Config.freeByte draw)

/-- A read in the OUT window: each byte has a draw of its own to fall back on (R50, R61). -/
def State.readOut (s : State) (size : Size) (offset : Nat) : State :=
  { s with
    response := readData size
      ((List.range size.bytes).map fun k => s.outByte (offset + k) (s.draws + k))
    draws := s.draws + size.bytes }

/-! ### Writes -/

/-- A host write that is dropped while BUSY, setting DROPPED and nothing else (R60); `t` is the state
it leads to in IDLE. -/
def State.unlessBusy (s t : State) : State :=
  if s.phase = .busy then { s with csr := { s.csr with status := s.csr.status.setDropped } } else t

/-- A host write in the CSR window (R16-R37, R56, R60, R75). A write to CMD requests a command; CTRL
and STATUS are written in either phase; every other register and the reserved space ignore writes. -/
def State.writeCsr (s : State) (offset : Nat) (w : Word) : State :=
  match regAt offset with
  | some .cmd => s.unlessBusy (s.accept w)
  | some .ctrl => { s with csr := { s.csr with ctrlIE := w.getLsbD 0 } }
  | some .status => { s with csr := { s.csr with status := s.csr.status.clearOnes w } }
  | some .inLen => s.unlessBusy { s with csr := { s.csr with inLen := w } }
  | some .qsym => s.unlessBusy { s with csr := { s.csr with qsym := w.setWidth 21 } }
  | some .qword => s.unlessBusy { s with csr := { s.csr with qword := w } }
  | some .id | some .err | some .outLen | some .freqN | some .symTotal | some .treeNodes
  | some .maxCodeLen | some .bitLen | some .payloadLen | some .valid | some .padBits
  | some .trailBits | some .qfreq | some .qcodeLen | some .qcode | none => s

/-- A host write in the IN window (R49, R60). -/
def State.writeIn (s : State) (offset : Nat) (bs : List Byte) : State :=
  s.unlessBusy { s with inMem := s.inMem.writeBytes offset bs }

/-- One host access (R55-R57): a bus error, and an access outside the region, change nothing of the
block; a write to the OUT window is a bus error (R50). -/
def hostAccess : Access → State → State
  | .rd size addr, s =>
    match locate s.params size addr with
    | .csr off => s.readCsr off
    | .inMem off => s.readIn size off
    | .outMem off => s.readOut size off
    | .busError => s.respond .busError
    | .notSelected => s.respond .notSelected
  | .wr size addr v, s =>
    match locate s.params size addr with
    | .csr off => (s.writeCsr off v).respond .written
    | .inMem off => (s.writeIn off (busBytes size.bytes v)).respond .written
    | .outMem _ => s.respond .busError
    | .busError => s.respond .busError
    | .notSelected => s.respond .notSelected

end Sys2Proof.Machine
end

