-- ==== Sys2Proof/Machine/Sequencer.lean ====
section
/-! DEFINITION. Who moves next (20_memory.md R58, 40_command_model.md R76, 70 R142) and where the core
finds its command. -/

namespace Sys2Proof.Machine

/-- What the next step does. -/
inductive Move where
  /-- nothing but what has already been done to the state -/
  | rest (s : State)
  /-- the core runs the pending command -/
  | core (s : State)
  /-- the host makes an access -/
  | access (a : Access) (s : State)
  /-- a host access while reset is asserted: it has no step (U8) -/
  | stuck
deriving DecidableEq, Repr

/-- The core's turn: it has a step exactly when BUSY (R76); while reset is asserted it has none. -/
def State.coreMove (s : State) : Move :=
  if s.phase = .busy ∧ s.inReset = false then .core s else .rest s

/-- The next move, taken from the schedule. When nothing is scheduled, a pending command runs (R150:
an accepted command eventually completes); with none pending the block stays as it is (log 9). -/
def nextMove (s : State) : Move :=
  match s.schedule with
  | [] => s.coreMove
  | .core :: rest => { s with schedule := rest }.coreMove
  | .access a :: rest => if s.inReset then .stuck else .access a { s with schedule := rest }
  | .assertReset :: rest => .rest { s with schedule := rest }.applyReset
  | .releaseReset :: rest => .rest { s with schedule := rest }.releaseReset

/-- The command the core is to run: the word in `pending` (R14, R76, R81). -/
def fetch (s : State) : Except DecodeError Instr := decodeWord s.pending

/-- The state in which the core's next step runs the word `w`: `w` accepted as R75 says, reset not
asserted, and the core's turn first in the schedule (log 10). -/
def State.loadCommand (s : State) (w : Word) : State :=
  { s.accept w with inReset := false, schedule := .core :: s.schedule }

end Sys2Proof.Machine
end

