-- ==== Sys2Proof/Machine/Step.lean ====
section
/-! DEFINITION. One step of the machine: a host access, the core's run of the pending command, a change
of the reset input, or nothing (20_memory.md R58, 40_command_model.md R76). -/

namespace Sys2Proof.Machine

/-- One step. The core's step runs the pending word: a command by its meaning, every other word as
ILLEGAL_COMMAND (R76, R81). -/
def step (s : State) : Host.Outcome State Fault Refusal :=
  match nextMove s with
  | .rest t => .next t
  | .core t =>
    match fetch t with
    | .ok i => exec i t
    | .error _ => .next t.illegalCommand
  | .access a t => .next (hostAccess a t)
  | .stuck => .fault .accessInReset

/-- The state with the command word `w` (its low `nbits` bits, the rest 0) where the core takes its
next command from (log 10). -/
def State.withFetchWord (s : State) (nbits w : Nat) : State :=
  s.loadCommand (BitVec.ofNat 32 (w % 2 ^ nbits))

end Sys2Proof.Machine
end

