-- ==== Sys2Proof/Safety.lean ====
section
/-! DEFINITION. What a good state is: the invariants the spec gives the stores (10_state.md R38-R43),
the memories (R22, R44) and the sequencer (R14, R19, R20), and the notions claims are stated in. -/

namespace Sys2Proof.Machine

/-! ### Notions claims use -/

/-- Every element is a symbol (R11). -/
abbrev AllScalar (syms : List Symbol) : Prop := ∀ c ∈ syms, isScalar c = true

/-- A table in strictly ascending symbol order: no symbol twice (R9, R39, R41). -/
abbrev Ascending {α : Type} (t : List (Symbol × α)) : Prop := t.Pairwise fun x y => x.1 < y.1

/-- The symbols of a table, in its order. -/
def keys {α : Type} (t : List (Symbol × α)) : List Symbol := t.map (·.1)

/-- No code of the table is a prefix of another entry's code (R91). -/
abbrev PrefixFree (c : CodeTable) : Prop :=
  c.Pairwise fun x y => ¬ x.2 <+: y.2 ∧ ¬ y.2 <+: x.2

/-- The codes of a symbol sequence joined, `none` when some symbol has no code (R110). -/
def codesOf (c : CodeTable) : List Symbol → Option Bits
  | [] => some []
  | k :: syms =>
    match c.lookup k, codesOf c syms with
    | some b, some bs => some (b ++ bs)
    | _, _ => none

/-- The two states hold the same input: parameters, IN_LEN and IN_MEM[0..min(IN_LEN, IN_CAP)) (R83). -/
abbrev SameInput (s t : State) : Prop :=
  s.params = t.params ∧ s.csr.inLen = t.csr.inLen ∧
    ∀ a, a < min s.csr.inLen.toNat s.params.inCap → s.inByte a = t.inByte a

/-- The text or container of the state is `b`: IN_LEN is within IN_CAP and IN_MEM[0..IN_LEN) = b. -/
abbrev State.InputIs (s : State) (b : List Byte) : Prop :=
  s.csr.inLen.toNat ≤ s.params.inCap ∧ s.memReadIn 0 s.csr.inLen.toNat = b

/-- The flags as acceptance leaves them (R75): DONE and ERR clear, the ERR register 0. -/
abbrev State.FlagsClear (s : State) : Prop :=
  s.csr.status.done = false ∧ s.csr.status.err = false ∧ s.csr.err = ⟨.none, 0⟩

/-- A command has completed successfully (R77). -/
abbrev State.Succeeded (s : State) : Prop :=
  s.phase = .idle ∧ s.csr.status.busy = false ∧ s.csr.status.done = true ∧ s.csr.status.err = false

/-- The stages a command runs, in order (R81). NOP, QUERY and CLEAR run none. -/
def stagesOf : Instr → List Instr
  | .encode => [.count, .build, .gencode, .map, .pack, .serialize]
  | .decode => [.deserialize, .build, .unpack, .walk]
  | .count => [.count]
  | .build => [.build]
  | .gencode => [.gencode]
  | .map => [.map]
  | .pack => [.pack]
  | .serialize => [.serialize]
  | .deserialize => [.deserialize]
  | .unpack => [.unpack]
  | .walk => [.walk]
  | .nop | .query | .clear => []

/-- Every store the stage was to write is invalid (R70, R80). SERIALIZE and WALK write no store. -/
def outputsInvalid : Instr → State → Prop
  | .count, s => s.freq = none
  | .build, s => s.tree = none
  | .gencode, s => s.codes = none
  | .map, s => s.bits = none
  | .pack, s => s.payload = none
  | .deserialize, s => s.freq = none ∧ s.payload = none
  | .unpack, s => s.bits = none
  | .serialize, _ | .walk, _ => True
  | .encode, _ | .decode, _ | .nop, _ | .query, _ | .clear, _ => True

/-- The two states hold the same in every store the stage writes (R70). -/
def sameStores : Instr → State → State → Prop
  | .count, s, t => s.freq = t.freq
  | .build, s, t => s.tree = t.tree
  | .gencode, s, t => s.codes = t.codes
  | .map, s, t | .unpack, s, t => s.bits = t.bits
  | .pack, s, t => s.payload = t.payload
  | .deserialize, s, t => s.freq = t.freq ∧ s.payload = t.payload
  | .serialize, _, _ | .walk, _, _ => True
  | .encode, _, _ | .decode, _, _ | .nop, _, _ | .query, _, _ | .clear, _, _ => True

/-- DONE, ERR and the ERR register cleared, as acceptance of a command clears them (R75). -/
def State.flagsCleared (s : State) : State :=
  { s with csr := { s.csr with
      status := { s.csr.status with done := false, err := false }, err := ⟨.none, 0⟩ } }

/-- The commands, run one after the other from `s` and each from cleared flags, all succeed and leave
`t`. -/
def RanInOrder : List Instr → State → State → Prop
  | [], s, t => t = s
  | i :: is, s, t => ∃ u, exec i s.flagsCleared = .next u ∧ u.Succeeded ∧ RanInOrder is u t

/-- An access at an offset of the block's region that R53 to R55 call ill-formed for reads and writes
alike: a wrong width or a misaligned offset, a hole, or past the end of the IN or OUT window. -/
abbrev illFormed (p : Params) (size : Size) (off : Nat) : Prop :=
  (off < 0x1000 ∧ (size ≠ .b4 ∨ off % 4 ≠ 0)) ∨
  (0x1000 ≤ off ∧ off < 0x01000000) ∨
  (0x01000000 ≤ off ∧ off < 0x02000000 ∧
    (off % size.bytes ≠ 0 ∨ 0x01000000 + p.inCap < off + size.bytes)) ∨
  (0x02000000 ≤ off ∧ (off % size.bytes ≠ 0 ∨ 0x02000000 + p.outCap < off + size.bytes))

/-! ### Parts of the invariant -/

/-- A frequency table as R39 has it. -/
abbrev FreqTable.wf (p : Params) (f : FreqTable) : Prop :=
  Ascending f ∧ (∀ e ∈ f, isScalar e.1 = true ∧ 1 ≤ e.2) ∧ f.length ≤ p.kMax ∧
    FreqTable.total f ≤ countMax

/-- The children named in a node array. -/
def childrenOf (nodes : List Node) : List Nat :=
  nodes.flatMap fun n =>
    match n with
    | .leaf _ _ => []
    | .internal l r _ => [l, r]

/-- The symbols of the leaves of a node array, by index. -/
def leafSymbols (nodes : List Node) : List Symbol :=
  nodes.flatMap fun n =>
    match n with
    | .leaf s _ => [s]
    | .internal _ _ _ => []

/-- What R40 says of the node at index `i` of a tree with `n` leaves. -/
def nodeOk (nodes : List Node) (n i : Nat) : Node → Bool
  | .leaf s w => i < n && isScalar s && 1 ≤ w
  | .internal l r w =>
    n ≤ i && l < i && r < i && w == weightAt nodes l + weightAt nodes r

/-- A Huffman tree as R40 has it: leaves first and in ascending symbol order, children before parents,
every index but the root the child of exactly one node, weights summed and within COUNT_MAX (R7). -/
abbrev Tree.wf (t : Tree) : Prop :=
  1 ≤ t.leaves ∧ t.nodes.length = 2 * t.leaves - 1 ∧
    (∀ i : Fin t.nodes.length, nodeOk t.nodes t.leaves i t.nodes[i] = true) ∧
    (leafSymbols t.nodes).Pairwise (· < ·) ∧
    (∀ i, i < t.root → (childrenOf t.nodes).count i = 1) ∧
    (∀ n ∈ t.nodes, n.weight ≤ countMax)

/-- The indices of a node array that are no internal node's child yet: Q of R85 when the nodes of the
array are all there are. -/
def unmerged (nodes : List Node) : List Nat :=
  (List.range nodes.length).filter fun i => i ∉ childrenOf nodes

/-- The internal nodes are the merges of R85: the node created when `N + k` nodes are there is the one
that has the two least unmerged indices as its children, the least one on the left, and the sum of
their weights as its weight. -/
abbrev Tree.Merged (t : Tree) : Prop :=
  ∀ k, k < t.leaves - 1 →
    t.nodes[t.leaves + k]? =
      (takeTwo (t.nodes.take (t.leaves + k)) (unmerged (t.nodes.take (t.leaves + k)))).map fun m =>
        Node.internal m.1 m.2.1 (weightAt t.nodes m.1 + weightAt t.nodes m.2.1)

/-- The node reached from index `i` by branch bits, 0 to the left child and 1 to the right one, `none`
when a bit has no branch to take (R89). -/
def follow (nodes : List Node) : Nat → Bits → Option Nat
  | i, [] => some i
  | i, b :: bs =>
    match (nodes[i]? : Option Node) with
    | some (.internal l r _) => follow nodes (if b then r else l) bs
    | _ => none

/-- The bits lead from the root to a leaf of symbol `c` (R89). -/
def Tree.LeadsTo (t : Tree) (b : Bits) (c : Symbol) : Prop :=
  ∃ i w, follow t.nodes t.root b = some i ∧ t.nodes[i]? = some (Node.leaf c w)

/-- A code table as R41 has it. -/
abbrev CodeTable.wf (p : Params) (c : CodeTable) : Prop :=
  Ascending c ∧ ∀ e ∈ c, isScalar e.1 = true ∧ e.2 ≠ [] ∧ e.2.length ≤ p.lMax

/-- The stores hold what R39 to R43 say (a TREE has at most K_MAX leaves, R87), and TRAIL_BITS, a part of a BITS value, is within BITS_CAP. -/
abbrev State.StoreInv (s : State) : Prop :=
  (∀ f ∈ s.freq, FreqTable.wf s.params f) ∧ (∀ t ∈ s.tree, Tree.wf t ∧ t.leaves ≤ s.params.kMax) ∧
    (∀ c ∈ s.codes, CodeTable.wf s.params c) ∧
    (∀ b ∈ s.bits, b.length ≤ s.params.bitsCap) ∧
    (∀ p ∈ s.payload, p.length ≤ max s.params.inCap (s.params.bitsCap / 8)) ∧
    s.csr.trailBits.toNat ≤ s.params.bitsCap

/-- The memories: both in canonical form, IN_MEM inside IN_CAP, OUT_MEM exactly the indices below
OUT_LEN, and OUT_LEN within OUT_CAP (R22, R44); PAD_BITS in 0..7 (R30). -/
abbrev State.MemoryInv (s : State) : Prop :=
  s.inMem.wf ∧ (∀ c ∈ s.inMem, c.1 < s.params.inCap) ∧
    s.outMem.wf ∧ s.outMem.map (·.1) = List.range s.csr.outLen.toNat ∧
    s.csr.outLen.toNat ≤ s.params.outCap ∧ s.csr.padBits.toNat ≤ 7

/-- The sequencer and its flags (R14, R18-R20, R75, R77, R78): CMD holds the pending word; BUSY is the
phase; DONE and ERR are never both set, nor either of them while BUSY; ERR names an error exactly as
the flags allow; reset keeps the block IDLE. -/
abbrev State.SequencerInv (s : State) : Prop :=
  s.csr.cmd = s.pending ∧ (s.csr.status.busy = true ↔ s.phase = .busy) ∧
    ¬ (s.csr.status.done = true ∧ s.csr.status.err = true) ∧
    (s.phase = .busy → s.csr.status.done = false ∧ s.csr.status.err = false ∧
      s.csr.err = ⟨.none, 0⟩) ∧
    (s.csr.status.done = true → s.csr.err = ⟨.none, 0⟩) ∧
    (s.csr.status.err = true → s.csr.err.code ≠ .none) ∧
    (s.csr.err.code = .none → s.csr.err.stage = 0) ∧
    (s.inReset = true → s.phase = .idle)

/-- The invariant of the machine. -/
abbrev State.Inv (s : State) : Prop :=
  s.params.wf ∧ s.SequencerInv ∧ s.MemoryInv ∧ s.StoreInv

end Sys2Proof.Machine
end

