-- ==== Sys2Proof/Certificates/Slice0/Obligations.lean ====
section
/-! DEFINITION. The statements for the provers, from the numbered rules of spec/. -/

open Sys2Proof Sys2Proof.Machine

/-! ### The command word -/

/-- R66: the word of every row of the opcode map, written out, decodes to that row's command. The last
clause is about bytes and rests on the model's choice of their order, least significant first (log 20):
the four bytes that carry a word are taken off a byte sequence and the rest is handed back. -/
def Obligations.OpcodeMapWordsDecode : Prop :=
  decodeWord 0x00000000 = .ok .nop ∧ decodeWord 0x00000001 = .ok .encode ∧
  decodeWord 0x00000002 = .ok .decode ∧ decodeWord 0x00000010 = .ok .count ∧
  decodeWord 0x00000011 = .ok .build ∧ decodeWord 0x00000012 = .ok .gencode ∧
  decodeWord 0x00000013 = .ok .map ∧ decodeWord 0x00000014 = .ok .pack ∧
  decodeWord 0x00000015 = .ok .serialize ∧ decodeWord 0x00000020 = .ok .deserialize ∧
  decodeWord 0x00000021 = .ok .unpack ∧ decodeWord 0x00000022 = .ok .walk ∧
  decodeWord 0x00000030 = .ok .query ∧ decodeWord 0x00000031 = .ok .clear ∧
  ∀ rest, decodeBytes (0x22 :: 0x00 :: 0x00 :: 0x00 :: rest) = .ok (.walk, rest)

/-- R65 to R68: over all 2^32 words, the decoder answers a command exactly on that command's own
encoding, and rejects exactly the words R67 calls illegal. -/
def Obligations.DecoderAgreesWithEncoderAndR67 : Prop :=
  (∀ (w : Word) (i : Instr), decodeWord w = .ok i ↔ w = encode i) ∧
  (∀ w : Word, (∃ e, decodeWord w = .error e) ↔ legalWord w = false)

/-! ### The step -/

/-- R76, R81: when BUSY and not in reset, a step with nothing scheduled or with the core's turn first
runs the decoded pending command; the turn is taken off the schedule and nothing else is added. A
command placed by `withFetchWord` is run by the very next step. R56 to R58: a step whose turn is the
host's makes exactly that access, in either phase. R76: in IDLE the core has no step, so that its turn,
or an empty schedule, changes nothing but the schedule. The schedule (logs 2 and 9) and the placement
(log 10) are the model's choice. -/
def Obligations.PendingCommandIsRun : Prop :=
  (∀ (s : State) (i : Instr), s.phase = .busy → s.inReset = false → decodeWord s.pending = .ok i →
    (s.schedule = [] → step s = exec i s) ∧
    (∀ rest, s.schedule = .core :: rest → step s = exec i { s with schedule := rest })) ∧
  (∀ (s : State) (i : Instr),
    step (s.withFetchWord 32 (encode i).toNat) = exec i { s.accept (encode i) with inReset := false }) ∧
  (∀ (s : State) (a : Access) (rest : List Turn), s.schedule = .access a :: rest →
    s.inReset = false → step s = .next (hostAccess a { s with schedule := rest })) ∧
  (∀ s : State, s.phase = .idle →
    (s.schedule = [] → step s = .next s) ∧
    (∀ rest, s.schedule = .core :: rest → step s = .next { s with schedule := rest }))

/-- R67, R129: a pending word that is illegal completes with ILLEGAL_COMMAND and STAGE = its bits 7:0,
and changes nothing else than an error completion does. That the core's turn comes from a schedule
(log 2), and that with nothing scheduled the pending word runs (log 9), are the model's choices. -/
def Obligations.IllegalWordCompletesWithError : Prop :=
  ∀ s : State, s.phase = .busy → s.inReset = false → legalWord s.pending = false →
    (s.schedule = [] ∨ ∃ rest, s.schedule = .core :: rest) →
    step s = .next { s with
      phase := .idle
      outMem := []
      schedule := s.schedule.tail
      csr := { s.csr with
        outLen := 0
        status := { s.csr.status with busy := false, err := true }
        err := ⟨.illegalCommand, s.pending.setWidth 8⟩ } }

/-- R142, U8: a step stops only on a host access scheduled while reset is asserted (log 6), and no step
refuses a command. -/
def Obligations.StepStopsOnlyOnAccessInReset : Prop :=
  (∀ (s : State) (f : Fault), step s = .fault f ↔
    (f = .accessInReset ∧ s.inReset = true ∧ ∃ a, s.schedule.head? = some (.access a))) ∧
  (∀ (s : State) (r : Refusal), step s ≠ .refused r)

/-! ### Reset, acceptance and completion -/

/-- R143: the reset state, element by element. A draw is an opaque constant of Config (logs 4 and 5), and
reset is taken as released in `State.reset`. -/
def Obligations.ResetStateIsAsSpecified : Prop :=
  State.reset.phase = .idle ∧ State.reset.pending = 0 ∧
  (∀ r : Reg, State.reset.regValue r = if r = .id then 0x48554631 else 0) ∧
  State.reset.freq = none ∧ State.reset.tree = none ∧ State.reset.codes = none ∧
  State.reset.bits = none ∧ State.reset.payload = none ∧
  (∀ a, State.reset.inByte a = Config.freeInByte 0 a) ∧
  (∀ i d, State.reset.outByte i d = Config.freeByte d) ∧
  State.reset.irq = false ∧ State.reset.inReset = false

/-- R142 to R144: asserting reset in any state, BUSY or not, gives the reset state with IN_MEM a new
draw; a pending command is gone; while reset is asserted the core does nothing and a host access has
no step; release leaves the block IDLE. What happens to the model's own fields, the draw by a count of
resets, and the fault of an access are the model's choice (logs 5, 6 and 7). -/
def Obligations.AssertedResetReplacesEverything : Prop :=
  ∀ (s : State) (rest : List Turn), s.schedule = .assertReset :: rest →
    ∃ t, step s = .next t ∧
      t = { State.reset with
        inReset := true, params := s.params, resets := s.resets + 1, draws := s.draws
        schedule := rest } ∧
      t.irq = false ∧ (∀ a, t.inByte a = Config.freeInByte (s.resets + 1) a) ∧
      (∀ rest', rest = .core :: rest' → step t = .next { t with schedule := rest' }) ∧
      (∀ a rest', rest = .access a :: rest' → step t = .fault .accessInReset) ∧
      (∀ rest', rest = .releaseReset :: rest' →
        step t = .next { t with inReset := false, schedule := rest' })

/-- R75: what a 32-bit write to CMD does, in IDLE and while BUSY, whatever the word is. -/
def Obligations.CommandAcceptance : Prop :=
  ∀ (s : State) (w : Word), ∃ answer,
    hostAccess (.wr .b4 (s.params.base + 0x008) w) s =
      if s.phase = .busy then
        { s with
          csr := { s.csr with status := { s.csr.status with dropped := true } }
          response := answer }
      else
        { s with
          phase := .busy
          pending := w
          csr := { s.csr with
            cmd := w
            status := { s.csr.status with done := false, err := false, busy := true }
            err := ⟨.none, 0⟩ }
          response := answer }

/-- R77, R78: the two completions; after an error completion no byte of OUT_MEM is defined. -/
def Obligations.CompletionsSetTheFlags : Prop :=
  ∀ (s : State) (code : ErrCode) (stage : Byte),
    (StageResult.ok s).complete = { s with
      phase := .idle
      csr := { s.csr with status := { s.csr.status with busy := false, done := true } } } ∧
    (StageResult.fail code stage s).complete = { s with
      phase := .idle
      outMem := []
      csr := { s.csr with
        outLen := 0
        status := { s.csr.status with busy := false, err := true }
        err := ⟨code, stage⟩ } }

/-- R76 to R78, R138, R150: every command, from flags as acceptance leaves them, answers a next state
that is IDLE and not BUSY with exactly one of DONE and ERR set, ERR naming an error exactly in the
second case; the interrupt line then follows CTRL.IE. -/
def Obligations.EveryCommandCompletes : Prop :=
  ∀ (i : Instr) (s : State), s.FlagsClear →
    ∃ t, exec i s = .next t ∧ t.phase = .idle ∧ t.csr.status.busy = false ∧
      t.irq = s.csr.ctrlIE ∧
      ((t.csr.status.done = true ∧ t.csr.status.err = false ∧ t.csr.err = ⟨.none, 0⟩) ∨
       (t.csr.status.done = false ∧ t.csr.status.err = true ∧ t.csr.err.code ≠ .none ∧
        t.csr.outLen = 0 ∧ t.outMem = []))

/-- R79, R132: each stage with a needed store invalid completes with SEQUENCE before any other check;
COUNT, DESERIALIZE, ENCODE and DECODE never do. -/
def Obligations.MissingStoreIsSequence : Prop :=
  (∀ s : State,
    (s.freq = none →
      exec .build s = .next ({ s with tree := none }.completeError .sequence 0x11)) ∧
    (s.tree = none →
      exec .gencode s = .next ({ s with codes := none }.completeError .sequence 0x12)) ∧
    (s.codes = none →
      exec .map s = .next ({ s with bits := none }.completeError .sequence 0x13)) ∧
    (s.bits = none →
      exec .pack s = .next ({ s with payload := none }.completeError .sequence 0x14)) ∧
    (s.freq = none ∨ s.payload = none →
      exec .serialize s = .next (s.completeError .sequence 0x15)) ∧
    (s.payload = none →
      exec .unpack s = .next ({ s with bits := none }.completeError .sequence 0x21)) ∧
    (s.tree = none ∨ s.bits = none →
      exec .walk s = .next (s.completeError .sequence 0x22))) ∧
  (∀ (i : Instr) (s t : State), i ∈ [Instr.count, .deserialize, .encode, .decode] → s.FlagsClear →
    exec i s = .next t → t.csr.err.code ≠ .sequence)

/-- R80, R81: a command that fails names one of its own stages in ERR.STAGE, and every store that stage
was to write is invalid; a stage run alone then also leaves PAD_BITS and TRAIL_BITS as they were. -/
def Obligations.FailedStageInvalidatesItsOutputs : Prop :=
  ∀ (i : Instr) (s t : State), s.FlagsClear → exec i s = .next t → t.csr.status.err = true →
    (∃ j ∈ stagesOf i, t.csr.err.stage = j.opcode ∧ outputsInvalid j t) ∧
    (stagesOf i = [i] →
      t.csr.padBits = s.csr.padBits ∧ t.csr.trailBits = s.csr.trailBits ∧ t.csr.outLen = 0)

/-! ### Data encodings -/

/-- R71, R72: the bytes of a symbol in each of the four ranges of R71's table, the fields of its code
point joined to the marks by OR, and the bytes of a sequence, its symbols' in order; decoding the UTF-8
of a symbol sequence gives it back, and every sequence the decoder answers is made of symbols and has
the given bytes as its UTF-8. R11: which integers are symbols. -/
def Obligations.Utf8RoundTrip : Prop :=
  (∀ c, isScalar c = true ↔ c ≤ 0x10FFFF ∧ ¬ (0xD800 ≤ c ∧ c ≤ 0xDFFF)) ∧
  (∀ (c : Symbol) (w : BitVec 21) (field : Nat → Nat → Byte), isScalar c = true →
    w = BitVec.ofNat 21 c → (∀ lo n, field lo n = (w.extractLsb' lo n).setWidth 8) →
    (c ≤ 0x7F → utf8Enc c = [field 0 7]) ∧
    (0x80 ≤ c → c ≤ 0x7FF → utf8Enc c = [0xC0 ||| field 6 5, 0x80 ||| field 0 6]) ∧
    (0x800 ≤ c → c ≤ 0xFFFF →
      utf8Enc c = [0xE0 ||| field 12 4, 0x80 ||| field 6 6, 0x80 ||| field 0 6]) ∧
    (0x10000 ≤ c →
      utf8Enc c =
        [0xF0 ||| field 18 3, 0x80 ||| field 12 6, 0x80 ||| field 6 6, 0x80 ||| field 0 6])) ∧
  (∀ syms, utf8 syms = (syms.map utf8Enc).flatten) ∧
  (∀ syms, AllScalar syms → utf8Dec (utf8 syms) = some syms) ∧
  (∀ b syms, utf8Dec b = some syms → AllScalar syms ∧ utf8 syms = b)

/-- R73, R74: `parse_count` accepts `dec(n)` as n for every count, and nothing else. Its three outcomes:
Malformed exactly for the empty string, a string with a symbol that is no digit, and one that begins
with '0' (a leading zero, or '0' itself); of the others, TooBig exactly for those whose decimal value
exceeds COUNT_MAX = 2^32 - 1, and Ok with that value for the rest. -/
def Obligations.DecimalCountRoundTrip : Prop :=
  (∀ (r : List Symbol) (value : Nat), value = Nat.ofDigits 10 (r.map (· - 0x30)).reverse →
    (parseCount r = .malformed ↔
      r = [] ∨ (∃ c ∈ r, c < 0x30 ∨ 0x39 < c) ∨ r.head? = some 0x30) ∧
    (parseCount r = .tooBig ↔
      r ≠ [] ∧ (∀ c ∈ r, 0x30 ≤ c ∧ c ≤ 0x39) ∧ r.head? ≠ some 0x30 ∧ 2 ^ 32 - 1 < value) ∧
    (∀ v, parseCount r = .ok v ↔
      r ≠ [] ∧ (∀ c ∈ r, 0x30 ≤ c ∧ c ≤ 0x39) ∧ r.head? ≠ some 0x30 ∧ v = value ∧
        value ≤ 2 ^ 32 - 1)) ∧
  (∀ n, 1 ≤ n → n ≤ countMax → parseCount (dec n) = .ok n) ∧
  (∀ r v, parseCount r = .ok v → r = dec v ∧ 1 ≤ v ∧ v ≤ countMax)

/-! ### huffman_encoder: COUNT -/

/-- R108, R109: on a non-empty well-formed text of at most K_MAX distinct symbols COUNT succeeds, FREQ
holds exactly each symbol of the text with its number of occurrences, in ascending order, and nothing
else changes. -/
def Obligations.CountResult : Prop :=
  ∀ (s : State) (syms : List Symbol), syms ≠ [] → AllScalar syms → s.InputIs (utf8 syms) →
    syms.dedup.length ≤ s.params.kMax →
    ∃ f, exec .count s = .next { s with freq := some f }.completeOk ∧ Ascending f ∧
      ∀ c n, (c, n) ∈ f ↔ c ∈ syms ∧ n = syms.count c

/-- R119: after a successful COUNT, SYM_TOTAL is the number of symbols of the text, and FREQ holds
exactly the symbols that occur in it. -/
def Obligations.FrequencyFidelity : Prop :=
  ∀ s t : State, s.FlagsClear → exec .count s = .next t → t.csr.status.done = true →
    ∃ syms f, AllScalar syms ∧ s.InputIs (utf8 syms) ∧ t.freq = some f ∧
      (t.regValue .symTotal).toNat = syms.length ∧ ∀ c, c ∈ keys f ↔ c ∈ syms

/-- R109, R135: COUNT's errors in their order, each with stage 0x10 and FREQ invalid. -/
def Obligations.CountErrorsInOrder : Prop :=
  ∀ (s : State) (t : ErrCode → State),
    (∀ e, t e = { s with freq := none }.completeError e 0x10) →
    (s.params.inCap < s.csr.inLen.toNat → exec .count s = .next (t .capacity)) ∧
    (∀ b, s.InputIs b →
      (utf8Dec b = none → exec .count s = .next (t .invalidText)) ∧
      (utf8Dec b = some [] → exec .count s = .next (t .emptyInput)) ∧
      (∀ syms, utf8Dec b = some syms → s.params.kMax < syms.dedup.length →
        exec .count s = .next (t .capacity)))

/-! ### huffman_tree_builder -/

/-- R85 to R87: BUILD on a FREQ of N >= 1 entries succeeds and writes a tree of N leaves in FREQ's order
and 2N - 1 nodes, each internal node N + k the merge of the two least unmerged nodes with the least one
as its left child, whose root, index 2N - 2, weighs the sum of all counts; on an empty FREQ it
completes with EMPTY_INPUT. Nothing else changes. -/
def Obligations.BuildResult : Prop :=
  ∀ s : State,
    (s.freq = some [] →
      exec .build s = .next ({ s with tree := none }.completeError .emptyInput 0x11)) ∧
    (∀ f, s.freq = some f → f ≠ [] →
      ∃ t, exec .build s = .next { s with tree := some t }.completeOk ∧
        t.leaves = f.length ∧ t.nodes.length = 2 * f.length - 1 ∧
        t.nodes.take f.length = f.map (fun e => Node.leaf e.1 e.2) ∧ t.Merged ∧
        weightAt t.nodes (2 * f.length - 2) = FreqTable.total f)

/-- R84, R85: one merge takes out the two indices of least (weight, sequence number), in that order,
and fails exactly when fewer than two are left. -/
def Obligations.MergeTakesTheTwoLeastKeys : Prop :=
  ∀ (nodes : List Node) (q : List Nat), q.Nodup →
    (takeTwo nodes q = none ↔ q.length < 2) ∧
    (∀ x y q', takeTwo nodes q = some (x, y, q') →
      x ∈ q ∧ y ∈ q ∧ x ≠ y ∧ q'.Perm ((q.erase x).erase y) ∧
      (∀ z ∈ q, z ≠ x → weightAt nodes x < weightAt nodes z ∨
        (weightAt nodes x = weightAt nodes z ∧ x < z)) ∧
      (∀ z ∈ q, z ≠ x → z ≠ y → weightAt nodes y < weightAt nodes z ∨
        (weightAt nodes y = weightAt nodes z ∧ y < z)))

/-- R40, R85, R86: the tree built from any frequency table of R39 that is not empty has the form of R40
over exactly the table's symbols, with one node per index as the child of one other, and every weight
the sum of its children's; and its internal nodes are the merges of R85, in order. -/
def Obligations.BuiltTreeIsHuffmanTree : Prop :=
  ∀ (p : Params) (f : FreqTable), FreqTable.wf p f → f ≠ [] →
    Tree.wf (buildTree f) ∧ (buildTree f).Merged ∧ leafSymbols (buildTree f).nodes = keys f ∧
      (buildTree f).leaves = f.length

/-! ### canonical_code_generator -/

/-- R90, R92: GENCODE on a TREE writes its codes when the longest is within L_MAX, completes with
CAPACITY otherwise, and gives the symbol of a single-leaf tree the code [0]. -/
def Obligations.GencodeResult : Prop :=
  ∀ (s : State) (t : Tree), s.tree = some t →
    (CodeTable.maxLen (genCodes t) ≤ s.params.lMax →
      exec .gencode s = .next { s with codes := some (genCodes t) }.completeOk) ∧
    (s.params.lMax < CodeTable.maxLen (genCodes t) →
      exec .gencode s = .next ({ s with codes := none }.completeError .capacity 0x12)) ∧
    (∀ c w, t.leaves = 1 → t.nodes[0]? = some (Node.leaf c w) → genCodes t = [(c, [false])])

/-- R89 to R91: for every tree of R40 there is one code per leaf, in ascending symbol order, none empty,
and none a prefix of another; with two leaves or more each code is the path of branch bits from the root
to its symbol's leaf, 0 to the left and 1 to the right; the one code of a single leaf is [0]. -/
def Obligations.CodesArePrefixFree : Prop :=
  ∀ t : Tree, Tree.wf t →
    keys (genCodes t) = leafSymbols t.nodes ∧ Ascending (genCodes t) ∧
      (∀ e ∈ genCodes t, e.2 ≠ []) ∧ PrefixFree (genCodes t) ∧
      (2 ≤ t.leaves → ∀ e ∈ genCodes t, t.LeadsTo e.2 e.1) ∧
      (t.leaves = 1 → ∀ e ∈ genCodes t, e.2 = [false])

/-- R91: for a tree of N >= 2 leaves every code is at most N - 1 bits long and the sum of 2^(-length)
over all codes is exactly 1; for N = 1 the one code has length 1. -/
def Obligations.CodesAreComplete : Prop :=
  ∀ t : Tree, Tree.wf t →
    (2 ≤ t.leaves →
      (∀ e ∈ genCodes t, 1 ≤ e.2.length ∧ e.2.length ≤ t.leaves - 1) ∧
      ((genCodes t).map fun e => (1 / 2 : ℚ) ^ e.2.length).sum = 1) ∧
    (t.leaves = 1 → (genCodes t).map (fun e => e.2.length) = [1])

/-- R89, R112: the decoder's walk reads each symbol's code as that symbol, whatever bits follow, and
leaves those bits. What it reads at all are exactly the paths of branch bits from the root to a leaf, 0
to the left and 1 to the right, and for a single leaf the one bit 0. -/
def Obligations.CodesDecodeToTheirSymbols : Prop :=
  ∀ t : Tree, Tree.wf t →
    (∀ e ∈ genCodes t, ∀ x : Bits, walkSymbol t (e.2 ++ x) = some (e.1, x)) ∧
    (∀ (b x : Bits) (c : Symbol),
      (2 ≤ t.leaves →
        (walkSymbol t b = some (c, x) ↔ ∃ path, b = path ++ x ∧ t.LeadsTo path c)) ∧
      (t.leaves = 1 →
        (walkSymbol t b = some (c, x) ↔ b = false :: x ∧ leafSymbols t.nodes = [c])))

/-! ### huffman_encoder: MAP -/

/-- R110, R111: on a well-formed text all of whose symbols have codes, MAP writes the codes joined in
text order when they fit BITS_CAP; the empty text gives the empty BITS. Nothing else changes. -/
def Obligations.MapResult : Prop :=
  ∀ (s : State) (c : CodeTable) (syms : List Symbol) (b : Bits), AllScalar syms →
    s.InputIs (utf8 syms) → s.codes = some c → codesOf c syms = some b →
    b.length ≤ s.params.bitsCap →
    exec .map s = .next { s with bits := some b }.completeOk

/-- R110, R111, R133, R135: MAP's errors in their order; after the text is found well-formed the first
symbol that has no code, or whose code would exceed BITS_CAP, decides. -/
def Obligations.MapErrorsInOrder : Prop :=
  ∀ (s : State) (c : CodeTable) (t : ErrCode → State), s.codes = some c →
    (∀ e, t e = { s with bits := none }.completeError e 0x13) →
    (s.params.inCap < s.csr.inLen.toNat → exec .map s = .next (t .capacity)) ∧
    (∀ b, s.InputIs b →
      (utf8Dec b = none → exec .map s = .next (t .invalidText)) ∧
      (∀ pre k post bs, utf8Dec b = some (pre ++ k :: post) → codesOf c pre = some bs →
        bs.length ≤ s.params.bitsCap →
        (c.lookup k = none → exec .map s = .next (t .noCode)) ∧
        (∀ code, c.lookup k = some code → s.params.bitsCap < (bs ++ code).length →
          exec .map s = .next (t .capacity))))

/-! ### bit_packer and bit_unpacker -/

/-- R93, R96: PACK writes ceil(n/8) bytes with bit 8j + k of BITS at bit 7 - k of byte j and zero bits
after the end, copies them to OUT_MEM, and counts the pad bits; it completes with SEQUENCE when BITS
is invalid and with CAPACITY when the bytes do not fit OUT_CAP. -/
def Obligations.PackResult : Prop :=
  ∀ s : State,
    (s.bits = none →
      exec .pack s = .next ({ s with payload := none }.completeError .sequence 0x14)) ∧
    (∀ b, s.bits = some b →
      (s.params.outCap < (b.length + 7) / 8 →
        exec .pack s = .next ({ s with payload := none }.completeError .capacity 0x14)) ∧
      ((b.length + 7) / 8 ≤ s.params.outCap →
        ∃ P : List Byte,
          exec .pack s = .next { s with
            payload := some P
            outMem := Memory.ofBytes P
            csr := { s.csr with
              outLen := BitVec.ofNat 32 P.length
              padBits := BitVec.ofNat 32 (8 * P.length - b.length) } }.completeOk ∧
          P.length = (b.length + 7) / 8 ∧
          ∀ (j : Fin P.length) (k : Fin 8), P[j].getLsbD (7 - k) = b.getD (8 * j + k) false))

/-- R94, R97: UNPACK writes every bit of every byte, the most significant first; it completes with
SEQUENCE when PAYLOAD is invalid and with CAPACITY when the bits do not fit BITS_CAP, which the
parameter constraints and the bound on PAYLOAD exclude. -/
def Obligations.UnpackResult : Prop :=
  ∀ s : State,
    (s.payload = none →
      exec .unpack s = .next ({ s with bits := none }.completeError .sequence 0x21)) ∧
    (∀ P : List Byte, s.payload = some P →
      (s.params.bitsCap < 8 * P.length →
        exec .unpack s = .next ({ s with bits := none }.completeError .capacity 0x21)) ∧
      (8 * P.length ≤ s.params.bitsCap →
        ∃ b : Bits, exec .unpack s = .next { s with bits := some b }.completeOk ∧
          b.length = 8 * P.length ∧
          ∀ (j : Fin P.length) (k : Fin 8), b[8 * j.val + k.val]? = some (P[j].getLsbD (7 - k))) ∧
      (s.params.wf → P.length ≤ max s.params.inCap (s.params.bitsCap / 8) →
        8 * P.length ≤ s.params.bitsCap))

/-- R95: unpacking what was packed gives the bits back followed by the 0 to 7 zero pad bits, and packing
what was unpacked gives the bytes back. -/
def Obligations.PackUnpackRoundTrip : Prop :=
  (∀ b : Bits, ∃ n, n ≤ 7 ∧ n = 8 * ((b.length + 7) / 8) - b.length ∧
    unpack (pack b) = b ++ List.replicate n false) ∧
  (∀ P : List Byte, pack (unpack P) = P)

/-! ### container_serializer -/

/-- R99 to R102, R105: SERIALIZE completes with UNREPRESENTABLE_SYMBOL when FREQ holds COLON or
NEWLINE, with CAPACITY when the container is longer than OUT_CAP, and otherwise leaves in OUT_MEM the
frequency text, one 0x0A and the payload; nothing else changes. R100: the frequency text is the entries
in the order of the table, which R39 has ascending, each its left-hand side (empty for SPACE, else the
symbol), a COLON and the count in decimal, with one SPACE between two entries. -/
def Obligations.SerializeResult : Prop :=
  (∀ f : FreqTable, freqText f =
    [0x20].intercalate (f.map fun e => (if e.1 = 0x20 then [] else [e.1]) ++ [0x3A] ++ dec e.2)) ∧
  ∀ (s : State) (f : FreqTable) (P : List Byte), s.freq = some f → s.payload = some P →
    ((∃ e ∈ f, e.1 = 0x3A ∨ e.1 = 0x0A) →
      exec .serialize s = .next (s.completeError .unrepresentableSymbol 0x15)) ∧
    ((∀ e ∈ f, e.1 ≠ 0x3A ∧ e.1 ≠ 0x0A) → ∀ B, B = utf8 (freqText f) ++ 0x0A :: P →
      (s.params.outCap < B.length →
        exec .serialize s = .next (s.completeError .capacity 0x15)) ∧
      (B.length ≤ s.params.outCap →
        exec .serialize s = .next { s with
          outMem := Memory.ofBytes B
          csr := { s.csr with outLen := BitVec.ofNat 32 B.length } }.completeOk))

/-- R107: what Serialize returns, Deserialize reads back. -/
def Obligations.ContainerRoundTrip : Prop :=
  ∀ (p : Params) (f : FreqTable) (P B : List Byte), FreqTable.wf p f →
    (∀ e ∈ f, e.1 ≠ 0x3A ∧ e.1 ≠ 0x0A) → serialize p f P = .ok B → deserialize p B = .ok (f, P)

/-- R103, R106: DESERIALIZE accepts the entries of a representable table in any order and writes the
table in ascending order and the payload whole; nothing else changes. -/
def Obligations.DeserializeAcceptsAnyEntryOrder : Prop :=
  ∀ (s : State) (f l : FreqTable) (P : List Byte), FreqTable.wf s.params f →
    (∀ e ∈ f, e.1 ≠ 0x3A ∧ e.1 ≠ 0x0A) → l.Perm f →
    s.InputIs (utf8 (freqText l) ++ 0x0A :: P) →
    exec .deserialize s = .next { s with freq := some f, payload := some P }.completeOk

/-- R104: ParseField, its checks in the order written. -/
def Obligations.ParseFieldResults : Prop :=
  ∀ f : List Symbol,
    (0x3A ∉ f → parseField f = .error .corruptContainer) ∧
    (2 ≤ f.count 0x3A → parseField f = .error .unrepresentableSymbol) ∧
    (∀ L R : List Symbol, f = L ++ 0x3A :: R → 0x3A ∉ L → 0x3A ∉ R →
      (2 ≤ L.length → parseField f = .error .corruptContainer) ∧
      (∀ c, (L = [] ∧ c = 0x20) ∨ L = [c] →
        (parseCount R = .malformed → parseField f = .error .corruptContainer) ∧
        (parseCount R = .tooBig → parseField f = .error .capacity) ∧
        (∀ n, parseCount R = .ok n → parseField f = .ok (c, n))))

/-- R103, R106, R135: DESERIALIZE's errors in their order, each with stage 0x20 and FREQ and PAYLOAD
invalid: IN_LEN, the separator, the UTF-8 of the frequency text, then its fields. The separator is the
first 0x0A; the payload is everything after it. The frequency text is the fields between its SPACEs. They
are taken in text order, so that after a prefix of fields that gives the entries `g` the next one decides
by its own error, then by a symbol that `g` holds, then by K_MAX, then by COUNT_MAX; when none does, the
result is the entries in ascending order. The empty text gives the empty table. -/
def Obligations.DeserializeErrorsInOrder : Prop :=
  (∀ (s : State) (t : ErrCode → State),
    (∀ e, t e = { s with freq := none, payload := none }.completeError e 0x20) →
    (s.params.inCap < s.csr.inLen.toNat → exec .deserialize s = .next (t .capacity)) ∧
    (∀ b, s.InputIs b →
      (0x0A ∉ b → exec .deserialize s = .next (t .corruptContainer)) ∧
      (∀ H P, b = H ++ 0x0A :: P → 0x0A ∉ H →
        (utf8Dec H = none → exec .deserialize s = .next (t .corruptContainer)) ∧
        (∀ syms, utf8Dec H = some syms →
          (∀ e, parseFreqText s.params syms = .error e →
            exec .deserialize s = .next (t e)) ∧
          (∀ f, parseFreqText s.params syms = .ok f →
            exec .deserialize s =
              .next { s with freq := some f, payload := some P }.completeOk))))) ∧
  (∀ p : Params, parseFreqText p [] = .ok []) ∧
  (∀ (p : Params) (pre post : List (List Symbol)) (fd : List Symbol) (g : FreqTable)
      (syms : List Symbol),
    syms ≠ [] → syms = [0x20].intercalate (pre ++ fd :: post) →
    (∀ x ∈ pre ++ fd :: post, 0x20 ∉ x) →
    pre.map parseField = g.map .ok → (keys g).Nodup → g.length ≤ p.kMax →
    FreqTable.total g ≤ countMax →
    (∀ e, parseField fd = .error e → parseFreqText p syms = .error e) ∧
    (∀ c n, parseField fd = .ok (c, n) →
      (c ∈ keys g → parseFreqText p syms = .error .corruptContainer) ∧
      (c ∉ keys g → g.length = p.kMax → parseFreqText p syms = .error .capacity) ∧
      (c ∉ keys g → g.length < p.kMax → countMax < FreqTable.total g + n →
        parseFreqText p syms = .error .capacity) ∧
      (c ∉ keys g → g.length < p.kMax → FreqTable.total g + n ≤ countMax → post = [] →
        ∃ f, parseFreqText p syms = .ok f ∧ Ascending f ∧ f.Perm (g ++ [(c, n)]))))

/-! ### huffman_decoder: WALK -/

/-- R112, R113: for any tree of R40 and any text of exactly as many symbols as its root weighs, WALK on
the text's codes followed by any bits leaves the text in OUT_MEM and the number of those bits in
TRAIL_BITS; nothing else changes. -/
def Obligations.WalkDecodesTheCodes : Prop :=
  ∀ (s : State) (t : Tree) (syms : List Symbol) (b x : Bits), s.tree = some t → Tree.wf t →
    weightAt t.nodes t.root = syms.length → codesOf (genCodes t) syms = some b →
    s.bits = some (b ++ x) → (utf8 syms).length ≤ s.params.outCap →
    exec .walk s = .next { s with
      outMem := Memory.ofBytes (utf8 syms)
      csr := { s.csr with
        outLen := BitVec.ofNat 32 (utf8 syms).length
        trailBits := BitVec.ofNat 32 x.length } }.completeOk

/-- R120: the bits after the last symbol are neither decoded nor checked. -/
def Obligations.WalkIgnoresTrailingBits : Prop :=
  ∀ (p : Params) (t : Tree) (b x : Bits) (out : List Byte) (pos : Nat),
    walkDecode p t b = .ok (out, pos) → walkDecode p t (b ++ x) = .ok (out, pos)

/-- R112, R113, R120: WALK's errors, symbol by symbol. After the codes of some symbols, fewer than the
root's weight, whose UTF-8 fits OUT_CAP: bits that run out inside a code (or where one should begin)
and a 1 bit on a single leaf give CORRUPT_CONTAINER; a code whose symbol does not fit OUT_CAP any more
gives CAPACITY. Fewer bits than the symbol count never decode: the walk ends with an error, never
short. -/
def Obligations.WalkFailsOnTooFewBits : Prop :=
  (∀ (s : State) (t : Tree) (syms : List Symbol) (bs rest : Bits), s.tree = some t → Tree.wf t →
    codesOf (genCodes t) syms = some bs → s.bits = some (bs ++ rest) →
    syms.length < weightAt t.nodes t.root → (utf8 syms).length ≤ s.params.outCap →
    ((∃ e ∈ genCodes t, rest <+: e.2 ∧ rest ≠ e.2) →
      exec .walk s = .next (s.completeError .corruptContainer 0x22)) ∧
    (t.leaves = 1 → rest.head? = some true →
      exec .walk s = .next (s.completeError .corruptContainer 0x22)) ∧
    (∀ e ∈ genCodes t, e.2 <+: rest → s.params.outCap < (utf8 (syms ++ [e.1])).length →
      exec .walk s = .next (s.completeError .capacity 0x22))) ∧
  (∀ (s : State) (t : Tree) (b : Bits), s.tree = some t → Tree.wf t → s.bits = some b →
    b.length < weightAt t.nodes t.root →
    ∃ e, (e = .corruptContainer ∨ e = .capacity) ∧
      exec .walk s = .next (s.completeError e 0x22))

/-! ### ENCODE and DECODE -/

/-- R114, R117 (the part that needs no optimality): on a non-empty well-formed text without COLON and
NEWLINE whose symbols all get a code (they always do), ENCODE succeeds whenever the distinct symbols,
the longest code, the bits and the container fit their capacities, and leaves every store, the
container and PAD_BITS as the six stages give them. -/
def Obligations.EncodeResult : Prop :=
  ∀ (s : State) (syms : List Symbol) (f : FreqTable) (c : CodeTable), syms ≠ [] →
    AllScalar syms → 0x3A ∉ syms → 0x0A ∉ syms → s.InputIs (utf8 syms) →
    syms.dedup.length ≤ s.params.kMax → f = countSymbols syms → c = genCodes (buildTree f) →
    CodeTable.maxLen c ≤ s.params.lMax →
    ∃ b, codesOf c syms = some b ∧
      (b.length ≤ s.params.bitsCap → (containerBytes f (pack b)).length ≤ s.params.outCap →
        exec .encode s = .next { s with
          freq := some f
          tree := some (buildTree f)
          codes := some c
          bits := some b
          payload := some (pack b)
          outMem := Memory.ofBytes (containerBytes f (pack b))
          csr := { s.csr with
            outLen := BitVec.ofNat 32 (containerBytes f (pack b)).length
            padBits := BitVec.ofNat 32 (8 * (pack b).length - b.length) } }.completeOk)

/-- R115: DECODE of a container that parses to a non-empty table, whose payload fits BITS and decodes
within OUT_CAP, succeeds and leaves the text, TRAIL_BITS and the four stores its stages write; CODES is
untouched. -/
def Obligations.DecodeResult : Prop :=
  ∀ (s : State) (B P out : List Byte) (f : FreqTable) (pos : Nat), s.InputIs B →
    deserialize s.params B = .ok (f, P) → f ≠ [] → 8 * P.length ≤ s.params.bitsCap →
    walkDecode s.params (buildTree f) (unpack P) = .ok (out, pos) →
    exec .decode s = .next { s with
      freq := some f
      tree := some (buildTree f)
      bits := some (unpack P)
      payload := some P
      outMem := Memory.ofBytes out
      csr := { s.csr with
        outLen := BitVec.ofNat 32 out.length
        trailBits := BitVec.ofNat 32 (8 * P.length - pos) } }.completeOk

/-- R80, R81, R114, R115: a successful ENCODE leaves exactly the state that its six stage commands leave
when run one after the other, and a successful DECODE that of its four. One that fails leaves exactly
what its stage commands leave when those before the failing one succeed and that one then fails, each
run from cleared flags: the stores of the earlier stages are kept, those of the later stages are as they
were before the command. -/
def Obligations.CodecEqualsItsStageCommands : Prop :=
  (∀ s t : State, s.FlagsClear → exec .encode s = .next t → t.csr.status.done = true →
    ∃ s₁ s₂ s₃ s₄ s₅, exec .count s = .next s₁ ∧ exec .build s₁ = .next s₂ ∧
      exec .gencode s₂ = .next s₃ ∧ exec .map s₃ = .next s₄ ∧ exec .pack s₄ = .next s₅ ∧
      exec .serialize s₅ = .next t) ∧
  (∀ s t : State, s.FlagsClear → exec .decode s = .next t → t.csr.status.done = true →
    ∃ s₁ s₂ s₃, exec .deserialize s = .next s₁ ∧ exec .build s₁ = .next s₂ ∧
      exec .unpack s₂ = .next s₃ ∧ exec .walk s₃ = .next t) ∧
  (∀ (i : Instr) (s t : State), i = .encode ∨ i = .decode → s.FlagsClear → exec i s = .next t →
    t.csr.status.err = true →
    ∃ pre j post u, stagesOf i = pre ++ j :: post ∧ RanInOrder pre s u ∧
      exec j u.flagsCleared = .next t ∧ t.csr.err.stage = j.opcode ∧ outputsInvalid j t ∧
      (∀ k ∈ pre, sameStores k t u) ∧ (∀ k ∈ post, sameStores k t s))

/-- R101, R114, R127: a text that holds COLON or NEWLINE fails at SERIALIZE with UNREPRESENTABLE_SYMBOL
even when every earlier stage succeeds; the five stores stay valid and no output is left. -/
def Obligations.EncodeRejectsColonAndNewline : Prop :=
  ∀ (s : State) (syms : List Symbol) (f : FreqTable) (c : CodeTable) (b : Bits),
    AllScalar syms → (0x3A ∈ syms ∨ 0x0A ∈ syms) → s.InputIs (utf8 syms) →
    syms.dedup.length ≤ s.params.kMax → f = countSymbols syms → c = genCodes (buildTree f) →
    CodeTable.maxLen c ≤ s.params.lMax → codesOf c syms = some b →
    b.length ≤ s.params.bitsCap → (b.length + 7) / 8 ≤ s.params.outCap →
    exec .encode s = .next ({ s with
      freq := some f
      tree := some (buildTree f)
      codes := some c
      bits := some b
      payload := some (pack b)
      csr := { s.csr with
        padBits := BitVec.ofNat 32 (8 * (pack b).length - b.length) } }.completeError
          .unrepresentableSymbol 0x15)

/-- R116: decoding what ENCODE produced gives the text back, with TRAIL_BITS the encode's PAD_BITS. -/
def Obligations.DecodeOfEncodeIsTheText : Prop :=
  ∀ (s t u : State) (syms : List Symbol), s.params.wf → syms ≠ [] → AllScalar syms →
    0x3A ∉ syms → 0x0A ∉ syms → s.InputIs (utf8 syms) → s.FlagsClear →
    exec .encode s = .next t → t.csr.status.done = true →
    u.params = s.params → u.FlagsClear → u.csr.inLen = t.csr.outLen → u.InputIs t.outBytes →
    (utf8 syms).length ≤ s.params.outCap →
    ∃ v, exec .decode u = .next v ∧ v.Succeeded ∧ v.outBytes = utf8 syms ∧
      v.csr.outLen.toNat = (utf8 syms).length ∧ v.csr.trailBits = t.csr.padBits

/-- R83, R118: two ENCODE commands, or two DECODE commands, on the same input give the same completion,
the same ERR and the same output bytes, whatever the states otherwise hold; and when they succeed the
stores they write are the same too. -/
def Obligations.CodecDependsOnTheInputOnly : Prop :=
  ∀ (i : Instr) (s₁ s₂ t₁ t₂ : State), i = .encode ∨ i = .decode → SameInput s₁ s₂ →
    s₁.FlagsClear → s₂.FlagsClear → exec i s₁ = .next t₁ → exec i s₂ = .next t₂ →
    t₁.csr.status.done = t₂.csr.status.done ∧ t₁.csr.status.err = t₂.csr.status.err ∧
      t₁.csr.err = t₂.csr.err ∧ t₁.csr.outLen = t₂.csr.outLen ∧ t₁.outBytes = t₂.outBytes ∧
      (t₁.csr.status.done = true →
        t₁.freq = t₂.freq ∧ t₁.tree = t₂.tree ∧ t₁.bits = t₂.bits ∧ t₁.payload = t₂.payload ∧
        (i = .encode → t₁.codes = t₂.codes ∧ t₁.csr.padBits = t₂.csr.padBits) ∧
        (i = .decode → t₁.csr.trailBits = t₂.csr.trailBits))

/-! ### Control commands -/

/-- R123: QUERY's three results, and that nothing else changes. -/
def Obligations.QueryResult : Prop :=
  ∀ s : State, ∃ qf ql qc : Word,
    exec .query s = .next
      { s with csr := { s.csr with qfreq := qf, qcodeLen := ql, qcode := qc } }.completeOk ∧
    (∀ f n, s.freq = some f → f.lookup s.csr.qsym.toNat = some n → qf = BitVec.ofNat 32 n) ∧
    ((∀ f, s.freq = some f → f.lookup s.csr.qsym.toNat = none) → qf = 0) ∧
    (∀ c b, s.codes = some c → c.lookup s.csr.qsym.toNat = some b →
      ql = BitVec.ofNat 32 b.length ∧
      ∀ i : Fin 32, qc.getLsbD (31 - i) = b.getD (32 * s.csr.qword.toNat + i) false) ∧
    ((∀ c, s.codes = some c → c.lookup s.csr.qsym.toNat = none) → ql = 0 ∧ qc = 0)

/-- R121, R122: NOP changes nothing but the completion; CLEAR invalidates every store and zeroes
OUT_LEN and the result registers, changes nothing else, and leaves every stage command but COUNT and
DESERIALIZE to fail with SEQUENCE. -/
def Obligations.NopAndClearResults : Prop :=
  ∀ s : State,
    exec .nop s = .next { s with
      phase := .idle
      csr := { s.csr with status := { s.csr.status with busy := false, done := true } } } ∧
    ∃ t, exec .clear s = .next t ∧
      t = { s with
        phase := .idle
        freq := none, tree := none, codes := none, bits := none, payload := none
        outMem := []
        csr := { s.csr with
          status := { s.csr.status with busy := false, done := true }
          outLen := 0, padBits := 0, trailBits := 0, qfreq := 0, qcodeLen := 0, qcode := 0 } } ∧
      ∀ i ∈ [Instr.build, .gencode, .map, .pack, .serialize, .unpack, .walk],
        ∃ u, exec i t = .next u ∧ u.csr.err = ⟨.sequence, i.opcode⟩

/-! ### Frames of the commands -/

/-- R49, R70, R122: no command changes IN_MEM, CTRL, CMD, IN_LEN, QSYM, QWORD, DROPPED, the pending word
or the reset input, nor any field of the model's own. -/
def Obligations.CommandsLeaveTheHostsStateAlone : Prop :=
  ∀ (i : Instr) (s t : State), exec i s = .next t →
    t.inMem = s.inMem ∧ (∀ a, t.inByte a = s.inByte a) ∧ t.csr.ctrlIE = s.csr.ctrlIE ∧
      t.csr.cmd = s.csr.cmd ∧ t.csr.inLen = s.csr.inLen ∧ t.csr.qsym = s.csr.qsym ∧
      t.csr.qword = s.csr.qword ∧ t.csr.status.dropped = s.csr.status.dropped ∧
      t.pending = s.pending ∧ t.inReset = s.inReset ∧ t.params = s.params ∧
      t.resets = s.resets ∧ t.draws = s.draws ∧ t.schedule = s.schedule ∧ t.response = s.response

/-- R70: each store changes only under the commands the operand table lists for it. -/
def Obligations.CommandsWriteOnlyTheirStores : Prop :=
  ∀ (i : Instr) (s t : State), exec i s = .next t →
    (i ∉ [Instr.count, .deserialize, .encode, .decode, .clear] → t.freq = s.freq) ∧
    (i ∉ [Instr.build, .encode, .decode, .clear] → t.tree = s.tree) ∧
    (i ∉ [Instr.gencode, .encode, .clear] → t.codes = s.codes) ∧
    (i ∉ [Instr.map, .unpack, .encode, .decode, .clear] → t.bits = s.bits) ∧
    (i ∉ [Instr.pack, .deserialize, .encode, .decode, .clear] → t.payload = s.payload)

/-- R22, R30, R31, R34 to R36, R78: each result register, and every byte of OUT_MEM, changes only under
the commands that write it; under every other command that succeeds every output byte reads as
before, and a command that fails leaves OUT_LEN 0 and no byte defined. -/
def Obligations.CommandsWriteOnlyTheirResults : Prop :=
  ∀ (i : Instr) (s t : State), s.FlagsClear → exec i s = .next t →
    (i ∉ [Instr.pack, .encode, .clear] → t.csr.padBits = s.csr.padBits) ∧
    (i ∉ [Instr.walk, .decode, .clear] → t.csr.trailBits = s.csr.trailBits) ∧
    (i ∉ [Instr.query, .clear] → t.csr.qfreq = s.csr.qfreq ∧ t.csr.qcodeLen = s.csr.qcodeLen ∧
      t.csr.qcode = s.csr.qcode) ∧
    (i ∉ [Instr.pack, .serialize, .walk, .encode, .decode, .clear] → t.csr.status.err = false →
      t.csr.outLen = s.csr.outLen ∧ ∀ a, t.outMem.read? a = s.outMem.read? a) ∧
    (t.csr.status.err = true → t.csr.outLen = 0 ∧ ∀ a d, t.outByte a d = Config.freeByte d)

/-! ### The host interface -/

/-- R53 to R55: inside the block's region, exactly the ill-formed accesses, and every write to the OUT
window, get the error response, and they change no state of the block, in either phase. That the answer
is recorded in `response` (log 3), and that an ill-formed write while BUSY sets no DROPPED (log 22), are
the model's readings. -/
def Obligations.BusErrorsChangeNothing : Prop :=
  ∀ (s : State) (size : Size) (off : Nat) (v : Word), s.params.wf → off < 0x03000000 →
    (illFormed s.params size off →
      hostAccess (.rd size (s.params.base + off)) s = { s with response := .busError }) ∧
    (illFormed s.params size off ∨ 0x02000000 ≤ off →
      hostAccess (.wr size (s.params.base + off) v) s = { s with response := .busError }) ∧
    (¬ illFormed s.params size off →
      (hostAccess (.rd size (s.params.base + off)) s).response ≠ .busError ∧
      (off < 0x02000000 →
        (hostAccess (.wr size (s.params.base + off) v) s).response ≠ .busError))

/-- R15, R37, R47, R56: no read of any address changes anything of the block (only the model's record of the
answer and its count of free values, logs 3 and 4); a CSR, at its offset in R15's map, reads its value, except that while BUSY the
registers R47 makes a draw read a free value (log 4); the reserved space reads 0. -/
def Obligations.ReadsHaveNoSideEffect : Prop :=
  (∀ (s : State) (size : Size) (addr : Nat),
    ∃ r d, hostAccess (.rd size addr) s = { s with response := r, draws := d }) ∧
  (∀ (s : State) (r : Reg), hostAccess (.rd .b4 (s.params.base + r.offset)) s =
    if s.phase = .busy ∧ r ∉ [Reg.id, .ctrl, .cmd, .status, .inLen, .qsym, .qword] then
      { s with response := .data .b4 (Config.freeWord s.draws), draws := s.draws + 1 }
    else { s with response := .data .b4 (s.regValue r) }) ∧
  (∀ (s : State) (off : Nat) (r : Reg),
    (off, r) ∈ [(0x000, Reg.id), (0x004, .ctrl), (0x008, .cmd), (0x00C, .status), (0x010, .err),
      (0x014, .inLen), (0x018, .outLen), (0x01C, .freqN), (0x020, .symTotal), (0x024, .treeNodes),
      (0x028, .maxCodeLen), (0x02C, .bitLen), (0x030, .payloadLen), (0x034, .valid),
      (0x038, .padBits), (0x03C, .trailBits), (0x040, .qsym), (0x044, .qword), (0x048, .qfreq),
      (0x04C, .qcodeLen), (0x050, .qcode)] →
    hostAccess (.rd .b4 (s.params.base + off)) s =
      if s.phase = .busy ∧ r ∉ [Reg.id, .ctrl, .cmd, .status, .inLen, .qsym, .qword] then
        { s with response := .data .b4 (Config.freeWord s.draws), draws := s.draws + 1 }
      else { s with response := .data .b4 (s.regValue r) }) ∧
  (∀ (s : State) (off : Nat), 0x054 ≤ off → off ≤ 0xFFC → off % 4 = 0 →
    hostAccess (.rd .b4 (s.params.base + off)) s = { s with response := .data .b4 0 })

/-- R23 to R28: in every state of the invariant each view reads the size of its store as a number, 0
when the store is invalid: nothing wraps in 32 bits (R7). -/
def Obligations.ViewsShowTheStores : Prop :=
  ∀ s : State, s.Inv →
    (s.regValue .freqN).toNat = (match s.freq with | none => 0 | some f => f.length) ∧
    (s.regValue .symTotal).toNat = (match s.freq with | none => 0 | some f => (f.map (·.2)).sum) ∧
    (s.regValue .treeNodes).toNat = (match s.tree with | none => 0 | some t => t.nodes.length) ∧
    (∀ c, s.codes = some c → (∀ e ∈ c, e.2.length ≤ (s.regValue .maxCodeLen).toNat) ∧
      (c ≠ [] → ∃ e ∈ c, e.2.length = (s.regValue .maxCodeLen).toNat)) ∧
    (s.codes = none → s.regValue .maxCodeLen = 0) ∧
    (s.regValue .bitLen).toNat = (match s.bits with | none => 0 | some b => b.length) ∧
    (s.regValue .payloadLen).toNat = (match s.payload with | none => 0 | some p => p.length)

/-- R16, R17, R19, R20, R29, R32: the registers made of fields, bit by bit, the reserved bits 0; R125: the
number of each error code; R18, R21, R22, R30, R31, R33 to R36: the registers of one field read what they
hold; R45: the interrupt line at every state, and that it is 0 after reset. -/
def Obligations.RegisterBitLayout : Prop :=
  (ErrCode.toByte .none = 0x00 ∧ ErrCode.toByte .emptyInput = 0x01 ∧
    ErrCode.toByte .unrepresentableSymbol = 0x02 ∧ ErrCode.toByte .corruptContainer = 0x03 ∧
    ErrCode.toByte .illegalCommand = 0x04 ∧ ErrCode.toByte .capacity = 0x05 ∧
    ErrCode.toByte .invalidText = 0x06 ∧ ErrCode.toByte .sequence = 0x07 ∧
    ErrCode.toByte .noCode = 0x08) ∧
  (∀ s : State, s.irq = true ↔
    s.csr.ctrlIE = true ∧ (s.csr.status.done = true ∨ s.csr.status.err = true)) ∧
  State.reset.irq = false ∧
  ∀ (s : State) (n : Nat), n < 32 →
    (s.regValue .status).getLsbD n =
      (match n with
        | 0 => s.csr.status.busy | 1 => s.csr.status.done | 2 => s.csr.status.err
        | 3 => s.csr.status.dropped | _ => false) ∧
    (s.regValue .valid).getLsbD n =
      (match n with
        | 0 => s.freq.isSome | 1 => s.tree.isSome | 2 => s.codes.isSome | 3 => s.bits.isSome
        | 4 => s.payload.isSome | _ => false) ∧
    (s.regValue .ctrl).getLsbD n = (decide (n = 0) && s.csr.ctrlIE) ∧
    (s.regValue .err).getLsbD n =
      (if n < 8 then s.csr.err.code.toByte.getLsbD n
       else if n < 16 then s.csr.err.stage.getLsbD (n - 8) else false) ∧
    (s.regValue .qsym).getLsbD n = (decide (n < 21) && s.csr.qsym.getLsbD n) ∧
    s.regValue .id = 0x48554631 ∧
    s.regValue .cmd = s.csr.cmd ∧ s.regValue .inLen = s.csr.inLen ∧
    s.regValue .outLen = s.csr.outLen ∧ s.regValue .padBits = s.csr.padBits ∧
    s.regValue .trailBits = s.csr.trailBits ∧ s.regValue .qword = s.csr.qword ∧
    s.regValue .qfreq = s.csr.qfreq ∧ s.regValue .qcodeLen = s.csr.qcodeLen ∧
    s.regValue .qcode = s.csr.qcode

/-- R17, R19, R21, R32, R33, R37: what a CSR write stores: CTRL.IE and the write-one-to-clear bits in
either phase, IN_LEN, QSYM.SYM and QWORD in IDLE; every read-only register, view and reserved offset
ignores it in either phase without setting DROPPED. That every such write is answered alike is the
model's reading (logs 3 and 18). -/
def Obligations.CsrWritesStoreWhatTheSpecSays : Prop :=
  ∀ (s : State) (w : Word),
    hostAccess (.wr .b4 (s.params.base + 0x004) w) s =
      { s with csr := { s.csr with ctrlIE := w.getLsbD 0 }, response := .written } ∧
    hostAccess (.wr .b4 (s.params.base + 0x00C) w) s =
      { s with
        csr := { s.csr with
          status := {
            busy := s.csr.status.busy
            done := if w.getLsbD 1 then false else s.csr.status.done
            err := if w.getLsbD 2 then false else s.csr.status.err
            dropped := if w.getLsbD 3 then false else s.csr.status.dropped } }
        response := .written } ∧
    (s.phase = .idle →
      hostAccess (.wr .b4 (s.params.base + 0x014) w) s =
        { s with csr := { s.csr with inLen := w }, response := .written } ∧
      hostAccess (.wr .b4 (s.params.base + 0x040) w) s =
        { s with csr := { s.csr with qsym := w.setWidth 21 }, response := .written } ∧
      hostAccess (.wr .b4 (s.params.base + 0x044) w) s =
        { s with csr := { s.csr with qword := w }, response := .written }) ∧
    (∀ off, off ≤ 0xFFC → off % 4 = 0 →
      off ∉ [0x004, 0x008, 0x00C, 0x014, 0x040, 0x044] →
      hostAccess (.wr .b4 (s.params.base + off) w) s = { s with response := .written })

/-- R60: while BUSY a write to CMD, IN_LEN, QSYM, QWORD or a byte of the IN window changes nothing but
DROPPED; CTRL and STATUS are written all the same; the reserved space ignores writes and sets nothing,
in either phase. The bus's answer is left open. -/
def Obligations.WritesWhileBusyAreDropped : Prop :=
  ∀ (s : State) (w : Word), s.params.wf →
    (s.phase = .busy →
      (∀ off, off ∈ [0x008, 0x014, 0x040, 0x044] → ∃ answer,
        hostAccess (.wr .b4 (s.params.base + off) w) s =
          { s with
            csr := { s.csr with status := { s.csr.status with dropped := true } }
            response := answer }) ∧
      (∀ (size : Size) (k : Nat), k % size.bytes = 0 → k + size.bytes ≤ s.params.inCap →
        ∃ answer, hostAccess (.wr size (s.params.base + (0x01000000 + k)) w) s =
          { s with
            csr := { s.csr with status := { s.csr.status with dropped := true } }
            response := answer })) ∧
    (∃ answer, hostAccess (.wr .b4 (s.params.base + 0x004) w) s =
      { s with csr := { s.csr with ctrlIE := w.getLsbD 0 }, response := answer }) ∧
    (∃ answer, hostAccess (.wr .b4 (s.params.base + 0x00C) w) s =
      { s with csr := { s.csr with status := s.csr.status.clearOnes w }, response := answer }) ∧
    (∀ off, 0x054 ≤ off → off ≤ 0xFFC → off % 4 = 0 →
      ∃ answer, hostAccess (.wr .b4 (s.params.base + off) w) s = { s with response := answer })

/-- R49, R51: in IDLE an aligned write inside the IN window stores its bytes, the least significant at
the lowest index, and leaves every other byte of IN_MEM and the rest of the block alone; a read of the
same width there then returns them. R49, R61: in either phase an aligned read inside the IN window puts
the current byte at index j of the window's access at bits 8j+7:8j, and changes nothing but the record
of the answer. That a narrow write takes the low bits of its value (log 16), that a
narrow read's data is 0 above its width (log 17), and the record of the answer (log 3) are the model's. -/
def Obligations.InWindowWriteThenRead : Prop :=
  (∀ (s : State) (size : Size) (k : Nat), s.params.wf → k % size.bytes = 0 →
    k + size.bytes ≤ s.params.inCap →
    ∃ w : Word,
      hostAccess (.rd size (s.params.base + (0x01000000 + k))) s =
        { s with response := .data size w } ∧
      (∀ j, j < size.bytes → w.extractLsb' (8 * j) 8 = s.inByte (k + j)) ∧
      (∀ j, size.bytes ≤ j → j < 4 → w.extractLsb' (8 * j) 8 = 0)) ∧
  ∀ (s : State) (size : Size) (k : Nat) (v : Word), s.params.wf → s.phase = .idle →
    k % size.bytes = 0 → k + size.bytes ≤ s.params.inCap →
    ∃ t, hostAccess (.wr size (s.params.base + (0x01000000 + k)) v) s = t ∧
      t = { s with inMem := t.inMem, response := .written } ∧
      (∀ j, j < size.bytes → t.inByte (k + j) = v.extractLsb' (8 * j) 8) ∧
      (∀ a, a < k ∨ k + size.bytes ≤ a → t.inByte a = s.inByte a) ∧
      (hostAccess (.rd size (s.params.base + (0x01000000 + k))) t).response =
        .data size (BitVec.ofNat 32 (v.toNat % 2 ^ (8 * size.bytes)))

/-- R50, R51, R61, R148: a read of the OUT window puts byte j of the window at bits 8j+7:8j; in IDLE a
byte below OUT_LEN is the byte last written there; at and above OUT_LEN, and always while BUSY, it is
a free value of that read's own (log 4). That the data is 0 above the access width (log 17) and recorded
in `response` (log 3) is the model's choice. -/
def Obligations.OutWindowReads : Prop :=
  ∀ (s : State) (size : Size) (k : Nat), s.params.wf → k % size.bytes = 0 →
    k + size.bytes ≤ s.params.outCap →
    ∃ w : Word,
      hostAccess (.rd size (s.params.base + (0x02000000 + k))) s =
        { s with response := .data size w, draws := s.draws + size.bytes } ∧
      (∀ j, size.bytes ≤ j → j < 4 → w.extractLsb' (8 * j) 8 = 0) ∧
      (∀ j, j < size.bytes →
        (s.phase = .busy ∨ s.csr.outLen.toNat ≤ k + j →
          w.extractLsb' (8 * j) 8 = Config.freeByte (s.draws + j)) ∧
        (∀ b, s.phase = .idle → k + j < s.csr.outLen.toNat → s.outMem.read? (k + j) = some b →
          w.extractLsb' (8 * j) 8 = b))

/-! ### Invariants -/

/-- The state after reset meets the invariant (R143 with R6, R14, R19, R22 and R39 to R44). -/
def Obligations.ResetMeetsTheInvariant : Prop := State.reset.Inv

/-- R14, R18 to R20: every step, of whichever agent, keeps the sequencer's invariant: CMD is the pending
word, BUSY is the phase, DONE and ERR are never both 1, and ERR names an error exactly as they say. -/
def Obligations.StepKeepsSequencerInvariant : Prop :=
  ∀ s t : State, s.SequencerInv → step s = .next t → t.SequencerInv

/-- R22, R30, R44: every step keeps both memories in canonical form and inside their capacities, OUT_MEM
exactly as long as OUT_LEN says, and PAD_BITS in 0..7; and no step changes the parameters. -/
def Obligations.StepKeepsMemoryInvariant : Prop :=
  ∀ s t : State, s.params.wf → s.MemoryInv → step s = .next t →
    t.MemoryInv ∧ t.params = s.params

/-- R39 to R43: every step keeps every valid store in the form the spec gives it: FREQ a frequency
table, TREE a Huffman tree, CODES a code table, BITS and PAYLOAD within their bounds. -/
def Obligations.StepKeepsStoreInvariant : Prop :=
  ∀ s t : State, s.params.wf → s.StoreInv → step s = .next t → t.StoreInv
end

