-- ==== Sys2Proof/Laws/Bus.lean ====
section
/-! SUPPORT. Where host accesses land, the CSR map, and the byte order of the bus. -/

namespace Sys2Proof.Machine

/-- The register at its own offset: no two registers share one. -/
@[simp] theorem regAt_offset (r : Reg) : regAt r.offset = some r := by cases r <;> rfl

/-- Every register's offset is a word-aligned offset of the CSR window. -/
theorem Reg.offset_lt (r : Reg) : r.offset < 0x54 ∧ r.offset % 4 = 0 := by cases r <;> decide

/-- The offset found is the one asked for. -/
theorem offset_of_regAt {k : Nat} {r : Reg} (h : regAt k = some r) : r.offset = k := by
  simpa using List.find?_some h

/-- The reserved space holds no register (R37). -/
theorem regAt_reserved {k : Nat} (h : 0x54 ≤ k) : regAt k = none := by
  refine List.find?_eq_none.2 fun r _ => ?_
  have := (Reg.offset_lt r).1
  simp only [beq_iff_eq]
  omega

/-- An access inside the region is placed by its offset. -/
theorem locate_add (p : Params) (size : Size) {off : Nat} (h : off < regionSize) :
    locate p size (p.base + off) = locateOffset p size off := by
  unfold locate
  rw [if_neg (by omega), Nat.add_sub_cancel_left]

/-- An aligned 32-bit access in the CSR window reaches its offset. -/
theorem locate_csr (p : Params) {k : Nat} (hk : k < 0x1000) (ha : k % 4 = 0) :
    locate p .b4 (p.base + k) = .csr k := by
  rw [locate_add _ _ (by unfold regionSize; omega)]
  unfold locateOffset
  rw [if_pos hk, if_pos ⟨rfl, ha⟩]

/-- An aligned access wholly inside the IN window reaches IN_MEM. -/
theorem locate_inMem (p : Params) {size : Size} {k : Nat} (hp : p.inCap ≤ 2 ^ 24)
    (hk : k + size.bytes ≤ p.inCap) (ha : k % size.bytes = 0) :
    locate p size (p.base + (inWindow + k)) = .inMem k := by
  have hs : 0 < size.bytes := by cases size <;> decide
  rw [locate_add _ _ (by unfold regionSize inWindow; omega)]
  unfold locateOffset
  rw [if_neg (by unfold inWindow; omega), if_pos (by omega), Nat.add_sub_cancel_left,
    if_pos (by simp [fitsWindow, ha, hk])]

/-- An aligned access wholly inside the OUT window reaches OUT_MEM. -/
theorem locate_outMem (p : Params) {size : Size} {k : Nat} (hi : p.inCap ≤ 2 ^ 24)
    (ho : p.outCap ≤ 2 ^ 24) (hk : k + size.bytes ≤ p.outCap) (ha : k % size.bytes = 0) :
    locate p size (p.base + (outWindow + k)) = .outMem k := by
  have hs : 0 < size.bytes := by cases size <;> decide
  rw [locate_add _ _ (by unfold regionSize outWindow; omega)]
  unfold locateOffset
  rw [if_neg (by unfold outWindow; omega), if_neg (by unfold outWindow inWindow; omega),
    if_pos (by omega), Nat.add_sub_cancel_left, if_pos (by simp [fitsWindow, ha, hk])]

/-- What an access that reaches IN_MEM satisfies (R54). -/
theorem locate_inMem_fits {p : Params} {size : Size} {addr k : Nat}
    (h : locate p size addr = .inMem k) : k % size.bytes = 0 ∧ k + size.bytes ≤ p.inCap := by
  unfold locate locateOffset at h
  split_ifs at h with _ _ _ _ hf
  injection h with h
  subst h
  simpa [fitsWindow] using hf

/-- An aligned 32-bit read in the CSR window is a CSR read. -/
theorem hostAccess_rd_csr (s : State) {off : Nat} (h : off < 0x1000) (ha : off % 4 = 0) :
    hostAccess (.rd .b4 (s.params.base + off)) s = s.readCsr off := by
  simp only [hostAccess, locate_csr s.params h ha]

/-- An aligned 32-bit write in the CSR window is a CSR write. -/
theorem hostAccess_wr_csr (s : State) (v : Word) {off : Nat} (h : off < 0x1000)
    (ha : off % 4 = 0) :
    hostAccess (.wr .b4 (s.params.base + off) v) s = (s.writeCsr off v).respond .written := by
  simp only [hostAccess, locate_csr s.params h ha]

/-- What a write does to each register (R15): six of them take it, the rest ignore it. -/
theorem State.writeCsr_offset (s : State) (w : Word) (r : Reg) :
    s.writeCsr r.offset w =
      match r with
      | .cmd => s.unlessBusy (s.accept w)
      | .ctrl => { s with csr := { s.csr with ctrlIE := w.getLsbD 0 } }
      | .status => { s with csr := { s.csr with status := s.csr.status.clearOnes w } }
      | .inLen => s.unlessBusy { s with csr := { s.csr with inLen := w } }
      | .qsym => s.unlessBusy { s with csr := { s.csr with qsym := w.setWidth 21 } }
      | .qword => s.unlessBusy { s with csr := { s.csr with qword := w } }
      | _ => s := by
  cases r <;> rfl

/-- The reserved space ignores a write (R37). -/
theorem State.writeCsr_reserved (s : State) (w : Word) {off : Nat} (h : 0x54 ≤ off) :
    s.writeCsr off w = s := by
  simp only [State.writeCsr, regAt_reserved h]

theorem littleEndian_lt (bs : List Byte) : littleEndian bs < 256 ^ bs.length := by
  induction bs with
  | nil => simp [littleEndian]
  | cons b bs ih =>
    have hb := b.isLt
    simp only [littleEndian, List.length_cons, pow_succ]
    omega

@[simp] theorem length_busBytes (n : Nat) (v : Word) : (busBytes n v).length = n := by
  simp [busBytes]

end Sys2Proof.Machine
end

