-- ==== Sys2Proof/Laws/Claims.lean ====
section
/-! SUPPORT. The notions claims are stated in: paths from a node, commands run in order, cleared flags. -/

namespace Sys2Proof.Machine

@[simp] theorem follow_nil (nodes : List Node) (i : Nat) : follow nodes i [] = some i := rfl

theorem follow_cons_internal {nodes : List Node} {i l r w : Nat}
    (h : nodes[i]? = some (.internal l r w)) (b : Bool) (bs : Bits) :
    follow nodes i (b :: bs) = follow nodes (if b then r else l) bs := by
  simp only [follow, h]

theorem follow_cons_leaf {nodes : List Node} {i w : Nat} {c : Symbol}
    (h : nodes[i]? = some (.leaf c w)) (b : Bool) (bs : Bits) : follow nodes i (b :: bs) = none := by
  rw [follow, h]

/-- A path followed by a path is a path. -/
theorem follow_append (nodes : List Node) (i : Nat) (p q : Bits) :
    follow nodes i (p ++ q) = (follow nodes i p).bind fun j => follow nodes j q := by
  induction p generalizing i with
  | nil => rfl
  | cons b p ih =>
    simp only [List.cons_append, follow]
    split
    · exact ih _
    · rfl

@[simp] theorem ranInOrder_nil (s t : State) : RanInOrder [] s t ↔ t = s := Iff.rfl

/-- Running two lists of commands after each other. -/
theorem ranInOrder_append (is js : List Instr) (s t : State) :
    RanInOrder (is ++ js) s t ↔ ∃ u, RanInOrder is s u ∧ RanInOrder js u t := by
  induction is generalizing s with
  | nil => simp
  | cons i is ih =>
    simp only [List.cons_append, RanInOrder, ih]
    constructor
    · rintro ⟨v, h, hv, u, hu, ht⟩
      exact ⟨u, ⟨v, h, hv, hu⟩, ht⟩
    · rintro ⟨u, ⟨v, h, hv, hu⟩, ht⟩
      exact ⟨v, h, hv, u, hu, ht⟩

theorem State.flagsCleared_flagsClear (s : State) : s.flagsCleared.FlagsClear := ⟨rfl, rfl, rfl⟩

/-- Clearing cleared flags changes nothing. -/
theorem State.flagsCleared_eq {s : State} (h : s.FlagsClear) : s.flagsCleared = s := by
  rcases s with ⟨_, _, ⟨_, _, ⟨_, _, _, _⟩, _, _, _, _, _, _, _, _, _, _⟩⟩
  obtain ⟨rfl, rfl, rfl⟩ := h
  rfl

/-- Clearing the flags touches no store. -/
theorem State.flagsCleared_sameStores (i : Instr) (s : State) : sameStores i s.flagsCleared s := by
  cases i <;> simp [sameStores, State.flagsCleared]

theorem sameStores_refl (i : Instr) (s : State) : sameStores i s s := by
  cases i <;> simp [sameStores]

theorem sameStores_trans {i : Instr} {s t u : State} (h : sameStores i s t) (k : sameStores i t u) :
    sameStores i s u := by
  cases i <;> simp_all [sameStores]

end Sys2Proof.Machine
end

