-- ==== Sys2Proof/Laws/Config.lean ====
section
/-! SUPPORT. The parameters of the machine at reset meet the constraints of R6, whatever the free
numbers they are made from are. -/

namespace Sys2Proof.Config

theorem inCap_bounds : 1 ≤ inCap ∧ inCap ≤ 2 ^ 24 := by
  have := Nat.mod_lt freeInCap (show 0 < 2 ^ 24 by norm_num)
  unfold inCap
  omega

theorem params_wf : params.wf := by
  obtain ⟨h1, h2⟩ := inCap_bounds
  have h3 := Nat.mod_lt freeOutCap (show 0 < 2 ^ 24 by norm_num)
  have h4 := Nat.mod_lt freeKMax (show 0 < 1112064 by norm_num)
  have h5 := Nat.mod_lt freeBitsCap (show 0 < 2 ^ 29 - inCap by omega)
  have h6 := Nat.mod_lt freeLMax (show 0 < 2 ^ 32 - 1 by norm_num)
  simp only [Params.wf, params]
  omega

end Sys2Proof.Config
end

