-- ==== Sys2Proof/Laws/Memory.lean ====
section
/-! SUPPORT. The byte memories: every operation keeps the canonical form, and what a read gives after
a write. -/

namespace Sys2Proof.Machine

@[simp] theorem Memory.read?_nil (k : Nat) : Memory.read? [] k = none := rfl

theorem Memory.read?_cons (a : Nat) (b : Byte) (m : Memory) (k : Nat) :
    Memory.read? ((a, b) :: m) k = if a = k then some b else Memory.read? m k := rfl

/-- A read of the address just written gives the byte written. -/
theorem Memory.read?_write_self (m : Memory) (k : Nat) (v : Byte) :
    Memory.read? (Memory.write m k v) k = some v := by
  induction m with
  | nil => simp [Memory.write, Memory.read?]
  | cons c m ih =>
    obtain ⟨a, b⟩ := c
    unfold Memory.write
    split_ifs with h1 h2
    · simp [Memory.read?]
    · simp [Memory.read?]
    · rw [Memory.read?_cons, if_neg (by omega), ih]

/-- A write leaves every other address alone. -/
theorem Memory.read?_write_ne (m : Memory) {k j : Nat} (v : Byte) (h : j ≠ k) :
    Memory.read? (Memory.write m k v) j = Memory.read? m j := by
  induction m with
  | nil => simp [Memory.write, Memory.read?, Ne.symm h]
  | cons c m ih =>
    obtain ⟨a, b⟩ := c
    unfold Memory.write
    split_ifs with h1 h2
    · rw [Memory.read?_cons, if_neg (Ne.symm h)]
    · subst h2
      rw [Memory.read?_cons, Memory.read?_cons, if_neg (Ne.symm h), if_neg (Ne.symm h)]
    · rw [Memory.read?_cons, Memory.read?_cons, ih]

/-- An address of a memory after a write is an old one or the one written. -/
theorem Memory.mem_write {m : Memory} {k : Nat} {v : Byte} {c : Host.Cell}
    (h : c ∈ Memory.write m k v) : c = (k, v) ∨ c ∈ m := by
  induction m with
  | nil => simpa [Memory.write] using h
  | cons d m ih =>
    obtain ⟨a, b⟩ := d
    unfold Memory.write at h
    split_ifs at h with h1 h2
    · simpa using h
    · rcases List.mem_cons.1 h with rfl | h'
      · exact .inl rfl
      · exact .inr (List.mem_cons_of_mem _ h')
    · rcases List.mem_cons.1 h with rfl | h'
      · exact .inr (List.mem_cons_self ..)
      · exact (ih h').imp id (List.mem_cons_of_mem _)

/-- A write keeps the canonical form. -/
theorem Memory.write_wf {m : Memory} (h : m.wf) (k : Nat) (v : Byte) : (Memory.write m k v).wf := by
  induction m with
  | nil => simp [Memory.write]
  | cons d m ih =>
    obtain ⟨a, b⟩ := d
    obtain ⟨hd, ht⟩ := List.pairwise_cons.1 h
    unfold Memory.write
    split_ifs with h1 h2
    · exact List.pairwise_cons.2 ⟨fun x hx => by
        rcases List.mem_cons.1 hx with rfl | hx
        · exact h1
        · exact lt_trans h1 (hd x hx), h⟩
    · exact List.pairwise_cons.2 ⟨fun x hx => by simpa [h2] using hd x hx, ht⟩
    · exact List.pairwise_cons.2 ⟨fun x hx => by
        rcases Memory.mem_write hx with rfl | hx
        · exact lt_of_le_of_ne (Nat.le_of_not_lt h1) (Ne.symm h2)
        · exact hd x hx, ih ht⟩

theorem Memory.writeBytes_wf {m : Memory} (h : m.wf) (k : Nat) (bs : List Byte) :
    (Memory.writeBytes m k bs).wf := by
  induction bs generalizing m k with
  | nil => exact h
  | cons v vs ih => exact ih (Memory.write_wf h k v) (k + 1)

theorem Memory.mem_writeBytes {m : Memory} {k : Nat} {bs : List Byte} {c : Host.Cell}
    (h : c ∈ Memory.writeBytes m k bs) : (k ≤ c.1 ∧ c.1 < k + bs.length) ∨ c ∈ m := by
  induction bs generalizing m k with
  | nil => exact .inr h
  | cons v vs ih =>
    rcases ih h with ⟨h1, h2⟩ | h'
    · exact .inl ⟨by omega, by simp only [List.length_cons]; omega⟩
    · rcases Memory.mem_write h' with rfl | h''
      · exact .inl ⟨le_refl _, by simp⟩
      · exact .inr h''

/-- Outside the bytes written a read gives what it gave before. -/
theorem Memory.read?_writeBytes_outside (m : Memory) (k : Nat) (bs : List Byte) {j : Nat}
    (h : j < k ∨ k + bs.length ≤ j) :
    Memory.read? (Memory.writeBytes m k bs) j = Memory.read? m j := by
  induction bs generalizing m k with
  | nil => rfl
  | cons v vs ih =>
    simp only [List.length_cons] at h
    rw [Memory.writeBytes, ih _ _ (by omega), Memory.read?_write_ne _ _ (by omega)]

/-- Inside the bytes written a read gives the byte written there. -/
theorem Memory.read?_writeBytes_inside (m : Memory) (k : Nat) (bs : List Byte) {j : Nat}
    (h : j < bs.length) : Memory.read? (Memory.writeBytes m k bs) (k + j) = some bs[j] := by
  induction bs generalizing m k j with
  | nil => simp at h
  | cons v vs ih =>
    cases j with
    | zero =>
      rw [Memory.writeBytes, Memory.read?_writeBytes_outside _ _ _ (by omega)]
      simpa using Memory.read?_write_self m k v
    | succ j =>
      rw [Memory.writeBytes, show k + (j + 1) = k + 1 + j by omega]
      simpa using ih (Memory.write m k v) (k + 1) (by simpa using h)

/-! ### Memories made from a byte sequence -/

theorem Memory.map_fst_ofBytesFrom (k : Nat) (bs : List Byte) :
    (Memory.ofBytesFrom k bs).map (·.1) = List.range' k bs.length := by
  induction bs generalizing k with
  | nil => rfl
  | cons b bs ih => simp [Memory.ofBytesFrom, ih, List.range'_succ]

theorem Memory.ofBytesFrom_wf (k : Nat) (bs : List Byte) : (Memory.ofBytesFrom k bs).wf := by
  have h : ((Memory.ofBytesFrom k bs).map (·.1)).Pairwise (· < ·) := by
    rw [Memory.map_fst_ofBytesFrom]; exact List.pairwise_lt_range' ..
  exact List.pairwise_map.1 h

theorem Memory.ofBytes_wf (bs : List Byte) : (Memory.ofBytes bs).wf := Memory.ofBytesFrom_wf 0 bs

theorem Memory.map_fst_ofBytes (bs : List Byte) :
    (Memory.ofBytes bs).map (·.1) = List.range bs.length := by
  rw [Memory.ofBytes, Memory.map_fst_ofBytesFrom, List.range_eq_range']

theorem Memory.read?_ofBytesFrom (k : Nat) (bs : List Byte) {j : Nat} (h : j < bs.length) :
    Memory.read? (Memory.ofBytesFrom k bs) (k + j) = some bs[j] := by
  induction bs generalizing k j with
  | nil => simp at h
  | cons b bs ih =>
    cases j with
    | zero => simp [Memory.ofBytesFrom, Memory.read?]
    | succ j =>
      rw [Memory.ofBytesFrom, Memory.read?_cons, if_neg (by omega),
        show k + (j + 1) = k + 1 + j by omega]
      simpa using ih (k + 1) (by simpa using h)

/-- The byte at an index below the length of the sequence it was made from. -/
theorem Memory.read?_ofBytes (bs : List Byte) {j : Nat} (h : j < bs.length) :
    Memory.read? (Memory.ofBytes bs) j = some bs[j] := by
  simpa [Memory.ofBytes] using Memory.read?_ofBytesFrom 0 bs h

@[simp] theorem Memory.bytes_ofBytes (bs : List Byte) : (Memory.ofBytes bs).bytes = bs := by
  suffices h : ∀ k, (Memory.ofBytesFrom k bs).bytes = bs from h 0
  induction bs with
  | nil => intro k; rfl
  | cons b bs ih =>
    intro k
    have h := ih (k + 1)
    simp only [Memory.bytes] at h
    simp [Memory.ofBytesFrom, Memory.bytes, h]

/-- The memory of the machine at reset is in canonical form. -/
theorem State.reset_inMem_wf : State.reset.inMem.wf := List.Pairwise.nil

/-- The output memory of the machine at reset is in canonical form. -/
theorem State.reset_outMem_wf : State.reset.outMem.wf := List.Pairwise.nil

@[simp] theorem State.length_memReadIn (s : State) (a n : Nat) : (s.memReadIn a n).length = n := by
  simp [State.memReadIn]

@[simp] theorem State.getElem_memReadIn (s : State) (a n k : Nat) (h : k < (s.memReadIn a n).length) :
    (s.memReadIn a n)[k] = s.inByte (a + k) := by
  simp [State.memReadIn]

end Sys2Proof.Machine
end

