-- ==== Sys2Proof/Laws/PerInstr.lean ====
section
/-! SUPPORT. One fact about every command as syntax: its word is legal by R67, and the decoder that is
asked for a table row answers with it. -/

namespace Sys2Proof.Laws.LegalWord

/-- The command's word has RSVD 0 and an OP outside R67's gaps, and it decodes to the command. -/
def Statement (i : Instr) : Prop :=
  i.wellFormed = true ∧ legalWord (encode i) = true ∧
    decodeTableWord 32 (encode i).toNat = some i

theorem nop : Statement .nop := ⟨by decide, by decide, by decide⟩
theorem encode : Statement .encode := ⟨by decide, by decide, by decide⟩
theorem decode : Statement .decode := ⟨by decide, by decide, by decide⟩
theorem count : Statement .count := ⟨by decide, by decide, by decide⟩
theorem build : Statement .build := ⟨by decide, by decide, by decide⟩
theorem gencode : Statement .gencode := ⟨by decide, by decide, by decide⟩
theorem map : Statement .map := ⟨by decide, by decide, by decide⟩
theorem pack : Statement .pack := ⟨by decide, by decide, by decide⟩
theorem serialize : Statement .serialize := ⟨by decide, by decide, by decide⟩
theorem deserialize : Statement .deserialize := ⟨by decide, by decide, by decide⟩
theorem unpack : Statement .unpack := ⟨by decide, by decide, by decide⟩
theorem walk : Statement .walk := ⟨by decide, by decide, by decide⟩
theorem query : Statement .query := ⟨by decide, by decide, by decide⟩
theorem clear : Statement .clear := ⟨by decide, by decide, by decide⟩

end Sys2Proof.Laws.LegalWord
end

