-- ==== Sys2Proof/Laws/State.lean ====
section
/-! SUPPORT. What each update of the state does to each field, once, so that no proof unfolds a record
update. -/

namespace Sys2Proof.Machine

/-! ### accept -/

@[simp] theorem State.accept_phase (s : State) (w : Word) :
    (s.accept w).phase = .busy := rfl
@[simp] theorem State.accept_pending (s : State) (w : Word) :
    (s.accept w).pending = w := rfl
@[simp] theorem State.accept_csr (s : State) (w : Word) :
    (s.accept w).csr = { s.csr with cmd := w, status := s.csr.status.accepted, err := ⟨.none, 0⟩ } := rfl
@[simp] theorem State.accept_freq (s : State) (w : Word) :
    (s.accept w).freq = s.freq := rfl
@[simp] theorem State.accept_tree (s : State) (w : Word) :
    (s.accept w).tree = s.tree := rfl
@[simp] theorem State.accept_codes (s : State) (w : Word) :
    (s.accept w).codes = s.codes := rfl
@[simp] theorem State.accept_bits (s : State) (w : Word) :
    (s.accept w).bits = s.bits := rfl
@[simp] theorem State.accept_payload (s : State) (w : Word) :
    (s.accept w).payload = s.payload := rfl
@[simp] theorem State.accept_inMem (s : State) (w : Word) :
    (s.accept w).inMem = s.inMem := rfl
@[simp] theorem State.accept_outMem (s : State) (w : Word) :
    (s.accept w).outMem = s.outMem := rfl
@[simp] theorem State.accept_inReset (s : State) (w : Word) :
    (s.accept w).inReset = s.inReset := rfl
@[simp] theorem State.accept_params (s : State) (w : Word) :
    (s.accept w).params = s.params := rfl
@[simp] theorem State.accept_resets (s : State) (w : Word) :
    (s.accept w).resets = s.resets := rfl
@[simp] theorem State.accept_draws (s : State) (w : Word) :
    (s.accept w).draws = s.draws := rfl
@[simp] theorem State.accept_schedule (s : State) (w : Word) :
    (s.accept w).schedule = s.schedule := rfl
@[simp] theorem State.accept_response (s : State) (w : Word) :
    (s.accept w).response = s.response := rfl

/-! ### dropOutput -/

@[simp] theorem State.dropOutput_phase (s : State) :
    (s.dropOutput).phase = s.phase := rfl
@[simp] theorem State.dropOutput_pending (s : State) :
    (s.dropOutput).pending = s.pending := rfl
@[simp] theorem State.dropOutput_csr (s : State) :
    (s.dropOutput).csr = { s.csr with outLen := 0 } := rfl
@[simp] theorem State.dropOutput_freq (s : State) :
    (s.dropOutput).freq = s.freq := rfl
@[simp] theorem State.dropOutput_tree (s : State) :
    (s.dropOutput).tree = s.tree := rfl
@[simp] theorem State.dropOutput_codes (s : State) :
    (s.dropOutput).codes = s.codes := rfl
@[simp] theorem State.dropOutput_bits (s : State) :
    (s.dropOutput).bits = s.bits := rfl
@[simp] theorem State.dropOutput_payload (s : State) :
    (s.dropOutput).payload = s.payload := rfl
@[simp] theorem State.dropOutput_inMem (s : State) :
    (s.dropOutput).inMem = s.inMem := rfl
@[simp] theorem State.dropOutput_outMem (s : State) :
    (s.dropOutput).outMem = [] := rfl
@[simp] theorem State.dropOutput_inReset (s : State) :
    (s.dropOutput).inReset = s.inReset := rfl
@[simp] theorem State.dropOutput_params (s : State) :
    (s.dropOutput).params = s.params := rfl
@[simp] theorem State.dropOutput_resets (s : State) :
    (s.dropOutput).resets = s.resets := rfl
@[simp] theorem State.dropOutput_draws (s : State) :
    (s.dropOutput).draws = s.draws := rfl
@[simp] theorem State.dropOutput_schedule (s : State) :
    (s.dropOutput).schedule = s.schedule := rfl
@[simp] theorem State.dropOutput_response (s : State) :
    (s.dropOutput).response = s.response := rfl

/-! ### memWriteOut -/

@[simp] theorem State.memWriteOut_phase (s : State) (bs : List Byte) :
    (s.memWriteOut bs).phase = s.phase := rfl
@[simp] theorem State.memWriteOut_pending (s : State) (bs : List Byte) :
    (s.memWriteOut bs).pending = s.pending := rfl
@[simp] theorem State.memWriteOut_csr (s : State) (bs : List Byte) :
    (s.memWriteOut bs).csr = { s.csr with outLen := BitVec.ofNat 32 bs.length } := rfl
@[simp] theorem State.memWriteOut_freq (s : State) (bs : List Byte) :
    (s.memWriteOut bs).freq = s.freq := rfl
@[simp] theorem State.memWriteOut_tree (s : State) (bs : List Byte) :
    (s.memWriteOut bs).tree = s.tree := rfl
@[simp] theorem State.memWriteOut_codes (s : State) (bs : List Byte) :
    (s.memWriteOut bs).codes = s.codes := rfl
@[simp] theorem State.memWriteOut_bits (s : State) (bs : List Byte) :
    (s.memWriteOut bs).bits = s.bits := rfl
@[simp] theorem State.memWriteOut_payload (s : State) (bs : List Byte) :
    (s.memWriteOut bs).payload = s.payload := rfl
@[simp] theorem State.memWriteOut_inMem (s : State) (bs : List Byte) :
    (s.memWriteOut bs).inMem = s.inMem := rfl
@[simp] theorem State.memWriteOut_outMem (s : State) (bs : List Byte) :
    (s.memWriteOut bs).outMem = Memory.ofBytes bs := rfl
@[simp] theorem State.memWriteOut_inReset (s : State) (bs : List Byte) :
    (s.memWriteOut bs).inReset = s.inReset := rfl
@[simp] theorem State.memWriteOut_params (s : State) (bs : List Byte) :
    (s.memWriteOut bs).params = s.params := rfl
@[simp] theorem State.memWriteOut_resets (s : State) (bs : List Byte) :
    (s.memWriteOut bs).resets = s.resets := rfl
@[simp] theorem State.memWriteOut_draws (s : State) (bs : List Byte) :
    (s.memWriteOut bs).draws = s.draws := rfl
@[simp] theorem State.memWriteOut_schedule (s : State) (bs : List Byte) :
    (s.memWriteOut bs).schedule = s.schedule := rfl
@[simp] theorem State.memWriteOut_response (s : State) (bs : List Byte) :
    (s.memWriteOut bs).response = s.response := rfl

/-! ### completeOk -/

@[simp] theorem State.completeOk_phase (s : State) :
    (s.completeOk).phase = .idle := rfl
@[simp] theorem State.completeOk_pending (s : State) :
    (s.completeOk).pending = s.pending := rfl
@[simp] theorem State.completeOk_csr (s : State) :
    (s.completeOk).csr = { s.csr with status := s.csr.status.succeeded } := rfl
@[simp] theorem State.completeOk_freq (s : State) :
    (s.completeOk).freq = s.freq := rfl
@[simp] theorem State.completeOk_tree (s : State) :
    (s.completeOk).tree = s.tree := rfl
@[simp] theorem State.completeOk_codes (s : State) :
    (s.completeOk).codes = s.codes := rfl
@[simp] theorem State.completeOk_bits (s : State) :
    (s.completeOk).bits = s.bits := rfl
@[simp] theorem State.completeOk_payload (s : State) :
    (s.completeOk).payload = s.payload := rfl
@[simp] theorem State.completeOk_inMem (s : State) :
    (s.completeOk).inMem = s.inMem := rfl
@[simp] theorem State.completeOk_outMem (s : State) :
    (s.completeOk).outMem = s.outMem := rfl
@[simp] theorem State.completeOk_inReset (s : State) :
    (s.completeOk).inReset = s.inReset := rfl
@[simp] theorem State.completeOk_params (s : State) :
    (s.completeOk).params = s.params := rfl
@[simp] theorem State.completeOk_resets (s : State) :
    (s.completeOk).resets = s.resets := rfl
@[simp] theorem State.completeOk_draws (s : State) :
    (s.completeOk).draws = s.draws := rfl
@[simp] theorem State.completeOk_schedule (s : State) :
    (s.completeOk).schedule = s.schedule := rfl
@[simp] theorem State.completeOk_response (s : State) :
    (s.completeOk).response = s.response := rfl

/-! ### completeError -/

@[simp] theorem State.completeError_phase (s : State) (e : ErrCode) (b : Byte) :
    (s.completeError e b).phase = .idle := rfl
@[simp] theorem State.completeError_pending (s : State) (e : ErrCode) (b : Byte) :
    (s.completeError e b).pending = s.pending := rfl
@[simp] theorem State.completeError_csr (s : State) (e : ErrCode) (b : Byte) :
    (s.completeError e b).csr = { s.csr with outLen := 0, status := s.csr.status.failed, err := ⟨e, b⟩ } := rfl
@[simp] theorem State.completeError_freq (s : State) (e : ErrCode) (b : Byte) :
    (s.completeError e b).freq = s.freq := rfl
@[simp] theorem State.completeError_tree (s : State) (e : ErrCode) (b : Byte) :
    (s.completeError e b).tree = s.tree := rfl
@[simp] theorem State.completeError_codes (s : State) (e : ErrCode) (b : Byte) :
    (s.completeError e b).codes = s.codes := rfl
@[simp] theorem State.completeError_bits (s : State) (e : ErrCode) (b : Byte) :
    (s.completeError e b).bits = s.bits := rfl
@[simp] theorem State.completeError_payload (s : State) (e : ErrCode) (b : Byte) :
    (s.completeError e b).payload = s.payload := rfl
@[simp] theorem State.completeError_inMem (s : State) (e : ErrCode) (b : Byte) :
    (s.completeError e b).inMem = s.inMem := rfl
@[simp] theorem State.completeError_outMem (s : State) (e : ErrCode) (b : Byte) :
    (s.completeError e b).outMem = [] := rfl
@[simp] theorem State.completeError_inReset (s : State) (e : ErrCode) (b : Byte) :
    (s.completeError e b).inReset = s.inReset := rfl
@[simp] theorem State.completeError_params (s : State) (e : ErrCode) (b : Byte) :
    (s.completeError e b).params = s.params := rfl
@[simp] theorem State.completeError_resets (s : State) (e : ErrCode) (b : Byte) :
    (s.completeError e b).resets = s.resets := rfl
@[simp] theorem State.completeError_draws (s : State) (e : ErrCode) (b : Byte) :
    (s.completeError e b).draws = s.draws := rfl
@[simp] theorem State.completeError_schedule (s : State) (e : ErrCode) (b : Byte) :
    (s.completeError e b).schedule = s.schedule := rfl
@[simp] theorem State.completeError_response (s : State) (e : ErrCode) (b : Byte) :
    (s.completeError e b).response = s.response := rfl

/-! ### cleared -/

@[simp] theorem State.cleared_phase (s : State) :
    (s.cleared).phase = s.phase := rfl
@[simp] theorem State.cleared_pending (s : State) :
    (s.cleared).pending = s.pending := rfl
@[simp] theorem State.cleared_csr (s : State) :
    (s.cleared).csr = { s.csr with outLen := 0, padBits := 0, trailBits := 0, qfreq := 0, qcodeLen := 0, qcode := 0 } := rfl
@[simp] theorem State.cleared_freq (s : State) :
    (s.cleared).freq = none := rfl
@[simp] theorem State.cleared_tree (s : State) :
    (s.cleared).tree = none := rfl
@[simp] theorem State.cleared_codes (s : State) :
    (s.cleared).codes = none := rfl
@[simp] theorem State.cleared_bits (s : State) :
    (s.cleared).bits = none := rfl
@[simp] theorem State.cleared_payload (s : State) :
    (s.cleared).payload = none := rfl
@[simp] theorem State.cleared_inMem (s : State) :
    (s.cleared).inMem = s.inMem := rfl
@[simp] theorem State.cleared_outMem (s : State) :
    (s.cleared).outMem = [] := rfl
@[simp] theorem State.cleared_inReset (s : State) :
    (s.cleared).inReset = s.inReset := rfl
@[simp] theorem State.cleared_params (s : State) :
    (s.cleared).params = s.params := rfl
@[simp] theorem State.cleared_resets (s : State) :
    (s.cleared).resets = s.resets := rfl
@[simp] theorem State.cleared_draws (s : State) :
    (s.cleared).draws = s.draws := rfl
@[simp] theorem State.cleared_schedule (s : State) :
    (s.cleared).schedule = s.schedule := rfl
@[simp] theorem State.cleared_response (s : State) :
    (s.cleared).response = s.response := rfl

/-! ### applyReset -/

@[simp] theorem State.applyReset_phase (s : State) :
    (s.applyReset).phase = .idle := rfl
@[simp] theorem State.applyReset_pending (s : State) :
    (s.applyReset).pending = 0 := rfl
@[simp] theorem State.applyReset_csr (s : State) :
    (s.applyReset).csr = Csr.reset := rfl
@[simp] theorem State.applyReset_freq (s : State) :
    (s.applyReset).freq = none := rfl
@[simp] theorem State.applyReset_tree (s : State) :
    (s.applyReset).tree = none := rfl
@[simp] theorem State.applyReset_codes (s : State) :
    (s.applyReset).codes = none := rfl
@[simp] theorem State.applyReset_bits (s : State) :
    (s.applyReset).bits = none := rfl
@[simp] theorem State.applyReset_payload (s : State) :
    (s.applyReset).payload = none := rfl
@[simp] theorem State.applyReset_inMem (s : State) :
    (s.applyReset).inMem = [] := rfl
@[simp] theorem State.applyReset_outMem (s : State) :
    (s.applyReset).outMem = [] := rfl
@[simp] theorem State.applyReset_inReset (s : State) :
    (s.applyReset).inReset = true := rfl
@[simp] theorem State.applyReset_params (s : State) :
    (s.applyReset).params = s.params := rfl
@[simp] theorem State.applyReset_resets (s : State) :
    (s.applyReset).resets = s.resets + 1 := rfl
@[simp] theorem State.applyReset_draws (s : State) :
    (s.applyReset).draws = s.draws := rfl
@[simp] theorem State.applyReset_schedule (s : State) :
    (s.applyReset).schedule = s.schedule := rfl
@[simp] theorem State.applyReset_response (s : State) :
    (s.applyReset).response = .none := rfl

/-! ### releaseReset -/

@[simp] theorem State.releaseReset_phase (s : State) :
    (s.releaseReset).phase = s.phase := rfl
@[simp] theorem State.releaseReset_pending (s : State) :
    (s.releaseReset).pending = s.pending := rfl
@[simp] theorem State.releaseReset_csr (s : State) :
    (s.releaseReset).csr = s.csr := rfl
@[simp] theorem State.releaseReset_freq (s : State) :
    (s.releaseReset).freq = s.freq := rfl
@[simp] theorem State.releaseReset_tree (s : State) :
    (s.releaseReset).tree = s.tree := rfl
@[simp] theorem State.releaseReset_codes (s : State) :
    (s.releaseReset).codes = s.codes := rfl
@[simp] theorem State.releaseReset_bits (s : State) :
    (s.releaseReset).bits = s.bits := rfl
@[simp] theorem State.releaseReset_payload (s : State) :
    (s.releaseReset).payload = s.payload := rfl
@[simp] theorem State.releaseReset_inMem (s : State) :
    (s.releaseReset).inMem = s.inMem := rfl
@[simp] theorem State.releaseReset_outMem (s : State) :
    (s.releaseReset).outMem = s.outMem := rfl
@[simp] theorem State.releaseReset_inReset (s : State) :
    (s.releaseReset).inReset = false := rfl
@[simp] theorem State.releaseReset_params (s : State) :
    (s.releaseReset).params = s.params := rfl
@[simp] theorem State.releaseReset_resets (s : State) :
    (s.releaseReset).resets = s.resets := rfl
@[simp] theorem State.releaseReset_draws (s : State) :
    (s.releaseReset).draws = s.draws := rfl
@[simp] theorem State.releaseReset_schedule (s : State) :
    (s.releaseReset).schedule = s.schedule := rfl
@[simp] theorem State.releaseReset_response (s : State) :
    (s.releaseReset).response = s.response := rfl

/-! ### respond -/

@[simp] theorem State.respond_phase (s : State) (r : Response) :
    (s.respond r).phase = s.phase := rfl
@[simp] theorem State.respond_pending (s : State) (r : Response) :
    (s.respond r).pending = s.pending := rfl
@[simp] theorem State.respond_csr (s : State) (r : Response) :
    (s.respond r).csr = s.csr := rfl
@[simp] theorem State.respond_freq (s : State) (r : Response) :
    (s.respond r).freq = s.freq := rfl
@[simp] theorem State.respond_tree (s : State) (r : Response) :
    (s.respond r).tree = s.tree := rfl
@[simp] theorem State.respond_codes (s : State) (r : Response) :
    (s.respond r).codes = s.codes := rfl
@[simp] theorem State.respond_bits (s : State) (r : Response) :
    (s.respond r).bits = s.bits := rfl
@[simp] theorem State.respond_payload (s : State) (r : Response) :
    (s.respond r).payload = s.payload := rfl
@[simp] theorem State.respond_inMem (s : State) (r : Response) :
    (s.respond r).inMem = s.inMem := rfl
@[simp] theorem State.respond_outMem (s : State) (r : Response) :
    (s.respond r).outMem = s.outMem := rfl
@[simp] theorem State.respond_inReset (s : State) (r : Response) :
    (s.respond r).inReset = s.inReset := rfl
@[simp] theorem State.respond_params (s : State) (r : Response) :
    (s.respond r).params = s.params := rfl
@[simp] theorem State.respond_resets (s : State) (r : Response) :
    (s.respond r).resets = s.resets := rfl
@[simp] theorem State.respond_draws (s : State) (r : Response) :
    (s.respond r).draws = s.draws := rfl
@[simp] theorem State.respond_schedule (s : State) (r : Response) :
    (s.respond r).schedule = s.schedule := rfl
@[simp] theorem State.respond_response (s : State) (r : Response) :
    (s.respond r).response = r := rfl

/-! ### queried: only QFREQ, QCODE_LEN and QCODE change -/

@[simp] theorem State.queried_phase (s : State) : s.queried.phase = s.phase := rfl
@[simp] theorem State.queried_pending (s : State) : s.queried.pending = s.pending := rfl
@[simp] theorem State.queried_freq (s : State) : s.queried.freq = s.freq := rfl
@[simp] theorem State.queried_tree (s : State) : s.queried.tree = s.tree := rfl
@[simp] theorem State.queried_codes (s : State) : s.queried.codes = s.codes := rfl
@[simp] theorem State.queried_bits (s : State) : s.queried.bits = s.bits := rfl
@[simp] theorem State.queried_payload (s : State) : s.queried.payload = s.payload := rfl
@[simp] theorem State.queried_inMem (s : State) : s.queried.inMem = s.inMem := rfl
@[simp] theorem State.queried_outMem (s : State) : s.queried.outMem = s.outMem := rfl
@[simp] theorem State.queried_inReset (s : State) : s.queried.inReset = s.inReset := rfl
@[simp] theorem State.queried_params (s : State) : s.queried.params = s.params := rfl
@[simp] theorem State.queried_resets (s : State) : s.queried.resets = s.resets := rfl
@[simp] theorem State.queried_draws (s : State) : s.queried.draws = s.draws := rfl
@[simp] theorem State.queried_schedule (s : State) : s.queried.schedule = s.schedule := rfl
@[simp] theorem State.queried_response (s : State) : s.queried.response = s.response := rfl
@[simp] theorem State.queried_csr_ctrlIE (s : State) : s.queried.csr.ctrlIE = s.csr.ctrlIE := rfl
@[simp] theorem State.queried_csr_cmd (s : State) : s.queried.csr.cmd = s.csr.cmd := rfl
@[simp] theorem State.queried_csr_status (s : State) : s.queried.csr.status = s.csr.status := rfl
@[simp] theorem State.queried_csr_err (s : State) : s.queried.csr.err = s.csr.err := rfl
@[simp] theorem State.queried_csr_inLen (s : State) : s.queried.csr.inLen = s.csr.inLen := rfl
@[simp] theorem State.queried_csr_outLen (s : State) : s.queried.csr.outLen = s.csr.outLen := rfl
@[simp] theorem State.queried_csr_padBits (s : State) : s.queried.csr.padBits = s.csr.padBits := rfl
@[simp] theorem State.queried_csr_trailBits (s : State) : s.queried.csr.trailBits = s.csr.trailBits := rfl
@[simp] theorem State.queried_csr_qsym (s : State) : s.queried.csr.qsym = s.csr.qsym := rfl
@[simp] theorem State.queried_csr_qword (s : State) : s.queried.csr.qword = s.csr.qword := rfl

/-! ### STATUS -/

@[simp] theorem Status.accepted_busy (f : Status) : f.accepted.busy = true := rfl
@[simp] theorem Status.accepted_done (f : Status) : f.accepted.done = false := rfl
@[simp] theorem Status.accepted_err (f : Status) : f.accepted.err = false := rfl
@[simp] theorem Status.accepted_dropped (f : Status) : f.accepted.dropped = f.dropped := rfl
@[simp] theorem Status.succeeded_busy (f : Status) : f.succeeded.busy = false := rfl
@[simp] theorem Status.succeeded_done (f : Status) : f.succeeded.done = true := rfl
@[simp] theorem Status.succeeded_err (f : Status) : f.succeeded.err = f.err := rfl
@[simp] theorem Status.succeeded_dropped (f : Status) : f.succeeded.dropped = f.dropped := rfl
@[simp] theorem Status.failed_busy (f : Status) : f.failed.busy = false := rfl
@[simp] theorem Status.failed_done (f : Status) : f.failed.done = f.done := rfl
@[simp] theorem Status.failed_err (f : Status) : f.failed.err = true := rfl
@[simp] theorem Status.failed_dropped (f : Status) : f.failed.dropped = f.dropped := rfl
@[simp] theorem Status.setDropped_busy (f : Status) : f.setDropped.busy = f.busy := rfl
@[simp] theorem Status.setDropped_done (f : Status) : f.setDropped.done = f.done := rfl
@[simp] theorem Status.setDropped_err (f : Status) : f.setDropped.err = f.err := rfl
@[simp] theorem Status.setDropped_dropped (f : Status) : f.setDropped.dropped = true := rfl
@[simp] theorem Status.clearOnes_busy (f : Status) (w : Word) :
    (f.clearOnes w).busy = f.busy := rfl
@[simp] theorem Status.clearOnes_done (f : Status) (w : Word) :
    (f.clearOnes w).done = (f.done && !w.getLsbD 1) := rfl
@[simp] theorem Status.clearOnes_err (f : Status) (w : Word) :
    (f.clearOnes w).err = (f.err && !w.getLsbD 2) := rfl
@[simp] theorem Status.clearOnes_dropped (f : Status) (w : Word) :
    (f.clearOnes w).dropped = (f.dropped && !w.getLsbD 3) := rfl

/-! ### Compositions -/

@[simp] theorem StageResult.complete_ok (s : State) : (StageResult.ok s).complete = s.completeOk := rfl

@[simp] theorem StageResult.complete_fail (e : ErrCode) (b : Byte) (s : State) :
    (StageResult.fail e b s).complete = s.completeError e b := rfl

theorem State.illegalCommand_eq (s : State) :
    s.illegalCommand = s.completeError .illegalCommand (opField s.pending) := rfl

theorem State.unlessBusy_busy {s t : State} (h : s.phase = .busy) :
    s.unlessBusy t = { s with csr := { s.csr with status := s.csr.status.setDropped } } :=
  if_pos h

theorem State.unlessBusy_idle {s t : State} (h : s.phase = .idle) : s.unlessBusy t = t :=
  if_neg (by simp [h])

end Sys2Proof.Machine
end

