-- ==== Sys2Proof/Laws/Stages.lean ====
section
/-! SUPPORT. What each stage can do, and what a step can do, each said once. -/

namespace Sys2Proof.Machine

@[simp] theorem runStages_nil (s : State) : runStages [] s = .ok s := rfl

theorem runStages_cons_ok {f : State → StageResult} {fs : List (State → StageResult)} {s t : State}
    (h : f s = .ok t) : runStages (f :: fs) s = runStages fs t := by
  simp [runStages, h]

theorem runStages_cons_fail {f : State → StageResult} {fs : List (State → StageResult)}
    {s t : State} {e : ErrCode} {b : Byte} (h : f s = .fail e b t) :
    runStages (f :: fs) s = .fail e b t := by
  simp [runStages, h]

/-- COUNT either writes FREQ or invalidates it, and nothing else. -/
theorem stageCount_cases (s : State) :
    (∃ f, countResult s = .ok f ∧ stageCount s = .ok { s with freq := some f }) ∨
    (∃ e, countResult s = .error e ∧ stageCount s = .fail e 0x10 { s with freq := none }) := by
  unfold stageCount
  cases h : countResult s with
  | ok f => exact .inl ⟨f, rfl, rfl⟩
  | error e => exact .inr ⟨e, rfl, rfl⟩

/-- BUILD either writes TREE or invalidates it, and nothing else. -/
theorem stageBuild_cases (s : State) :
    (∃ t, buildResult s.freq = .ok t ∧ stageBuild s = .ok { s with tree := some t }) ∨
    (∃ e, buildResult s.freq = .error e ∧ stageBuild s = .fail e 0x11 { s with tree := none }) := by
  unfold stageBuild
  cases h : buildResult s.freq with
  | ok t => exact .inl ⟨t, rfl, rfl⟩
  | error e => exact .inr ⟨e, rfl, rfl⟩

/-- GENCODE either writes CODES or invalidates it, and nothing else. -/
theorem stageGencode_cases (s : State) :
    (∃ c, gencodeResult s.params s.tree = .ok c ∧ stageGencode s = .ok { s with codes := some c }) ∨
    (∃ e, gencodeResult s.params s.tree = .error e ∧
      stageGencode s = .fail e 0x12 { s with codes := none }) := by
  unfold stageGencode
  cases h : gencodeResult s.params s.tree with
  | ok c => exact .inl ⟨c, rfl, rfl⟩
  | error e => exact .inr ⟨e, rfl, rfl⟩

/-- MAP either writes BITS or invalidates it, and nothing else. -/
theorem stageMap_cases (s : State) :
    (∃ b, mapResult s = .ok b ∧ stageMap s = .ok { s with bits := some b }) ∨
    (∃ e, mapResult s = .error e ∧ stageMap s = .fail e 0x13 { s with bits := none }) := by
  unfold stageMap
  cases h : mapResult s with
  | ok b => exact .inl ⟨b, rfl, rfl⟩
  | error e => exact .inr ⟨e, rfl, rfl⟩

/-- PACK either writes PAYLOAD, the output and PAD_BITS, or invalidates PAYLOAD. -/
theorem stagePack_cases (s : State) :
    (∃ bs pad, packResult s.params s.bits = .ok (bs, pad) ∧
      stagePack s = .ok { s with
        outMem := Memory.ofBytes bs
        payload := some bs
        csr := { s.csr with outLen := BitVec.ofNat 32 bs.length, padBits := BitVec.ofNat 32 pad } }) ∨
    (∃ e, packResult s.params s.bits = .error e ∧
      stagePack s = .fail e 0x14 { s with payload := none }) := by
  unfold stagePack
  cases h : packResult s.params s.bits with
  | ok r => exact .inl ⟨r.1, r.2, rfl, rfl⟩
  | error e => exact .inr ⟨e, rfl, rfl⟩

/-- SERIALIZE either writes the output or leaves the state as it is. -/
theorem stageSerialize_cases (s : State) :
    (∃ bs, serializeResult s.params s.freq s.payload = .ok bs ∧
      stageSerialize s = .ok (s.memWriteOut bs)) ∨
    (∃ e, serializeResult s.params s.freq s.payload = .error e ∧
      stageSerialize s = .fail e 0x15 s) := by
  unfold stageSerialize
  cases h : serializeResult s.params s.freq s.payload with
  | ok bs => exact .inl ⟨bs, rfl, rfl⟩
  | error e => exact .inr ⟨e, rfl, rfl⟩

/-- DESERIALIZE either writes FREQ and PAYLOAD or invalidates both. -/
theorem stageDeserialize_cases (s : State) :
    (∃ f p, deserializeResult s = .ok (f, p) ∧
      stageDeserialize s = .ok { s with freq := some f, payload := some p }) ∨
    (∃ e, deserializeResult s = .error e ∧
      stageDeserialize s = .fail e 0x20 { s with freq := none, payload := none }) := by
  unfold stageDeserialize
  cases h : deserializeResult s with
  | ok r => exact .inl ⟨r.1, r.2, rfl, rfl⟩
  | error e => exact .inr ⟨e, rfl, rfl⟩

/-- UNPACK either writes BITS or invalidates it, and nothing else. -/
theorem stageUnpack_cases (s : State) :
    (∃ b, unpackResult s.params s.payload = .ok b ∧ stageUnpack s = .ok { s with bits := some b }) ∨
    (∃ e, unpackResult s.params s.payload = .error e ∧
      stageUnpack s = .fail e 0x21 { s with bits := none }) := by
  unfold stageUnpack
  cases h : unpackResult s.params s.payload with
  | ok b => exact .inl ⟨b, rfl, rfl⟩
  | error e => exact .inr ⟨e, rfl, rfl⟩

/-- WALK either writes the output and TRAIL_BITS or leaves the state as it is. -/
theorem stageWalk_cases (s : State) :
    (∃ out trail, walkResult s.params s.tree s.bits = .ok (out, trail) ∧
      stageWalk s = .ok { s with
        outMem := Memory.ofBytes out
        csr := { s.csr with
          outLen := BitVec.ofNat 32 out.length, trailBits := BitVec.ofNat 32 trail } }) ∨
    (∃ e, walkResult s.params s.tree s.bits = .error e ∧ stageWalk s = .fail e 0x22 s) := by
  unfold stageWalk
  cases h : walkResult s.params s.tree s.bits with
  | ok r => exact .inl ⟨r.1, r.2, rfl, rfl⟩
  | error e => exact .inr ⟨e, rfl, rfl⟩

/-- The state a step starts from once its turn is taken off the schedule. -/
abbrev State.popTurn (s : State) : State := { s with schedule := s.schedule.tail }

/-- Everything a step that gives a next state can do: nothing (nothing to run), run the pending
command, complete an illegal word, make the host's access, or follow the reset input. -/
theorem step_cases {s t : State} (h : step s = .next t) :
    (t = s.popTurn ∧ ¬ (s.phase = .busy ∧ s.inReset = false)) ∨
    (∃ i, decodeWord s.pending = .ok i ∧ exec i s.popTurn = .next t ∧ s.phase = .busy) ∨
    (∃ e, decodeWord s.pending = .error e ∧ t = s.popTurn.illegalCommand ∧ s.phase = .busy) ∨
    (∃ a, s.schedule.head? = some (.access a) ∧ t = hostAccess a s.popTurn ∧ s.inReset = false) ∨
    (s.schedule.head? = some .assertReset ∧ t = s.popTurn.applyReset) ∨
    (s.schedule.head? = some .releaseReset ∧ t = s.popTurn.releaseReset) := by
  have core : ∀ u : State, u = s.popTurn → nextMove s = u.coreMove →
      (t = s.popTurn ∧ ¬ (s.phase = .busy ∧ s.inReset = false)) ∨
      (∃ i, decodeWord s.pending = .ok i ∧ exec i s.popTurn = .next t ∧ s.phase = .busy) ∨
      (∃ e, decodeWord s.pending = .error e ∧ t = s.popTurn.illegalCommand ∧ s.phase = .busy) := by
    intro u hu hm
    subst hu
    simp only [step, hm, State.coreMove] at h
    split_ifs at h with hb
    · cases hd : decodeWord s.pending with
      | ok i => exact .inr (.inl ⟨i, rfl, by simpa [fetch, hd] using h, hb.1⟩)
      | error e => exact .inr (.inr ⟨e, rfl, by simpa [fetch, hd] using h.symm, hb.1⟩)
    · exact .inl ⟨by simpa using h.symm, hb⟩
  cases hs : s.schedule with
  | nil =>
    have hp : s = s.popTurn := by cases s; simp_all
    rcases core s hp (by simp [nextMove, hs]) with h1 | h1 | h1 <;> simp [h1]
  | cons u rest =>
    have hp : s.popTurn = { s with schedule := rest } := by simp [State.popTurn, hs]
    cases u with
    | core =>
      rcases core _ rfl (by simp [nextMove, hs, hp]) with h1 | h1 | h1 <;> simp [h1]
    | access a =>
      cases hr : s.inReset with
      | true => simp [step, nextMove, hs, hr] at h
      | false =>
        simp only [step, nextMove, hs, hr] at h
        simp only [Bool.false_eq_true, if_false, Host.Outcome.next.injEq] at h
        exact .inr (.inr (.inr (.inl ⟨a, rfl, by rw [hp, ← h, hr], rfl⟩)))
    | assertReset =>
      simp only [step, nextMove, hs, Host.Outcome.next.injEq] at h
      exact .inr (.inr (.inr (.inr (.inl ⟨rfl, by rw [hp, ← h]⟩))))
    | releaseReset =>
      simp only [step, nextMove, hs, Host.Outcome.next.injEq] at h
      exact .inr (.inr (.inr (.inr (.inr ⟨rfl, by rw [hp, ← h]⟩))))

end Sys2Proof.Machine
end

