-- ==== Sys2Proof/Laws/Tables.lean ====
section
/-! SUPPORT. Tables keyed by symbol and runs of bits: what insertion, sorting and counting keep. -/

namespace Sys2Proof.Machine

theorem tableInsert_perm {α : Type} (k : Symbol) (v : α) (t : List (Symbol × α)) :
    (tableInsert k v t).Perm ((k, v) :: t) := by
  induction t with
  | nil => exact List.Perm.refl _
  | cons e t ih =>
    unfold tableInsert
    split_ifs with h
    · exact List.Perm.refl _
    · exact (List.Perm.cons e ih).trans (List.Perm.swap _ _ _)

/-- Inserting a new symbol keeps a table strictly ascending. -/
theorem tableInsert_ascending {α : Type} {k : Symbol} {t : List (Symbol × α)} (v : α)
    (h : Ascending t) (hk : k ∉ keys t) : Ascending (tableInsert k v t) := by
  induction t with
  | nil => simp [tableInsert, Ascending]
  | cons e t ih =>
    obtain ⟨he, ht⟩ := List.pairwise_cons.1 h
    simp only [keys, List.map_cons, List.mem_cons, not_or] at hk
    unfold tableInsert
    split_ifs with hlt
    · exact List.pairwise_cons.2 ⟨fun x hx => by
        rcases List.mem_cons.1 hx with rfl | hx
        · exact hlt
        · exact lt_trans hlt (he x hx), h⟩
    · refine List.pairwise_cons.2 ⟨fun x hx => ?_, ih ht hk.2⟩
      rcases List.mem_cons.1 ((tableInsert_perm k v t).mem_iff.1 hx) with rfl | hx
      · exact lt_of_le_of_ne (Nat.le_of_not_lt hlt) (Ne.symm hk.1)
      · exact he x hx

theorem tableSort_perm {α : Type} (t : List (Symbol × α)) : (tableSort t).Perm t := by
  induction t with
  | nil => exact List.Perm.refl _
  | cons e t ih => exact (tableInsert_perm e.1 e.2 _).trans (List.Perm.cons e ih)

/-- Sorting a table of distinct symbols makes it strictly ascending. -/
theorem tableSort_ascending {α : Type} {t : List (Symbol × α)} (h : (keys t).Nodup) :
    Ascending (tableSort t) := by
  induction t with
  | nil => exact List.Pairwise.nil
  | cons e t ih =>
    obtain ⟨h1, h2⟩ := List.nodup_cons.1 h
    refine tableInsert_ascending e.2 (ih h2) fun hk => h1 ?_
    exact ((tableSort_perm t).map _).mem_iff.1 hk

theorem mem_insertSymbol {k c : Symbol} {t : List Symbol} :
    c ∈ insertSymbol k t ↔ c = k ∨ c ∈ t := by
  induction t with
  | nil => simp [insertSymbol]
  | cons a t ih =>
    unfold insertSymbol
    split_ifs with h1 h2
    · simp
    · subst h2; simp
    · simp only [List.mem_cons, ih]; tauto

theorem insertSymbol_pairwise {k : Symbol} {t : List Symbol} (h : t.Pairwise (· < ·)) :
    (insertSymbol k t).Pairwise (· < ·) := by
  induction t with
  | nil => simp [insertSymbol]
  | cons a t ih =>
    obtain ⟨ha, ht⟩ := List.pairwise_cons.1 h
    unfold insertSymbol
    split_ifs with h1 h2
    · exact List.pairwise_cons.2 ⟨fun x hx => by
        rcases List.mem_cons.1 hx with rfl | hx
        · exact h1
        · exact lt_trans h1 (ha x hx), h⟩
    · exact h
    · refine List.pairwise_cons.2 ⟨fun x hx => ?_, ih ht⟩
      rcases mem_insertSymbol.1 hx with rfl | hx
      · exact lt_of_le_of_ne (Nat.le_of_not_lt h1) (Ne.symm h2)
      · exact ha x hx

/-- The distinct symbols of a sequence are exactly its symbols. -/
theorem mem_distinctSymbols {c : Symbol} {syms : List Symbol} :
    c ∈ distinctSymbols syms ↔ c ∈ syms := by
  induction syms with
  | nil => simp [distinctSymbols]
  | cons a t ih =>
    simp only [distinctSymbols, List.foldr_cons, mem_insertSymbol, List.mem_cons] at ih ⊢
    rw [ih]

/-- They stand in strictly ascending order. -/
theorem distinctSymbols_pairwise (syms : List Symbol) :
    (distinctSymbols syms).Pairwise (· < ·) := by
  induction syms with
  | nil => exact List.Pairwise.nil
  | cons a t ih => exact insertSymbol_pairwise ih

@[simp] theorem keys_countSymbols (syms : List Symbol) :
    keys (countSymbols syms) = distinctSymbols syms := by
  simp [keys, countSymbols, Function.comp_def]

@[simp] theorem length_byteBits (x : Byte) : (byteBits x).length = 8 := by simp [byteBits]

@[simp] theorem length_unpack (p : List Byte) : (unpack p).length = 8 * p.length := by
  induction p with
  | nil => rfl
  | cons x p ih =>
    simp only [unpack, List.flatMap_cons, List.length_append, length_byteBits, List.length_cons] at *
    omega

@[simp] theorem length_pack (b : Bits) : (pack b).length = (b.length + 7) / 8 := by simp [pack]

/-- A run of `n` bits is a number below 2^n. -/
theorem bitsToNat_lt (b : Bits) : bitsToNat b < 2 ^ b.length := by
  suffices h : ∀ v, b.foldl (fun v x => 2 * v + x.toNat) v < (v + 1) * 2 ^ b.length by
    simpa [bitsToNat] using h 0
  induction b with
  | nil => intro v; simp
  | cons x b ih =>
    intro v
    refine lt_of_lt_of_le (ih (2 * v + x.toNat)) ?_
    have hx : x.toNat ≤ 1 := by cases x <;> simp
    calc (2 * v + x.toNat + 1) * 2 ^ b.length ≤ ((v + 1) * 2) * 2 ^ b.length :=
          Nat.mul_le_mul_right _ (by omega)
      _ = (v + 1) * 2 ^ (b.length + 1) := by ring

theorem chunkAt_lt (b : Bits) (start n : Nat) : chunkAt b start n < 2 ^ n := by
  simpa [chunkAt] using bitsToNat_lt ((List.range n).map fun i => b.getD (start + i) false)

end Sys2Proof.Machine
end

