-- ==== Sys2Proof/Tests/Slice0.lean ====
section
/-! SUPPORT. The model's own tests (their results from spec/95_test_vectors.md unless said otherwise),
and a witness for the hypotheses of every obligation that has some. -/

namespace Sys2Proof.Tests

open Sys2Proof.Machine

/-! ### Helpers -/

/-- The parameters of 95_test_vectors.md. -/
def vectorParams : Params := ⟨0x40000000, 4096, 4096, 1112064, 32768, 2 ^ 32 - 1⟩

/-- The least parameters R6 allows. -/
def leastParams : Params := ⟨0, 1, 1, 1, 8, 1⟩

/-- The reset state with these parameters, these bytes in IN_MEM and IN_LEN their number. -/
def loaded (p : Params) (bs : List Byte) : State :=
  { State.reset with
    params := p
    inMem := Memory.ofBytes bs
    csr := { Csr.reset with inLen := BitVec.ofNat 32 bs.length } }

/-- The reset state with IN_LEN one more than IN_CAP. -/
def tooLong (p : Params) : State :=
  { loaded p [] with csr := { Csr.reset with inLen := BitVec.ofNat 32 (p.inCap + 1) } }

/-- The state after a command. -/
def after (i : Instr) (s : State) : State :=
  match exec i s with
  | .next t => t
  | .fault _ | .refused _ => s

theorem exec_after (i : Instr) (s : State) : exec i s = .next (after i s) := by cases i <;> rfl

/-- The state after a step. -/
def stepped (s : State) : State :=
  match step s with
  | .next t => t
  | .fault _ | .refused _ => s

/-- Whether an outcome is a next state. -/
def answersNext : Host.Outcome State Fault Refusal → Bool
  | .next _ => true
  | .fault _ | .refused _ => false

/-- STATUS, ERR and OUT_LEN of a state, as the host reads them. -/
def outcomeOf (s : State) : Word × Word × Word :=
  (s.regValue .status, s.regValue .err, s.regValue .outLen)

/-- "abb", "a b", "abc" and the container of "abb". -/
def abb : List Byte := [0x61, 0x62, 0x62]
def aSpaceB : List Byte := [0x61, 0x20, 0x62]
def abc : List Byte := [0x61, 0x62, 0x63]
def abbContainer : List Byte := [0x61, 0x3A, 0x31, 0x20, 0x62, 0x3A, 0x32, 0x0A, 0x60]

/-- The reset state with stores placed by hand. -/
def withFreq (p : Params) (f : FreqTable) : State := { loaded p [] with freq := some f }
def withBits (p : Params) (b : Bits) : State := { loaded p [] with bits := some b }
def withPayload (p : Params) (b : List Byte) : State := { loaded p [] with payload := some b }

/-- A state with a command pending and the given turns ahead. -/
def pendingState (w : Word) (turns : List Turn) : State :=
  { (loaded vectorParams abb).accept w with schedule := turns }

/-! ### Well-formedness -/

theorem test_params_wf : vectorParams.wf ∧ leastParams.wf := by decide

/-- One ill-formed parameter set for each check of R6, the last ones about BITS_CAP and L_MAX. -/
theorem test_params_ill_formed :
    ∀ p ∈ [Params.mk 0x40000004 1 1 1 8 1, ⟨0, 0, 1, 1, 8, 1⟩, ⟨0, 2 ^ 24 + 1, 1, 1, 2 ^ 30, 1⟩,
        ⟨0, 1, 0, 1, 8, 1⟩, ⟨0, 1, 2 ^ 24 + 1, 1, 8, 1⟩, ⟨0, 1, 1, 0, 8, 1⟩, ⟨0, 1, 1, 1112065, 8, 1⟩,
        ⟨0, 2, 1, 1, 8, 1⟩, ⟨0, 1, 1, 1, 2 ^ 32, 1⟩, ⟨0, 1, 1, 1, 12, 1⟩, ⟨0, 1, 1, 1, 8, 0⟩,
        ⟨0, 1, 1, 1, 8, 2 ^ 32⟩], ¬ p.wf := by decide

/-- A word for each reason R67 gives: a reserved bit, and each gap of OP at both ends. -/
def illegalWords : List Word :=
  [0x80000001, 0x00000100, 0x03, 0x0F, 0x16, 0x1F, 0x23, 0x2F, 0x32, 0xFF]

theorem test_illegal_words :
    illegalWords.all (fun w => !legalWord w) = true ∧
    illegalWords.all (fun w => (decodeWord w).toOption.isNone) = true := by decide

/-- Tables and trees that R39 to R41 do not allow. -/
theorem test_stores_ill_formed :
    ¬ FreqTable.wf vectorParams [(0x62, 1), (0x61, 1)] ∧
    ¬ FreqTable.wf vectorParams [(0x61, 0)] ∧ ¬ FreqTable.wf vectorParams [(0xD800, 1)] ∧
    ¬ FreqTable.wf { vectorParams with kMax := 1 } [(0x61, 1), (0x62, 1)] ∧
    ¬ FreqTable.wf vectorParams [(0x61, 4294967295), (0x62, 1)] ∧
    ¬ CodeTable.wf vectorParams [(0x61, [])] ∧
    ¬ Tree.wf ⟨[.leaf 0x61 1, .leaf 0x62 2, .internal 0 1 4], 2⟩ ∧
    ¬ Tree.wf ⟨[.leaf 0x61 1, .leaf 0x62 2, .internal 0 0 2], 2⟩ ∧
    ¬ Memory.wf [(1, 0), (0, 0)] := by decide

/-! ### Decoding: words written out from R65 and R66 -/

theorem test_decode_encoder_words :
    decodeWord 0b00000000000000000000000000000001#32 = .ok .encode ∧
    decodeWord 0b00000000000000000000000000010000#32 = .ok .count ∧
    decodeWord 0b00000000000000000000000000010001#32 = .ok .build ∧
    decodeWord 0b00000000000000000000000000010010#32 = .ok .gencode ∧
    decodeWord 0b00000000000000000000000000010011#32 = .ok .map ∧
    decodeWord 0b00000000000000000000000000010100#32 = .ok .pack ∧
    decodeWord 0b00000000000000000000000000010101#32 = .ok .serialize := ⟨rfl, rfl, rfl, rfl, rfl, rfl, rfl⟩

theorem test_decode_decoder_and_control_words :
    decodeWord 0b00000000000000000000000000000010#32 = .ok .decode ∧
    decodeWord 0b00000000000000000000000000100000#32 = .ok .deserialize ∧
    decodeWord 0b00000000000000000000000000100001#32 = .ok .unpack ∧
    decodeWord 0b00000000000000000000000000100010#32 = .ok .walk ∧
    decodeWord 0b00000000000000000000000000000000#32 = .ok .nop ∧
    decodeWord 0b00000000000000000000000000110000#32 = .ok .query ∧
    decodeWord 0b00000000000000000000000000110001#32 = .ok .clear := ⟨rfl, rfl, rfl, rfl, rfl, rfl, rfl⟩

theorem test_decode_bytes :
    decodeBytes [0x31, 0, 0, 0, 0xAA] = .ok (.clear, [0xAA]) ∧
    decodeBytes [0x01, 0, 0, 0x80] = .error .reservedBits ∧
    decodeBytes [0x03, 0, 0, 0] = .error (.undefinedOp 0x03) ∧
    decodeBytes [0x01, 0, 0] = .error .truncated ∧
    decodeTableWord 32 0x15 = some .serialize ∧ decodeTableWord 40 0x15 = none :=
  ⟨rfl, rfl, rfl, rfl, by decide, by decide⟩

/-! ### Data encodings (95, 2.1) -/

theorem test_utf8_enc :
    utf8Enc 0x61 = [0x61] ∧ utf8Enc 0xE9 = [0xC3, 0xA9] ∧ utf8Enc 0x20AC = [0xE2, 0x82, 0xAC] ∧
    utf8Enc 0x1D11E = [0xF0, 0x9D, 0x84, 0x9E] := by decide

theorem test_utf8_dec_bad :
    ∀ b ∈ ([[0xC3], [0xC0, 0x80], [0xE0, 0x80, 0x80], [0xED, 0xA0, 0x80], [0xF4, 0x90, 0x80, 0x80],
      [0x80]] : List (List Byte)), utf8Dec b = none := by decide

theorem test_parse_count :
    parseCount (dec 4294967295) = .ok 4294967295 ∧
    parseCount [0x34, 0x32, 0x39, 0x34, 0x39, 0x36, 0x37, 0x32, 0x39, 0x36] = .tooBig ∧
    ∀ r ∈ ([[0x30], [0x30, 0x31], [0x2B, 0x31], [], [0x31, 0x61], [0x20, 0x31]] : List (List Symbol)),
      parseCount r = .malformed := by decide

/-! ### Memory -/

/-- Writing out of order and over an old byte keeps one entry an address, by rising address. -/
theorem test_memory_canonical :
    Memory.write (Memory.write (Memory.write [] 5 0x11) 2 0x22) 5 0x33 = [(2, 0x22), (5, 0x33)] := by decide

/-! ### Commands -/

theorem test_count_two_byte_symbols :
    (after .count (loaded vectorParams [0x68, 0xC3, 0xA9, 0xC3, 0xA9])).freq =
      some [(0x68, 1), (0xE9, 2)] := by decide

theorem test_count_in_len_above_in_cap :
    outcomeOf (after .count (tooLong vectorParams)) = (4, 0x1005, 0) := by decide

theorem test_build_a5_b2_c1_d1_r2 :
    (buildTree [(0x61, 5), (0x62, 2), (0x63, 1), (0x64, 1), (0x72, 2)]).nodes =
      [.leaf 0x61 5, .leaf 0x62 2, .leaf 0x63 1, .leaf 0x64 1, .leaf 0x72 2, .internal 2 3 2,
       .internal 1 4 4, .internal 5 6 6, .internal 0 7 11] := by decide

theorem test_build_tie_takes_the_leaf_first :
    (buildTree [(0x61, 2), (0x62, 1), (0x63, 1)]).nodes =
      [.leaf 0x61 2, .leaf 0x62 1, .leaf 0x63 1, .internal 1 2 2, .internal 0 3 4] := by decide

theorem test_gencode_a5_b2_c1_d1_r2 :
    genCodes (buildTree [(0x61, 5), (0x62, 2), (0x63, 1), (0x64, 1), (0x72, 2)]) =
      [(0x61, [false]), (0x62, [true, true, false]), (0x63, [true, false, false]),
       (0x64, [true, false, true]), (0x72, [true, true, true])] := by decide

theorem test_gencode_l_max_two :
    outcomeOf (after .gencode (after .build (withFreq { vectorParams with lMax := 2 }
      [(0x61, 5), (0x62, 2), (0x63, 1), (0x64, 1), (0x72, 2)]))).dropOutput = (6, 0x1205, 0) := by
  decide

theorem test_map_no_code :
    outcomeOf (after .map { loaded vectorParams abc with
      codes := some [(0x61, [false]), (0x62, [true])] }) = (4, 0x1308, 0) := by decide

theorem test_pack_nine_bits :
    let t := after .pack (withBits vectorParams [true, false, true, false, true, false, true, false, true])
    t.payload = some [0xAA, 0x80] ∧ t.outBytes = [0xAA, 0x80] ∧ t.csr.padBits = 7 := by decide

theorem test_unpack_ff_01 :
    (after .unpack (withPayload vectorParams [0xFF, 0x01])).bits =
      some (List.replicate 8 true ++ List.replicate 7 false ++ [true]) := by decide

theorem test_serialize_space_has_an_empty_left_hand_side :
    (after .serialize { withFreq vectorParams [(0x20, 1), (0x61, 1), (0x62, 1)] with
      payload := some [0xE0] }).outBytes =
      [0x3A, 0x31, 0x20, 0x61, 0x3A, 0x31, 0x20, 0x62, 0x3A, 0x31, 0x0A, 0xE0] := by decide

theorem test_serialize_out_cap_eight :
    outcomeOf (after .serialize { withFreq { vectorParams with outCap := 8 } [(0x61, 1), (0x62, 2)] with
      payload := some [0x60] }) = (4, 0x1505, 0) := by decide

/-- "b:2 a:1\n" 60: any entry order. -/
theorem test_deserialize_other_order :
    let t := after .deserialize
      (loaded vectorParams [0x62, 0x3A, 0x32, 0x20, 0x61, 0x3A, 0x31, 0x0A, 0x60])
    t.freq = some [(0x61, 1), (0x62, 2)] ∧ t.payload = some [0x60] := by decide

/-- "::1\n" has two colons. -/
theorem test_deserialize_two_colons :
    outcomeOf (after .deserialize (loaded vectorParams [0x3A, 0x3A, 0x31, 0x0A])) =
      (4, 0x2002, 0) := by decide

/-- ENCODE then DECODE of "hello world": the container and its pad count of 2.8. -/
theorem test_encode_hello_world :
    let t := after .encode (loaded vectorParams
      [0x68, 0x65, 0x6C, 0x6C, 0x6F, 0x20, 0x77, 0x6F, 0x72, 0x6C, 0x64])
    t.outBytes = [0x3A, 0x31, 0x20, 0x64, 0x3A, 0x31, 0x20, 0x65, 0x3A, 0x31, 0x20, 0x68, 0x3A, 0x31,
      0x20, 0x6C, 0x3A, 0x33, 0x20, 0x6F, 0x3A, 0x32, 0x20, 0x72, 0x3A, 0x31, 0x20, 0x77, 0x3A, 0x31,
      0x0A, 0x22, 0xB7, 0x3C, 0xAF] ∧ t.csr.padBits = 0 := by decide

/-- "a:b" fails at SERIALIZE with every store valid. -/
theorem test_encode_colon :
    let t := after .encode (loaded vectorParams [0x61, 0x3A, 0x62])
    outcomeOf t = (4, 0x1502, 0) ∧ t.regValue .valid = 0x1F := by decide

/-- "a:1 b:2\n" 60 00: the extra byte is not decoded. -/
theorem test_decode_extra_byte :
    let t := after .decode (loaded vectorParams (abbContainer ++ [0x00]))
    t.outBytes = abb ∧ t.csr.trailBits = 13 := by decide

/-- "a:4\n" 10: the fourth bit of a single-leaf text is 1. -/
theorem test_decode_single_leaf_one_bit :
    outcomeOf (after .decode (loaded vectorParams [0x61, 0x3A, 0x34, 0x0A, 0x10])) =
      (4, 0x2203, 0) := by decide

/-- WALK of a:1 b:1 with BITS 10. -/
theorem test_walk_ba :
    let t := after .walk { withBits vectorParams [true, false] with
      tree := some (buildTree [(0x61, 1), (0x62, 1)]) }
    t.outBytes = [0x62, 0x61] ∧ t.csr.trailBits = 0 := by decide

/-- QUERY of 'a' after ENCODE "a b". -/
theorem test_query_code :
    let s := after .encode (loaded vectorParams aSpaceB)
    let t := after .query { s with csr := { s.csr with qsym := 0x61 } }
    t.csr.qfreq = 1 ∧ t.csr.qcodeLen = 2 ∧ t.csr.qcode = 0xC0000000 := by decide

theorem test_clear_keeps_in_len :
    let t := after .clear (after .encode (loaded vectorParams abb))
    t.regValue .valid = 0 ∧ t.csr.outLen = 0 ∧ t.csr.padBits = 0 ∧ t.csr.inLen = 3 := by decide

theorem test_nop_after_reset : outcomeOf (stepped (State.reset.withFetchWord 32 0)) = (2, 0, 0) := by
  decide

theorem test_illegal_word_stage :
    outcomeOf (stepped (State.reset.withFetchWord 32 0x80000001)) = (4, 0x0104, 0) := by decide

/-! ### The host interface (95, 2.11) -/

theorem test_bus_errors :
    ∀ a ∈ [Access.rd .b1 0x4000000C, .rd .b4 0x40000002, .wr .b2 0x41000001 0, .wr .b4 0x41000FFE 0,
        .wr .b1 0x42000000 0, .rd .b4 0x40001000],
      hostAccess a (loaded vectorParams abb) =
        { loaded vectorParams abb with response := .busError } := by decide

/-- The word at OUT+4 after P1, and STATUS bit 0 ignores a 1. -/
theorem test_out_window_little_endian :
    (hostAccess (.rd .b4 0x42000004) (after .encode (loaded vectorParams abb))).response =
      .data .b4 0x0A323A62 ∧
    (hostAccess (.wr .b4 0x4000000C 1) (after .nop (loaded vectorParams abb))).regValue .status = 2 := by
  decide

/-- What a 32-bit read at a CSR offset returns. -/
def csrRead (off : Nat) (s : State) : Response := (hostAccess (.rd .b4 (s.params.base + off)) s).response

/-- The end state of P1 (95, section 3) at the literal offsets of R15, and ID. -/
theorem test_csr_offsets_p1 :
    let s := after .encode (pendingState 1 [])
    ∀ e ∈ [(0x000, (0x48554631 : Word)), (0x004, 0), (0x008, 1), (0x00C, 2), (0x010, 0), (0x014, 3),
        (0x018, 9), (0x01C, 2), (0x020, 3), (0x024, 3), (0x028, 1), (0x02C, 3), (0x030, 1),
        (0x034, 0x1F), (0x038, 5), (0x03C, 0)], csrRead e.1 s = .data .b4 e.2 := by decide

/-- QSYM, QWORD and the three results of QUERY of 'a' after ENCODE "a b" (95, 2.10), and TRAIL_BITS and ERR
where they are not 0 (95, 2.9 and 2.10). -/
theorem test_csr_offsets_query_trail_err :
    let s := after .encode (loaded vectorParams aSpaceB)
    let q := after .query { s with csr := { s.csr with qsym := 0x61 } }
    (∀ e ∈ [(0x040, (0x61 : Word)), (0x044, 0), (0x048, 1), (0x04C, 2), (0x050, 0xC0000000)],
      csrRead e.1 q = .data .b4 e.2) ∧
    csrRead 0x03C (after .decode (loaded vectorParams abbContainer)) = .data .b4 5 ∧
    csrRead 0x010 (pendingState 3 []).illegalCommand = .data .b4 0x0304 := by decide

/-- CTRL.IE = 1 and DONE = 1 raise the interrupt line; clearing DONE lowers it. -/
theorem test_irq :
    let s := after .nop (hostAccess (.wr .b4 0x40000004 1) (loaded vectorParams []))
    s.irq = true ∧ (hostAccess (.wr .b4 0x4000000C 2) s).irq = false := by decide

/-! ### Witnesses: hypotheses of the obligations, met by concrete states and operands -/

theorem witness_pendingCommandIsRun :
    (pendingState 0x31 []).phase = .busy ∧ (pendingState 0x31 []).inReset = false ∧
    decodeWord (pendingState 0x31 []).pending = .ok .clear ∧ (pendingState 0x31 []).schedule = [] ∧
    (pendingState 0x31 [.core]).phase = .busy ∧ (pendingState 0x31 [.core]).inReset = false ∧
    decodeWord (pendingState 0x31 [.core]).pending = .ok .clear ∧
    (pendingState 0x31 [.core]).schedule = .core :: [] := ⟨rfl, rfl, rfl, rfl, rfl, rfl, rfl, rfl⟩

/-- A host access while BUSY and in IDLE, and the core's turn and an empty schedule in IDLE. -/
theorem witness_turnsInIdleAndOfTheHost :
    let w := Access.wr .b1 0x41000000 7
    (pendingState 1 [.access w, .core]).schedule = .access w :: [.core] ∧
    (pendingState 1 [.access w, .core]).inReset = false ∧
    { loaded vectorParams [] with schedule := [.access w] }.schedule = .access w :: [] ∧
    { loaded vectorParams [] with schedule := [.access w] }.inReset = false ∧
    (loaded vectorParams []).phase = .idle ∧ (loaded vectorParams []).schedule = [] ∧
    { loaded vectorParams [] with schedule := [.core] }.phase = .idle ∧
    { loaded vectorParams [] with schedule := [.core] }.schedule = .core :: [] := by decide

/-- A scheduled write to IN+0 in IDLE is made by the step. -/
theorem test_step_makes_the_access :
    (stepped { loaded vectorParams [] with schedule := [.access (.wr .b1 0x41000000 7)] }).inMem =
      [(0, 7)] := by decide

theorem witness_illegalWordCompletesWithError :
    ∀ s ∈ [pendingState 0x00000003 [], pendingState 0x80000001 [.core]],
      s.phase = .busy ∧ s.inReset = false ∧ legalWord s.pending = false ∧
      (s.schedule = [] ∨ s.schedule = .core :: []) := by decide

theorem witness_stepStopsOnlyOnAccessInReset :
    let s := { State.reset with inReset := true, schedule := [.access (.rd .b4 0)] }
    step s = .fault .accessInReset ∧ s.inReset = true ∧
      s.schedule.head? = some (.access (.rd .b4 0)) := ⟨rfl, rfl, rfl⟩

theorem witness_assertedResetReplacesEverything :
    (pendingState 1 [.assertReset, .core]).schedule = .assertReset :: [.core] ∧
    (pendingState 1 [.assertReset, .access (.rd .b4 0)]).schedule =
      .assertReset :: [.access (.rd .b4 0)] ∧
    (pendingState 1 [.assertReset, .releaseReset]).schedule =
      .assertReset :: [.releaseReset] := by decide

theorem witness_commandAcceptance :
    (loaded vectorParams abb).phase = .idle ∧ (pendingState 1 []).phase = .busy := by decide

theorem witness_everyCommandCompletes :
    State.reset.FlagsClear ∧ (pendingState 1 []).FlagsClear ∧
    (after .nop State.reset).csr.status.done = true ∧
    (after .build State.reset).csr.status.err = true := by decide

theorem witness_missingStoreIsSequence :
    State.reset.freq = none ∧ State.reset.tree = none ∧ State.reset.codes = none ∧
    State.reset.bits = none ∧ State.reset.payload = none ∧
    (withFreq vectorParams [(0x61, 1)]).payload = none ∧
    (withPayload vectorParams []).freq = none ∧ (withBits vectorParams []).tree = none ∧
    (after .build (withFreq vectorParams [(0x61, 1)])).bits = none ∧
    (∀ i ∈ [Instr.count, .deserialize, .encode, .decode],
      State.reset.FlagsClear ∧ exec i State.reset = .next (after i State.reset)) := by
  refine ⟨?_, ?_, ?_, ?_, ?_, ?_, ?_, ?_, ?_, fun i _ => ⟨?_, exec_after i _⟩⟩ <;> decide

theorem witness_failedStageInvalidatesItsOutputs :
    let s := loaded vectorParams [0x61, 0x3A, 0x62]
    s.FlagsClear ∧ exec .encode s = .next (after .encode s) ∧
    (after .encode s).csr.status.err = true ∧ exec .build s = .next (after .build s) ∧
    (after .build s).csr.status.err = true ∧ stagesOf .build = [.build] := by
  refine ⟨?_, exec_after _ _, ?_, exec_after _ _, ?_, ?_⟩ <;> decide

/-- The symbols at the ends of the ranges of R71 and beside the surrogates. -/
def edgeSymbols : List Symbol := [0, 0x7F, 0x80, 0x7FF, 0x800, 0xD7FF, 0xE000, 0xFFFF, 0x10000, 0x10FFFF]

theorem witness_utf8RoundTrip :
    AllScalar edgeSymbols ∧ AllScalar [] ∧
    isScalar 0x10FFFF = true ∧ isScalar 0x110000 = false ∧ isScalar 0xD800 = false ∧ isScalar 0xDFFF = false ∧
    utf8 [0x7F, 0x80] = [0x7F, 0xC2, 0x80] ∧ utf8 [0xFFFF, 0x10FFFF] = [0xEF, 0xBF, 0xBF, 0xF4, 0x8F, 0xBF, 0xBF] ∧
    utf8Dec (utf8 edgeSymbols) = some edgeSymbols ∧
    utf8Dec [] = some [] := by decide

theorem witness_decimalCountRoundTrip :
    1 ≤ countMax ∧ parseCount (dec countMax) = .ok countMax ∧ parseCount [0x31] = .ok 1 ∧
    dec 4294967296 ≠ [] ∧ (∀ c ∈ dec 4294967296, 0x30 ≤ c ∧ c ≤ 0x39) ∧ (dec 4294967296).head? ≠ some 0x30 ∧
    Nat.ofDigits 10 ((dec 4294967296).map (· - 0x30)).reverse = 2 ^ 32 := by decide

theorem witness_countResult :
    let s := loaded { vectorParams with kMax := 2 } abb
    ([0x61, 0x62, 0x62] : List Symbol) ≠ [] ∧ AllScalar [0x61, 0x62, 0x62] ∧
    s.InputIs (utf8 [0x61, 0x62, 0x62]) ∧
    ([0x61, 0x62, 0x62] : List Symbol).dedup.length ≤ s.params.kMax := by decide

theorem witness_frequencyFidelity :
    let s := loaded vectorParams abb
    s.FlagsClear ∧ exec .count s = .next (after .count s) ∧
    (after .count s).csr.status.done = true := ⟨by decide, exec_after _ _, by decide⟩

theorem witness_countErrorsInOrder :
    let p := { vectorParams with kMax := 2 }
    p.inCap < (tooLong p).csr.inLen.toNat ∧
    ((loaded p [0xC3]).InputIs [0xC3] ∧ utf8Dec [0xC3] = none) ∧
    ((loaded p []).InputIs [] ∧ utf8Dec [] = some []) ∧
    ((loaded p abc).InputIs abc ∧ utf8Dec abc = some [0x61, 0x62, 0x63] ∧
      p.kMax < ([0x61, 0x62, 0x63] : List Symbol).dedup.length) := by decide

theorem witness_buildResult :
    (withFreq vectorParams []).freq = some [] ∧
    (withFreq vectorParams [(0x61, 4)]).freq = some [(0x61, 4)] ∧ [((0x61 : Symbol), 4)] ≠ [] := by
  decide

/-- The merges of 95, 2.3: `k` runs to N - 2, and at the last merge two nodes are unmerged. -/
theorem witness_treeMerged :
    let t := buildTree [(0x61, 2), (0x62, 1), (0x63, 1)]
    t.leaves = 3 ∧ t.Merged ∧ takeTwo (t.nodes.take 3) (unmerged (t.nodes.take 3)) = some (1, 2, [0]) ∧
    takeTwo (t.nodes.take 4) (unmerged (t.nodes.take 4)) = some (0, 3, []) := by decide

theorem witness_mergeTakesTheTwoLeastKeys :
    let nodes : List Node := [.leaf 0x61 2, .leaf 0x62 1, .leaf 0x63 1]
    [0, 1, 2].Nodup ∧ takeTwo nodes [0, 1, 2] = some (1, 2, [0]) ∧ takeTwo nodes [0] = none ∧
    takeTwo nodes [0, 1] = some (1, 0, []) := by decide

theorem witness_builtTreeIsHuffmanTree :
    FreqTable.wf vectorParams [(0x61, 4294967295)] ∧ [((0x61 : Symbol), 4294967295)] ≠ [] ∧
    FreqTable.wf { vectorParams with kMax := 2 } [(0x61, 1), (0x62, 2)] ∧
    Tree.wf (buildTree [(0x61, 1), (0x62, 2)]) := by decide

theorem witness_gencodeResult :
    let t := buildTree [(0x61, 2), (0x62, 1), (0x63, 1)]
    let s := { loaded { vectorParams with lMax := 2 } [] with tree := some t }
    let s' := { loaded { vectorParams with lMax := 1 } [] with tree := some t }
    (s.tree = some t ∧ (genCodes t).maxLen ≤ s.params.lMax) ∧
    (s'.tree = some t ∧ s'.params.lMax < (genCodes t).maxLen) ∧
    ((buildTree [(0x61, 4)]).leaves = 1 ∧
      (buildTree [(0x61, 4)]).nodes[0]? = some (Node.leaf 0x61 4)) := by decide

theorem witness_codes_of_a_tree :
    Tree.wf (buildTree [(0x61, 4)]) ∧ (buildTree [(0x61, 4)]).leaves = 1 ∧
    Tree.wf (buildTree [(0x61, 2), (0x62, 1), (0x63, 1)]) ∧
    2 ≤ (buildTree [(0x61, 1), (0x62, 1)]).leaves ∧
    ((0x62, [true, false]) ∈ genCodes (buildTree [(0x61, 2), (0x62, 1), (0x63, 1)])) := by decide

/-- 'b' of a:2 b:1 c:1 is right, then left; a bit string that ends inside a code leads to no leaf. -/
theorem witness_codes_lead_to_leaves :
    let t := buildTree [(0x61, 2), (0x62, 1), (0x63, 1)]
    2 ≤ t.leaves ∧ t.LeadsTo [true, false] 0x62 ∧
    walkSymbol t [true, false, true] = some (0x62, [true]) ∧ walkSymbol t [true] = none ∧
    walkSymbol (buildTree [(0x61, 4)]) [false, true] = some (0x61, [true]) ∧
    leafSymbols (buildTree [(0x61, 4)]).nodes = [0x61] := by
  refine ⟨by decide, ⟨1, 1, by decide, by decide⟩, ?_, ?_, ?_, ?_⟩ <;> decide

/-- The code table of "abb". -/
def twoCodes : CodeTable := [(0x61, [false]), (0x62, [true])]

theorem witness_mapResult :
    let s := { loaded { vectorParams with inCap := 8, bitsCap := 64 } abb with codes := some twoCodes }
    AllScalar [0x61, 0x62, 0x62] ∧ s.InputIs (utf8 [0x61, 0x62, 0x62]) ∧ s.codes = some twoCodes ∧
    codesOf twoCodes [0x61, 0x62, 0x62] = some [false, true, true] ∧
    [false, true, true].length ≤ s.params.bitsCap := by decide

theorem witness_mapErrorsInOrder :
    let p := { leastParams with inCap := 3, bitsCap := 24 }
    let long : CodeTable := [(0x61, List.replicate 24 true), (0x62, [true])]
    let s := { loaded p abb with codes := some long }
    { tooLong p with codes := some long }.params.inCap < (tooLong p).csr.inLen.toNat ∧
    ({ loaded p [0xC3] with codes := some long }.InputIs [0xC3] ∧ utf8Dec [0xC3] = none) ∧
    ({ loaded p abc with codes := some twoCodes }.InputIs abc ∧
      utf8Dec abc = some ([0x61, 0x62] ++ 0x63 :: []) ∧
      codesOf twoCodes [0x61, 0x62] = some [false, true] ∧ twoCodes.lookup 0x63 = none) ∧
    (s.InputIs abb ∧ utf8Dec abb = some ([0x61] ++ 0x62 :: [0x62]) ∧
      codesOf long [0x61] = some (List.replicate 24 true) ∧ 24 ≤ s.params.bitsCap ∧
      long.lookup 0x62 = some [true] ∧
      s.params.bitsCap < (List.replicate 24 true ++ [true]).length) := by decide

theorem witness_packResult :
    (loaded leastParams []).bits = none ∧
    ((withBits leastParams (List.replicate 9 true)).bits = some (List.replicate 9 true) ∧
      leastParams.outCap < ((List.replicate 9 true).length + 7) / 8) ∧
    ((withBits leastParams (List.replicate 8 true)).bits = some (List.replicate 8 true) ∧
      ((List.replicate 8 true).length + 7) / 8 ≤ leastParams.outCap) := by decide

theorem witness_unpackResult :
    (loaded leastParams []).payload = none ∧
    ((withPayload leastParams [1, 2]).payload = some [1, 2] ∧
      leastParams.bitsCap < 8 * ([1, 2] : List Byte).length) ∧
    ((withPayload leastParams [1]).payload = some [1] ∧
      8 * ([1] : List Byte).length ≤ leastParams.bitsCap ∧ leastParams.wf ∧
      ([1] : List Byte).length ≤ max leastParams.inCap (leastParams.bitsCap / 8)) := by decide

theorem witness_serializeResult :
    let s := fun p f => { withFreq p f with payload := some [0x60] }
    let f : FreqTable := [(0x61, 1), (0x62, 2)]
    (∃ e ∈ ([(0x0A, 1), (0x61, 1)] : FreqTable), e.1 = 0x3A ∨ e.1 = 0x0A) ∧
    ((s vectorParams f).freq = some f ∧ (s vectorParams f).payload = some [0x60] ∧
      ∀ e ∈ f, e.1 ≠ 0x3A ∧ e.1 ≠ 0x0A) ∧
    8 < (utf8 (freqText f) ++ 0x0A :: [(0x60 : Byte)]).length ∧
    (utf8 (freqText f) ++ 0x0A :: [(0x60 : Byte)]).length ≤ 9 := by decide

theorem witness_containerRoundTrip :
    let p := { vectorParams with outCap := 9 }
    FreqTable.wf p [(0x61, 1), (0x62, 2)] ∧
    (∀ e ∈ ([(0x61, 1), (0x62, 2)] : FreqTable), e.1 ≠ 0x3A ∧ e.1 ≠ 0x0A) ∧
    serialize p [(0x61, 1), (0x62, 2)] [0x60] = .ok abbContainer := ⟨by decide, by decide, rfl⟩

theorem witness_deserializeAcceptsAnyEntryOrder :
    let l : FreqTable := [(0x62, 1), (0x20, 3)]
    let s := loaded { vectorParams with kMax := 2 } (utf8 (freqText l) ++ 0x0A :: [0x0A])
    FreqTable.wf s.params [(0x20, 3), (0x62, 1)] ∧
    (∀ e ∈ ([(0x20, 3), (0x62, 1)] : FreqTable), e.1 ≠ 0x3A ∧ e.1 ≠ 0x0A) ∧
    l.Perm [(0x20, 3), (0x62, 1)] ∧ s.InputIs (utf8 (freqText l) ++ 0x0A :: [0x0A]) := by decide

theorem witness_parseFieldResults :
    (0x3A ∉ ([0x61] : List Symbol)) ∧ 2 ≤ ([0x3A, 0x3A, 0x31] : List Symbol).count 0x3A ∧
    (0x3A ∉ ([0x61, 0x62] : List Symbol) ∧ 2 ≤ ([0x61, 0x62] : List Symbol).length) ∧
    parseCount [0x30] = .malformed ∧ parseCount (dec 4294967296) = .tooBig ∧
    parseCount (dec 4294967295) = .ok 4294967295 ∧
    parseField ([] ++ 0x3A :: [0x33]) = .ok (0x20, 3) ∧
    parseField ([0x61] ++ 0x3A :: [0x31]) = .ok (0x61, 1) := by
  refine ⟨?_, ?_, ?_, ?_, ?_, ?_, rfl, rfl⟩ <;> decide

theorem witness_deserializeErrorsInOrder :
    let p := { vectorParams with kMax := 1 }
    p.inCap < (tooLong p).csr.inLen.toNat ∧
    ((loaded p [0x61]).InputIs [0x61] ∧ 0x0A ∉ ([0x61] : List Byte)) ∧
    ((loaded p [0xFF, 0x0A]).InputIs ([0xFF] ++ 0x0A :: []) ∧ 0x0A ∉ ([0xFF] : List Byte) ∧
      utf8Dec [0xFF] = none) ∧
    ((loaded p abbContainer).InputIs ((abbContainer.take 7) ++ 0x0A :: [0x60]) ∧
      0x0A ∉ abbContainer.take 7 ∧
      utf8Dec (abbContainer.take 7) = some (freqText [(0x61, 1), (0x62, 2)])) ∧
    parseFreqText p (freqText [(0x61, 1), (0x62, 2)]) = .error .capacity ∧
    parseFreqText vectorParams (freqText [(0x61, 1), (0x62, 2)]) = .ok [(0x61, 1), (0x62, 2)] := by
  refine ⟨?_, ?_, ?_, ?_, rfl, rfl⟩ <;> decide

/-- The fields "b:2" and "a:1" are taken; the next one of each clause, with the limits met exactly. -/
theorem witness_deserializeFields :
    let b2 : List Symbol := [0x62, 0x3A, 0x32]
    let a1 : List Symbol := [0x61, 0x3A, 0x31]
    let big : List Symbol := [0x63, 0x3A] ++ dec 4294967293
    let g : FreqTable := [(0x62, 2), (0x61, 1)]
    [b2, a1].map parseField = g.map .ok ∧ (keys g).Nodup ∧ FreqTable.total g = 3 ∧
    (∀ x ∈ [b2, a1] ++ a1 :: [big], 0x20 ∉ x) ∧ [0x20].intercalate ([b2, a1] ++ a1 :: [big]) ≠ [] ∧
    parseField [] = .error .corruptContainer ∧ (parseField a1 = .ok (0x61, 1) ∧ 0x61 ∈ keys g) ∧
    (parseField big = .ok (0x63, 4294967293) ∧ 0x63 ∉ keys g ∧ countMax < FreqTable.total g + 4294967293) ∧
    g.length = 2 ∧ FreqTable.total g + 4294967292 = countMax ∧
    ([] : List (List Symbol)).map parseField = ([] : FreqTable).map .ok := by
  refine ⟨rfl, ?_, ?_, ?_, ?_, rfl, ⟨rfl, ?_⟩, ⟨rfl, ?_, ?_⟩, ?_, ?_, rfl⟩ <;> decide

theorem test_deserialize_fields :
    let p := { vectorParams with kMax := 2 }
    let a1 : List Symbol := [0x61, 0x3A, 0x31]
    parseFreqText p (a1 ++ 0x20 :: a1) = .error .corruptContainer ∧
    parseFreqText { p with kMax := 1 } (a1 ++ 0x20 :: a1) = .error .corruptContainer ∧
    parseFreqText p (a1 ++ 0x20 :: [0x62, 0x3A] ++ dec 4294967295) = .error .capacity := ⟨rfl, rfl, rfl⟩

theorem witness_walkDecodesTheCodes :
    let t := buildTree [(0x61, 1), (0x62, 2)]
    let s := { withBits { vectorParams with outCap := 3 } ([true, false, true] ++ [true]) with
      tree := some t }
    s.tree = some t ∧ Tree.wf t ∧
    weightAt t.nodes t.root = ([0x62, 0x61, 0x62] : List Symbol).length ∧
    codesOf (genCodes t) [0x62, 0x61, 0x62] = some [true, false, true] ∧
    s.bits = some ([true, false, true] ++ [true]) ∧
    (utf8 [0x62, 0x61, 0x62]).length ≤ s.params.outCap := by decide

theorem witness_walkIgnoresTrailingBits :
    walkDecode vectorParams (buildTree [(0x61, 1), (0x62, 1)]) [true, false] =
      .ok ([0x62, 0x61], 2) := rfl

theorem witness_walkFailsOnTooFewBits :
    let t := buildTree [(0x61, 1), (0x62, 2)]
    let s := { withBits vectorParams [true, false] with tree := some t }
    s.tree = some t ∧ Tree.wf t ∧ s.bits = some [true, false] ∧
    [true, false].length < weightAt t.nodes t.root := by decide

/-- 'b' decoded, then bits that end inside a code, where one should begin, a 1 bit on a single leaf, and a
whole code whose symbol does not fit OUT_CAP = 1 any more. -/
theorem witness_walkErrorsInOrder :
    let t := buildTree [(0x61, 2), (0x62, 1), (0x63, 1)]
    let one := buildTree [(0x61, 4)]
    let s := fun r => { withBits { vectorParams with outCap := 1 } ([true, false] ++ r) with tree := some t }
    let s' := { withBits vectorParams ([false] ++ [true]) with tree := some one }
    Tree.wf t ∧ codesOf (genCodes t) [0x62] = some [true, false] ∧
    ([0x62] : List Symbol).length < weightAt t.nodes t.root ∧ (utf8 [0x62]).length ≤ 1 ∧
    ((s [true]).bits = some ([true, false] ++ [true]) ∧ [true] <+: [true, true] ∧ [true] ≠ [true, true] ∧
      (0x63, [true, true]) ∈ genCodes t) ∧
    ((s []).bits = some ([true, false] ++ []) ∧ [] <+: [false] ∧ (0x61, [false]) ∈ genCodes t) ∧
    ((s [false, true]).bits = some ([true, false] ++ [false, true]) ∧ [false] <+: [false, true] ∧
      1 < (utf8 ([0x62] ++ [0x61])).length) ∧
    (Tree.wf one ∧ one.leaves = 1 ∧ codesOf (genCodes one) [0x61] = some [false] ∧
      s'.bits = some ([false] ++ [true]) ∧ [true].head? = some true ∧
      ([0x61] : List Symbol).length < weightAt one.nodes one.root) := by decide

theorem witness_encodeResult :
    let syms : List Symbol := [0x61, 0x62, 0x62]
    let f := countSymbols syms
    let s := loaded { vectorParams with inCap := 3, bitsCap := 24, outCap := 9, kMax := 2, lMax := 1 } abb
    syms ≠ [] ∧ AllScalar syms ∧ 0x3A ∉ syms ∧ 0x0A ∉ syms ∧ s.InputIs (utf8 syms) ∧
    syms.dedup.length ≤ s.params.kMax ∧ (genCodes (buildTree f)).maxLen ≤ s.params.lMax ∧
    codesOf (genCodes (buildTree f)) syms = some [false, true, true] ∧
    [false, true, true].length ≤ s.params.bitsCap ∧
    (containerBytes f (pack [false, true, true])).length ≤ s.params.outCap := by decide

theorem witness_decodeResult :
    let s := loaded vectorParams abbContainer
    let f : FreqTable := [(0x61, 1), (0x62, 2)]
    s.InputIs abbContainer ∧ deserialize s.params abbContainer = .ok (f, [0x60]) ∧ f ≠ [] ∧
    8 * ([0x60] : List Byte).length ≤ s.params.bitsCap ∧
    walkDecode s.params (buildTree f) (unpack [0x60]) = .ok (abb, 3) := by
  refine ⟨?_, rfl, ?_, ?_, rfl⟩ <;> decide

theorem witness_codecEqualsItsStageCommands :
    let s := loaded vectorParams abb
    let u := loaded vectorParams abbContainer
    s.FlagsClear ∧ exec .encode s = .next (after .encode s) ∧
    (after .encode s).csr.status.done = true ∧ u.FlagsClear ∧
    exec .decode u = .next (after .decode u) ∧ (after .decode u).csr.status.done = true := by
  refine ⟨?_, exec_after _ _, ?_, ?_, exec_after _ _, ?_⟩ <;> decide

/-- One that fails at its last stage, and one that fails at its first. -/
theorem witness_codecFails :
    let s := loaded vectorParams [0x61, 0x3A, 0x62]
    s.FlagsClear ∧ exec .encode s = .next (after .encode s) ∧ (after .encode s).csr.status.err = true ∧
    (after .encode s).csr.err.stage = Instr.opcode .serialize ∧
    exec .decode s = .next (after .decode s) ∧ (after .decode s).csr.status.err = true ∧
    (after .decode s).csr.err.stage = Instr.opcode .deserialize := by
  refine ⟨?_, exec_after _ _, ?_, ?_, exec_after _ _, ?_, ?_⟩ <;> decide

/-- The container "a:4\n" without a payload byte fails at WALK, and leaves what the four commands leave. -/
theorem test_decode_fails_as_its_stages :
    let s := loaded vectorParams [0x61, 0x3A, 0x34, 0x0A]
    let u := after .unpack (after .build (after .deserialize s).flagsCleared).flagsCleared
    after .decode s = after .walk u.flagsCleared ∧ (after .decode s).regValue .err = 0x2203 := by decide

theorem witness_encodeRejectsColonAndNewline :
    ∀ syms ∈ ([[0x61, 0x3A], [0x0A]] : List (List Symbol)),
      AllScalar syms ∧ (0x3A ∈ syms ∨ 0x0A ∈ syms) ∧
      (loaded vectorParams (utf8 syms)).InputIs (utf8 syms) ∧
      syms.dedup.length ≤ vectorParams.kMax ∧
      (genCodes (buildTree (countSymbols syms))).maxLen ≤ vectorParams.lMax ∧
      (codesOf (genCodes (buildTree (countSymbols syms))) syms).map List.length = some syms.length ∧
      syms.length ≤ vectorParams.bitsCap ∧ (syms.length + 7) / 8 ≤ vectorParams.outCap := by decide

theorem witness_decodeOfEncodeIsTheText :
    let syms : List Symbol := [0x61, 0x62, 0x62]
    let s := loaded vectorParams abb
    let u := loaded vectorParams abbContainer
    s.params.wf ∧ syms ≠ [] ∧ AllScalar syms ∧ 0x3A ∉ syms ∧ 0x0A ∉ syms ∧ s.InputIs (utf8 syms) ∧
    s.FlagsClear ∧ exec .encode s = .next (after .encode s) ∧
    (after .encode s).csr.status.done = true ∧ u.params = s.params ∧ u.FlagsClear ∧
    u.csr.inLen = (after .encode s).csr.outLen ∧ u.InputIs (after .encode s).outBytes ∧
    (utf8 syms).length ≤ s.params.outCap := by
  refine ⟨?_, ?_, ?_, ?_, ?_, ?_, ?_, exec_after _ _, ?_, ?_, ?_, ?_, ?_, ?_⟩ <;> decide

theorem witness_codecDependsOnTheInputOnly :
    let s := loaded vectorParams abb
    let s' := { loaded vectorParams (abb ++ [0x63]) with
      freq := some [(0x7A, 9)], csr := { s.csr with ctrlIE := true, qsym := 5 } }
    SameInput s s' ∧ s.FlagsClear ∧ s'.FlagsClear ∧ exec .encode s = .next (after .encode s) ∧
    exec .encode s' = .next (after .encode s') ∧ (after .encode s).csr.status.done = true ∧
    exec .decode s = .next (after .decode s) ∧ exec .decode s' = .next (after .decode s') := by
  refine ⟨⟨rfl, rfl, by decide⟩, ?_, ?_, exec_after _ _, exec_after _ _, ?_, exec_after _ _,
    exec_after _ _⟩ <;> decide

theorem witness_queryResult :
    let s := after .encode (loaded vectorParams aSpaceB)
    let f : FreqTable := [(0x20, 1), (0x61, 1), (0x62, 1)]
    let q := { s with csr := { s.csr with qsym := 0x61 } }
    (q.freq = some f ∧ f.lookup q.csr.qsym.toNat = some 1 ∧
      q.codes.map (fun c => c.lookup q.csr.qsym.toNat) = some (some [true, true])) ∧
    (s.freq = some f ∧ f.lookup s.csr.qsym.toNat = none ∧
      s.codes.map (fun c => c.lookup s.csr.qsym.toNat) = some none) := by decide

theorem witness_frames (i : Instr) :
    State.reset.FlagsClear ∧ exec i State.reset = .next (after i State.reset) :=
  ⟨by decide, exec_after i _⟩

/-- A command outside the lists that succeeds, and one that fails. -/
theorem witness_commandsWriteOnlyTheirResults :
    Instr.count ∉ [Instr.pack, .serialize, .walk, .encode, .decode, .clear] ∧
    (after .count (loaded vectorParams abb)).csr.status.err = false ∧
    (after .count (loaded vectorParams [])).csr.status.err = true := by decide

theorem witness_busErrorsChangeNothing :
    vectorParams.wf ∧
    (∀ a ∈ [(Size.b1, 0x00C), (.b4, 0x002), (.b4, 0x1000), (.b2, 0x01000001), (.b4, 0x01000FFE),
        (.b1, 0x01001000), (.b1, 0x02001000), (.b4, 0x02FFFFFF)],
      a.2 < 0x03000000 ∧ illFormed vectorParams a.1 a.2) ∧
    (∀ a ∈ [(Size.b4, 0xFFC), (.b4, 0x01000FFC), (.b1, 0x02000FFF)],
      a.2 < 0x03000000 ∧ ¬ illFormed vectorParams a.1 a.2) := by decide

theorem witness_readsHaveNoSideEffect :
    (0x054 ≤ 0x054 ∧ 0x054 ≤ 0xFFC ∧ 0x054 % 4 = 0) ∧ (0x054 ≤ 0xFFC ∧ 0xFFC % 4 = 0) ∧
    (pendingState 1 []).phase = .busy ∧
    Reg.err ∉ [Reg.id, .ctrl, .cmd, .status, .inLen, .qsym, .qword] ∧
    (0x000, Reg.id) ∈ Reg.all.map (fun r => (r.offset, r)) ∧
    (0x050, Reg.qcode) ∈ Reg.all.map (fun r => (r.offset, r)) ∧ Reg.all.length = 21 := by decide

theorem witness_viewsShowTheStores :
    (after .encode (pendingState 1 [])).Inv ∧ State.reset.SequencerInv := by
  refine ⟨⟨?_, ?_, ?_, ?_⟩, ?_⟩ <;> decide

theorem witness_csrWrites :
    (loaded vectorParams []).phase = .idle ∧
    (0x000 ∉ [0x004, 0x008, 0x00C, 0x014, 0x040, 0x044]) ∧ 0xFFC % 4 = 0 ∧
    (0xFFC ∉ [0x004, 0x008, 0x00C, 0x014, 0x040, 0x044]) := by decide

theorem witness_writesWhileBusyAreDropped :
    (pendingState 1 []).params.wf ∧ (pendingState 1 []).phase = .busy ∧
    (0xFFC % Size.bytes .b4 = 0 ∧ 0xFFC + Size.bytes .b4 ≤ vectorParams.inCap) := by decide

theorem witness_windowAccesses :
    let s := after .encode (loaded vectorParams abb)
    s.params.wf ∧ s.phase = .idle ∧
    (0xFFC % Size.bytes .b4 = 0 ∧ 0xFFC + Size.bytes .b4 ≤ s.params.inCap) ∧
    (8 % Size.bytes .b2 = 0 ∧ 8 + Size.bytes .b2 ≤ s.params.outCap) ∧
    (8 + 0 < s.csr.outLen.toNat ∧ s.outMem.read? (8 + 0) = some 0x60) ∧
    s.csr.outLen.toNat ≤ 8 + 1 := by decide

/-- A read of the IN window while BUSY, the last word of the window among those it may be of. -/
theorem witness_inWindowReadWhileBusy :
    let s := pendingState 1 []
    s.params.wf ∧ s.phase = .busy ∧ 1 % Size.bytes .b1 = 0 ∧ 1 + Size.bytes .b1 ≤ s.params.inCap ∧
    0xFFC % Size.bytes .b4 = 0 ∧ 0xFFC + Size.bytes .b4 = s.params.inCap ∧
    (hostAccess (.rd .b1 0x41000001) s).response = .data .b1 0x62 := by decide

/-- One state for each kind of turn: the core's with a command and with an illegal word, a host write,
and an assertion of reset. -/
def turnStates : List State :=
  [pendingState 1 [], pendingState 3 [.core], pendingState 1 [.access (.wr .b1 0x41000000 7)],
   pendingState 1 [.assertReset]]

theorem witness_stepKeepsSequencerInvariant :
    ∀ s ∈ turnStates, s.SequencerInv ∧ answersNext (step s) = true := by decide

theorem witness_stepKeepsMemoryInvariant :
    ∀ s ∈ turnStates, s.params.wf ∧ s.MemoryInv ∧ answersNext (step s) = true := by decide

theorem witness_stepKeepsStoreInvariant :
    ∀ s ∈ after .encode (pendingState 1 []) :: turnStates,
      s.params.wf ∧ s.StoreInv ∧ answersNext (step s) = true := by decide

end Sys2Proof.Tests
end

/-! UTF-8 (30_encoding.md R71, R72): the encoding row by row, the decoder row by row, and that each
undoes the other. -/

namespace Sys2Proof.Machine

/-! ### Bit fields and continuation bytes -/

section Fields

variable {c m lo n : Nat}

theorem fieldOf_lt (c lo n : Nat) : fieldOf c lo n < 2 ^ n := Nat.mod_lt _ (Nat.two_pow_pos n)

/-- The topmost field of a number needs no masking. -/
theorem fieldOf_eq_div (h : c < 2 ^ (lo + n)) : fieldOf c lo n = c / 2 ^ lo :=
  Nat.mod_eq_of_lt (Nat.div_lt_of_lt_mul (by rwa [← pow_add]))

/-- A mark with no bit in the field below it: the field can be read back from the marked byte. -/
theorem fieldOf_add_fieldOf (hm : 2 ^ n ∣ m) :
    fieldOf (m + fieldOf c lo n) 0 n = fieldOf c lo n := by
  obtain ⟨k, rfl⟩ := hm
  simp [fieldOf]

theorem toNat_ofNat_add_fieldOf (hm : m + 2 ^ n ≤ 2 ^ 8) :
    (BitVec.ofNat 8 (m + fieldOf c lo n)).toNat = m + fieldOf c lo n := by
  have := fieldOf_lt c lo n
  exact Nat.mod_eq_of_lt (by omega)

/-- A byte with the mark `m` is that mark and the field below it. -/
theorem ofNat_add_fieldOf_toNat {b : Byte} (hm : 2 ^ n ∣ m) (h : m ≤ b.toNat)
    (h' : b.toNat < m + 2 ^ n) :
    BitVec.ofNat 8 (m + fieldOf (fieldOf b.toNat 0 n) 0 n) = b := by
  obtain ⟨d, hd⟩ := Nat.exists_eq_add_of_le h
  obtain ⟨k, rfl⟩ := hm
  have hfield : fieldOf (fieldOf b.toNat 0 n) 0 n = d := by
    simp [fieldOf, hd, Nat.mod_eq_of_lt (show d < 2 ^ n by omega)]
  rw [hfield, ← hd, BitVec.ofNat_toNat, BitVec.setWidth_eq]

end Fields

theorem isCont_iff (b : Byte) : isCont b = true ↔ 0x80 ≤ b.toNat ∧ b.toNat ≤ 0xBF := by
  simp [isCont]

theorem isScalar_iff (c : Nat) :
    isScalar c = true ↔ c ≤ 0x10FFFF ∧ ¬ (0xD800 ≤ c ∧ c ≤ 0xDFFF) := by
  simp only [isScalar, Bool.and_eq_true, Bool.not_eq_true', Bool.and_eq_false_iff,
    decide_eq_true_eq, decide_eq_false_iff_not, not_and_or]

theorem contByte_toNat (c lo : Nat) : (contByte c lo).toNat = 0x80 + fieldOf c lo 6 :=
  toNat_ofNat_add_fieldOf (by decide)

@[simp] theorem isCont_contByte (c lo : Nat) : isCont (contByte c lo) = true := by
  have := fieldOf_lt c lo 6
  rw [isCont_iff, contByte_toNat]
  omega

/-- Taking the six bits of `c` below those already read: the decoder's step on an encoder's byte. -/
theorem appendCont_contByte (c lo : Nat) :
    appendCont (c / 2 ^ (lo + 6)) (contByte c lo) = c / 2 ^ lo := by
  have hsplit : c / 2 ^ (lo + 6) = c / 2 ^ lo / 64 := by
    rw [pow_add, ← Nat.div_div_eq_div_mul]
    rfl
  rw [appendCont, contByte_toNat, fieldOf_add_fieldOf (by decide), fieldOf, hsplit]
  omega

/-- Appending six bits moves every field of the code point so far up by six. -/
theorem fieldOf_appendCont (cp lo n : Nat) (b : Byte) :
    fieldOf (appendCont cp b) (lo + 6) n = fieldOf cp lo n := by
  have hdrop : appendCont cp b / 64 = cp := by
    have := fieldOf_lt b.toNat 0 6
    simp only [appendCont]
    omega
  rw [fieldOf, fieldOf, Nat.add_comm lo 6, pow_add, ← Nat.div_div_eq_div_mul]
  simp only [Nat.reducePow, hdrop]

theorem contByte_appendCont_add_six (cp lo : Nat) (b : Byte) :
    contByte (appendCont cp b) (lo + 6) = contByte cp lo := by
  rw [contByte, fieldOf_appendCont, contByte]

theorem contByte_appendCont_zero (cp : Nat) {b : Byte} (hb : isCont b = true) :
    contByte (appendCont cp b) 0 = b := by
  rw [isCont_iff] at hb
  apply BitVec.eq_of_toNat_eq
  simp only [contByte_toNat, appendCont, fieldOf]
  omega

/-! ### The encoding, row by row (R71) -/

section Rows

variable {c : Nat}

theorem utf8Enc_one (h : c ≤ 0x7F) : utf8Enc c = [BitVec.ofNat 8 c] := if_pos h

theorem utf8Enc_two (h : 0x80 ≤ c) (h' : c ≤ 0x7FF) :
    utf8Enc c = [BitVec.ofNat 8 (0xC0 + fieldOf c 6 5), contByte c 0] := by
  have hone : ¬ c ≤ 0x7F := by omega
  rw [utf8Enc, if_neg hone, if_pos h']

theorem utf8Enc_three (h : 0x800 ≤ c) (h' : c ≤ 0xFFFF) :
    utf8Enc c = [BitVec.ofNat 8 (0xE0 + fieldOf c 12 4), contByte c 6, contByte c 0] := by
  have hone : ¬ c ≤ 0x7F := by omega
  have htwo : ¬ c ≤ 0x7FF := by omega
  rw [utf8Enc, if_neg hone, if_neg htwo, if_pos h']

theorem utf8Enc_four (h : 0x10000 ≤ c) :
    utf8Enc c =
      [BitVec.ofNat 8 (0xF0 + fieldOf c 18 3), contByte c 12, contByte c 6, contByte c 0] := by
  have hone : ¬ c ≤ 0x7F := by omega
  have htwo : ¬ c ≤ 0x7FF := by omega
  have hthree : ¬ c ≤ 0xFFFF := by omega
  rw [utf8Enc, if_neg hone, if_neg htwo, if_neg hthree]

end Rows

/-! ### The bytes as R71 writes them, a mark joined to a field by OR -/

/-- The bit field of R8, cut out of the word by its definition on bit vectors. -/
theorem setWidth_extractLsb'_eq_ofNat_fieldOf {c : Nat} (hc : c < 2 ^ 21) (lo n : Nat) :
    ((BitVec.ofNat 21 c).extractLsb' lo n).setWidth 8 = BitVec.ofNat 8 (fieldOf c lo n) := by
  apply BitVec.eq_of_toNat_eq
  simp only [BitVec.toNat_setWidth, BitVec.extractLsb'_toNat, BitVec.toNat_ofNat,
    Nat.mod_eq_of_lt hc, Nat.shiftRight_eq_div_pow, fieldOf]

/-- A mark with no bit in the field below it: adding the field is joining it by OR. -/
theorem ofNat_add_fieldOf {c : Nat} (hc : c < 2 ^ 21) {m n : Nat} (hm : 2 ^ n ∣ m) (lo : Nat) :
    BitVec.ofNat 8 (m + fieldOf c lo n) =
      BitVec.ofNat 8 m ||| ((BitVec.ofNat 21 c).extractLsb' lo n).setWidth 8 := by
  obtain ⟨k, rfl⟩ := hm
  rw [setWidth_extractLsb'_eq_ofNat_fieldOf hc, Nat.two_pow_add_eq_or_of_lt (fieldOf_lt c lo n),
    BitVec.ofNat_or]

theorem contByte_eq_or {c : Nat} (hc : c < 2 ^ 21) (lo : Nat) :
    contByte c lo = 0x80 ||| ((BitVec.ofNat 21 c).extractLsb' lo 6).setWidth 8 :=
  ofNat_add_fieldOf hc (by decide) lo

/-! ### Decoding what was encoded (R72) -/

section Decoder

variable {l b1 b2 b3 : Byte} {t : List Byte}

theorem utf8Dec_one (h : l.toNat ≤ 0x7F) :
    utf8Dec (l :: t) = (utf8Dec t).map (l.toNat :: ·) := by
  rw [utf8Dec.eq_def]
  exact if_pos h

theorem utf8Dec_two (h : 0xC2 ≤ l.toNat) (h' : l.toNat ≤ 0xDF) (h1 : isCont b1 = true)
    {cp : Symbol} (hcp : appendCont (fieldOf l.toNat 0 5) b1 = cp) :
    utf8Dec (l :: b1 :: t) = (utf8Dec t).map (cp :: ·) := by
  have hrow : ¬ l.toNat ≤ 0x7F := by omega
  simp [utf8Dec, hrow, h, h', h1, hcp]

theorem utf8Dec_three (h : 0xE0 ≤ l.toNat) (h' : l.toNat ≤ 0xEF)
    (h1 : isCont b1 = true) (h2 : isCont b2 = true) {cp : Symbol}
    (hcp : appendCont (appendCont (fieldOf l.toNat 0 4) b1) b2 = cp)
    (hlong : 0x800 ≤ cp) (hc : isScalar cp = true) :
    utf8Dec (l :: b1 :: b2 :: t) = (utf8Dec t).map (cp :: ·) := by
  have hrow1 : ¬ l.toNat ≤ 0x7F := by omega
  have hrow2 : ¬ l.toNat ≤ 0xDF := by omega
  simp [utf8Dec, hrow1, hrow2, h, h', h1, h2, hcp, hlong, hc]

theorem utf8Dec_four (h : 0xF0 ≤ l.toNat) (h' : l.toNat ≤ 0xF4)
    (h1 : isCont b1 = true) (h2 : isCont b2 = true) (h3 : isCont b3 = true) {cp : Symbol}
    (hcp : appendCont (appendCont (appendCont (fieldOf l.toNat 0 3) b1) b2) b3 = cp)
    (hlong : 0x10000 ≤ cp) (hc : isScalar cp = true) :
    utf8Dec (l :: b1 :: b2 :: b3 :: t) = (utf8Dec t).map (cp :: ·) := by
  have hrow1 : ¬ l.toNat ≤ 0x7F := by omega
  have hrow2 : ¬ l.toNat ≤ 0xDF := by omega
  have hrow3 : ¬ l.toNat ≤ 0xEF := by omega
  simp [utf8Dec, hrow1, hrow2, hrow3, h, h', h1, h2, h3, hcp, hlong, hc]

/-- The decoder takes the bytes of a symbol off the front as that symbol. -/
theorem utf8Dec_utf8Enc_append {c : Nat} (hc : isScalar c = true) (t : List Byte) :
    utf8Dec (utf8Enc c ++ t) = (utf8Dec t).map (c :: ·) := by
  have hmax : c ≤ 0x10FFFF := ((isScalar_iff c).mp hc).1
  have h0 : appendCont (c / 2 ^ 6) (contByte c 0) = c := by simpa using appendCont_contByte c 0
  have h6 : appendCont (c / 2 ^ 12) (contByte c 6) = c / 2 ^ 6 := appendCont_contByte c 6
  have h12 : appendCont (c / 2 ^ 18) (contByte c 12) = c / 2 ^ 12 := appendCont_contByte c 12
  by_cases hone : c ≤ 0x7F
  · have hl : (BitVec.ofNat 8 c).toNat = c := Nat.mod_eq_of_lt (by omega)
    rw [utf8Enc_one hone, List.singleton_append, utf8Dec_one (by omega), hl]
  by_cases htwo : c ≤ 0x7FF
  · have hf : fieldOf c 6 5 = c / 2 ^ 6 := fieldOf_eq_div (by omega)
    have hl : (BitVec.ofNat 8 (0xC0 + fieldOf c 6 5)).toNat = 0xC0 + fieldOf c 6 5 :=
      toNat_ofNat_add_fieldOf (by decide)
    rw [utf8Enc_two (by omega) htwo]
    exact utf8Dec_two (by omega) (by omega) (isCont_contByte _ _)
      (by rw [hl, fieldOf_add_fieldOf (by decide), hf, h0])
  by_cases hthree : c ≤ 0xFFFF
  · have hf : fieldOf c 12 4 = c / 2 ^ 12 := fieldOf_eq_div (by omega)
    have hl : (BitVec.ofNat 8 (0xE0 + fieldOf c 12 4)).toNat = 0xE0 + fieldOf c 12 4 :=
      toNat_ofNat_add_fieldOf (by decide)
    have hlong : 0x800 ≤ c := by omega
    rw [utf8Enc_three hlong hthree]
    exact utf8Dec_three (by omega) (by omega) (isCont_contByte _ _) (isCont_contByte _ _)
      (by rw [hl, fieldOf_add_fieldOf (by decide), hf, h6, h0]) hlong hc
  · have hf : fieldOf c 18 3 = c / 2 ^ 18 := fieldOf_eq_div (by omega)
    have hl : (BitVec.ofNat 8 (0xF0 + fieldOf c 18 3)).toNat = 0xF0 + fieldOf c 18 3 :=
      toNat_ofNat_add_fieldOf (by decide)
    have hlong : 0x10000 ≤ c := by omega
    rw [utf8Enc_four hlong]
    exact utf8Dec_four (by omega) (by omega) (isCont_contByte _ _) (isCont_contByte _ _)
      (isCont_contByte _ _) (by rw [hl, fieldOf_add_fieldOf (by decide), hf, h12, h6, h0]) hlong hc

@[simp] theorem utf8_nil : utf8 [] = [] := rfl

@[simp] theorem utf8_cons (c : Symbol) (syms : List Symbol) :
    utf8 (c :: syms) = utf8Enc c ++ utf8 syms := List.flatMap_cons

theorem utf8Dec_utf8 {syms : List Symbol} (h : AllScalar syms) :
    utf8Dec (utf8 syms) = some syms := by
  induction syms with
  | nil => simp [utf8Dec]
  | cons c syms ih =>
    obtain ⟨hc, hsyms⟩ := List.forall_mem_cons.mp h
    rw [utf8_cons, utf8Dec_utf8Enc_append hc, ih hsyms, Option.map_some]

/-! ### Encoding what was decoded (R72) -/

theorem utf8Enc_of_lead_two (h : 0xC2 ≤ l.toNat) (h' : l.toNat ≤ 0xDF) (h1 : isCont b1 = true) :
    isScalar (appendCont (fieldOf l.toNat 0 5) b1) = true ∧
      utf8Enc (appendCont (fieldOf l.toNat 0 5) b1) = [l, b1] := by
  obtain ⟨hlong, hshort⟩ : 0x80 ≤ appendCont (fieldOf l.toNat 0 5) b1 ∧
      appendCont (fieldOf l.toNat 0 5) b1 ≤ 0x7FF := by
    simp only [appendCont, fieldOf]; omega
  constructor
  · rw [isScalar_iff]; omega
  · rw [utf8Enc_two hlong hshort, fieldOf_appendCont _ 0,
      ofNat_add_fieldOf_toNat (by decide) (by omega) (by omega), contByte_appendCont_zero _ h1]

theorem utf8Enc_of_lead_three (h : 0xE0 ≤ l.toNat) (h' : l.toNat ≤ 0xEF)
    (h1 : isCont b1 = true) (h2 : isCont b2 = true)
    (hlong : 0x800 ≤ appendCont (appendCont (fieldOf l.toNat 0 4) b1) b2) :
    utf8Enc (appendCont (appendCont (fieldOf l.toNat 0 4) b1) b2) = [l, b1, b2] := by
  have hshort : appendCont (appendCont (fieldOf l.toNat 0 4) b1) b2 ≤ 0xFFFF := by
    simp only [appendCont, fieldOf]; omega
  rw [utf8Enc_three hlong hshort, fieldOf_appendCont _ 6, fieldOf_appendCont _ 0,
    ofNat_add_fieldOf_toNat (by decide) (by omega) (by omega),
    contByte_appendCont_add_six _ 0, contByte_appendCont_zero _ h1, contByte_appendCont_zero _ h2]

theorem utf8Enc_of_lead_four (h : 0xF0 ≤ l.toNat) (h' : l.toNat ≤ 0xF4)
    (h1 : isCont b1 = true) (h2 : isCont b2 = true) (h3 : isCont b3 = true)
    (hlong : 0x10000 ≤ appendCont (appendCont (appendCont (fieldOf l.toNat 0 3) b1) b2) b3) :
    utf8Enc (appendCont (appendCont (appendCont (fieldOf l.toNat 0 3) b1) b2) b3) =
      [l, b1, b2, b3] := by
  rw [utf8Enc_four hlong, fieldOf_appendCont _ 12, fieldOf_appendCont _ 6, fieldOf_appendCont _ 0,
    ofNat_add_fieldOf_toNat (by decide) (by omega) (by omega),
    contByte_appendCont_add_six _ 6, contByte_appendCont_add_six _ 0,
    contByte_appendCont_add_six _ 0, contByte_appendCont_zero _ h1,
    contByte_appendCont_zero _ h2, contByte_appendCont_zero _ h3]

/-- One symbol decoded ahead of a sequence that decodes soundly: the step all four rows of R72 share. -/
theorem allScalar_and_utf8_of_map_cons {c : Symbol} {t b : List Byte} {syms : List Symbol}
    (hc : isScalar c = true) (hb : utf8Enc c ++ t = b)
    (ih : ∀ {rest}, utf8Dec t = some rest → AllScalar rest ∧ utf8 rest = t)
    (h : (utf8Dec t).map (c :: ·) = some syms) : AllScalar syms ∧ utf8 syms = b := by
  obtain ⟨rest, hrest, rfl⟩ := Option.map_eq_some_iff.mp h
  obtain ⟨hscalar, hutf8⟩ := ih hrest
  exact ⟨List.forall_mem_cons.mpr ⟨hc, hscalar⟩, by rw [utf8_cons, hutf8, hb]⟩

/-- Every sequence the decoder answers is one of symbols, with the given bytes as its UTF-8: the
induction follows the decoder's rows, and a row that answers Bad answers no sequence. -/
theorem allScalar_and_utf8_of_utf8Dec {b : List Byte} {syms : List Symbol}
    (h : utf8Dec b = some syms) : AllScalar syms ∧ utf8 syms = b := by
  fun_induction utf8Dec b generalizing syms
  case case1 =>
    obtain rfl := Option.some.inj h
    exact ⟨List.forall_mem_nil _, rfl⟩
  case case2 l t lead hone ih =>
    refine allScalar_and_utf8_of_map_cons ?_ ?_ ih h
    · rw [isScalar_iff]; omega
    · rw [utf8Enc_one hone, BitVec.ofNat_toNat, BitVec.setWidth_eq, List.singleton_append]
  case case3 l lead _ htwo b1 t h1 ih =>
    simp only [Bool.and_eq_true, decide_eq_true_eq] at htwo
    obtain ⟨hscalar, henc⟩ := utf8Enc_of_lead_two htwo.1 htwo.2 h1
    exact allScalar_and_utf8_of_map_cons hscalar (congrArg (· ++ t) henc) ih h
  case case6 l lead _ _ hthree b1 b2 t cp hcp ih =>
    simp only [Bool.and_eq_true, decide_eq_true_eq] at hthree hcp
    obtain ⟨⟨⟨h1, h2⟩, hlong⟩, hscalar⟩ := hcp
    have henc := utf8Enc_of_lead_three hthree.1 hthree.2 h1 h2 hlong
    exact allScalar_and_utf8_of_map_cons hscalar (congrArg (· ++ t) henc) ih h
  case case9 l lead _ _ _ hfour b1 b2 b3 t cp hcp ih =>
    simp only [Bool.and_eq_true, decide_eq_true_eq] at hfour hcp
    obtain ⟨⟨⟨⟨h1, h2⟩, h3⟩, hlong⟩, hscalar⟩ := hcp
    have henc := utf8Enc_of_lead_four hfour.1 hfour.2 h1 h2 h3 hlong
    exact allScalar_and_utf8_of_map_cons hscalar (congrArg (· ++ t) henc) ih h
  all_goals cases h

end Decoder

/-! ### The obligation -/

/-- R71's table: the bytes of each of its four ranges, its fields cut from the code point. -/
theorem utf8Enc_table {c : Nat} {field : Nat → Nat → Byte} (hc : isScalar c = true)
    (hfield : ∀ lo n, field lo n = ((BitVec.ofNat 21 c).extractLsb' lo n).setWidth 8) :
    (c ≤ 0x7F → utf8Enc c = [field 0 7]) ∧
    (0x80 ≤ c → c ≤ 0x7FF → utf8Enc c = [0xC0 ||| field 6 5, 0x80 ||| field 0 6]) ∧
    (0x800 ≤ c → c ≤ 0xFFFF →
      utf8Enc c = [0xE0 ||| field 12 4, 0x80 ||| field 6 6, 0x80 ||| field 0 6]) ∧
    (0x10000 ≤ c →
      utf8Enc c =
        [0xF0 ||| field 18 3, 0x80 ||| field 12 6, 0x80 ||| field 6 6, 0x80 ||| field 0 6]) := by
  have hlt : c < 2 ^ 21 := by have := ((isScalar_iff c).mp hc).1; omega
  simp only [hfield, ← contByte_eq_or hlt]
  refine ⟨fun h => ?_, fun h h' => ?_, fun h h' => ?_, fun h => ?_⟩
  · have hlow : fieldOf c 0 7 = c := by rw [fieldOf_eq_div (by omega), pow_zero, Nat.div_one]
    rw [utf8Enc_one h, setWidth_extractLsb'_eq_ofNat_fieldOf hlt, hlow]
  · rw [utf8Enc_two h h', ofNat_add_fieldOf hlt (by decide)]
    rfl
  · rw [utf8Enc_three h h', ofNat_add_fieldOf hlt (by decide)]
    rfl
  · rw [utf8Enc_four h, ofNat_add_fieldOf hlt (by decide)]
    rfl

/-- Settles O13: the encoder row by row, and by induction over the symbols and over the decoder's rows
that the decoder is its inverse. -/
theorem utf8RoundTrip : Obligations.Utf8RoundTrip := by
  unfold Obligations.Utf8RoundTrip
  refine ⟨isScalar_iff, fun c w field hc hw hfield => ?_, fun syms => List.flatMap_def,
    fun syms => utf8Dec_utf8, fun b syms => allScalar_and_utf8_of_utf8Dec⟩
  subst hw
  exact utf8Enc_table hc hfield

end Sys2Proof.Machine

/-! huffman_tree_builder (41_tree_builder.md R84-R86): node order and the two least keys, the
invariant of R85's loop, and the form of the tree it builds (R40). -/

namespace Sys2Proof.Machine

/-! ### Node arrays: what another node changes -/

theorem weightAt_append {nodes : List Node} {i : Nat} (h : i < nodes.length) (more : List Node) :
    weightAt (nodes ++ more) i = weightAt nodes i := by
  rw [weightAt, weightAt, List.getElem?_append_left h]

theorem weightAt_take {nodes : List Node} {i n : Nat} (h : i < n) :
    weightAt (nodes.take n) i = weightAt nodes i := by
  rw [weightAt, weightAt, List.getElem?_take_of_lt h]

theorem childrenOf_append (nodes more : List Node) :
    childrenOf (nodes ++ more) = childrenOf nodes ++ childrenOf more := List.flatMap_append ..

theorem leafSymbols_append (nodes more : List Node) :
    leafSymbols (nodes ++ more) = leafSymbols nodes ++ leafSymbols more := List.flatMap_append ..

@[simp] theorem childrenOf_internal (l r w : Nat) : childrenOf [.internal l r w] = [l, r] := rfl

@[simp] theorem leafSymbols_internal (l r w : Nat) : leafSymbols [.internal l r w] = [] := rfl

theorem mem_childrenOf {nodes : List Node} {i : Nat} :
    i ∈ childrenOf nodes ↔
      ∃ j l r w : Nat, nodes[j]? = some (Node.internal l r w) ∧ (i = l ∨ i = r) := by
  simp only [childrenOf, List.mem_flatMap]
  constructor
  · rintro ⟨n, hn, hi⟩
    obtain ⟨j, hj⟩ := List.mem_iff_getElem?.1 hn
    cases n with
    | leaf s w => simp at hi
    | internal l r w => exact ⟨j, l, r, w, hj, by simpa using hi⟩
  · rintro ⟨j, l, r, w, hj, hi⟩
    exact ⟨_, List.mem_of_getElem? hj, by simpa using hi⟩

theorem nodeOk_append {nodes : List Node} {n i : Nat} {x : Node} (hi : i ≤ nodes.length)
    (h : nodeOk nodes n i x = true) (more : List Node) : nodeOk (nodes ++ more) n i x = true := by
  cases x with
  | leaf s w => exact h
  | internal l r w =>
    simp only [nodeOk, Bool.and_eq_true, decide_eq_true_eq, beq_iff_eq] at h ⊢
    obtain ⟨⟨⟨hn, hl⟩, hr⟩, hw⟩ := h
    rw [weightAt_append (by omega), weightAt_append (by omega)]
    exact ⟨⟨⟨hn, hl⟩, hr⟩, hw⟩

/-- A child stands before its parent (R40). -/
theorem lt_of_mem_childrenOf {nodes : List Node} {n i : Nat}
    (hok : ∀ j x, nodes[j]? = some x → nodeOk nodes n j x = true) (h : i ∈ childrenOf nodes) :
    i + 1 < nodes.length := by
  obtain ⟨j, l, r, w, hj, hi⟩ := mem_childrenOf.1 h
  have hj' := (List.getElem?_eq_some_iff.1 hj).1
  have hnode := hok j _ hj
  simp only [nodeOk, Bool.and_eq_true, decide_eq_true_eq] at hnode
  omega

theorem mem_unmerged {nodes : List Node} {i : Nat} :
    i ∈ unmerged nodes ↔ i < nodes.length ∧ i ∉ childrenOf nodes := by
  simp [unmerged]

theorem unmerged_nodup (nodes : List Node) : (unmerged nodes).Nodup := List.nodup_range.filter _

/-- A new internal node takes its two children out of the unmerged indices and joins them itself. -/
theorem unmerged_append_internal {nodes : List Node} {x y w : Nat} (hx : x < nodes.length)
    (hy : y < nodes.length) (hnew : nodes.length ∉ childrenOf nodes) :
    unmerged (nodes ++ [.internal x y w]) =
      ((unmerged nodes).erase x).erase y ++ [nodes.length] := by
  rw [((unmerged_nodup nodes).erase x).erase_eq_filter, (unmerged_nodup nodes).erase_eq_filter]
  simp only [unmerged, childrenOf_append, childrenOf_internal, List.length_append,
    List.length_singleton, List.range_succ, List.filter_append, List.filter_filter]
  congr 1
  · refine List.filter_congr fun i _ => ?_
    rw [Bool.eq_iff_iff]
    simp only [List.mem_append, List.mem_cons, List.not_mem_nil, or_false, not_or, Bool.decide_and,
      decide_not, Bool.and_eq_true, Bool.not_eq_eq_eq_not, Bool.not_true, decide_eq_false_iff_not,
      bne_iff_ne, ne_eq]
    tauto
  · have hxn : nodes.length ≠ x := by omega
    have hyn : nodes.length ≠ y := by omega
    simp [hnew, hxn, hyn]

/-! ### The leaves of a frequency table -/

@[simp] theorem length_leavesOf (f : FreqTable) : (leavesOf f).length = f.length := by
  simp [leavesOf]

@[simp] theorem childrenOf_leavesOf (f : FreqTable) : childrenOf (leavesOf f) = [] := by
  simp [childrenOf, leavesOf, List.flatMap_map]

@[simp] theorem leafSymbols_leavesOf (f : FreqTable) : leafSymbols (leavesOf f) = keys f := by
  simp [leafSymbols, leavesOf, keys, List.flatMap_map, ← List.map_eq_flatMap]

theorem getElem?_leavesOf (f : FreqTable) (i : Nat) :
    (leavesOf f)[i]? = f[i]?.map fun e => .leaf e.1 e.2 := by
  simp [leavesOf]

/-- The weights of the leaves, in order, are the counts. -/
theorem map_weightAt_leavesOf (f : FreqTable) :
    (List.range f.length).map (weightAt (leavesOf f)) = f.map (·.2) := by
  refine List.ext_getElem (by simp) fun i h _ => ?_
  have hi : i < f.length := by simpa using h
  simp [weightAt, leavesOf, hi, Node.weight]

@[simp] theorem unmerged_leavesOf (f : FreqTable) :
    unmerged (leavesOf f) = List.range f.length := by
  simp [unmerged]

/-! ### Node order (R84) -/

theorem precedes_iff {nodes : List Node} {x y : Nat} :
    precedes nodes x y = true ↔ weightAt nodes x < weightAt nodes y ∨
      (weightAt nodes x = weightAt nodes y ∧ x < y) := by
  simp [precedes]

/-- The least key of a collection is in it, and no other key is less. -/
theorem leastKey_eq_some {nodes : List Node} {q : List Nat} {x : Nat}
    (h : leastKey nodes q = some x) : x ∈ q ∧ ∀ z ∈ q, z ≠ x → precedes nodes x z = true := by
  induction q generalizing x with
  | nil => cases h
  | cons i q ih =>
    simp only [leastKey] at h
    cases hq : leastKey nodes q with
    | none =>
      have hnil : q = [] := by
        cases q with
        | nil => rfl
        | cons j q => simp only [leastKey] at hq; split at hq <;> cases hq
      simp only [hq, Option.some.injEq] at h
      subst h hnil
      simp
    | some j =>
      obtain ⟨hj, hleast⟩ := ih hq
      simp only [hq, Option.some.injEq] at h
      split_ifs at h with hp <;> subst h
      · refine ⟨List.mem_cons_self .., fun z hz hne => ?_⟩
        rcases List.mem_cons.1 hz with rfl | hz
        · exact absurd rfl hne
        by_cases hzj : z = j
        · exact hzj ▸ hp
        have := hleast z hz hzj
        rw [precedes_iff] at *
        omega
      · refine ⟨List.mem_cons_of_mem _ hj, fun z hz hne => ?_⟩
        rcases List.mem_cons.1 hz with rfl | hz
        · rw [precedes_iff] at *
          omega
        · exact hleast z hz hne

@[simp] theorem leastKey_eq_none {nodes : List Node} {q : List Nat} :
    leastKey nodes q = none ↔ q = [] := by
  cases q with
  | nil => simp [leastKey]
  | cons i q => simp only [leastKey]; split <;> simp

/-- The least key does not depend on the order a collection is held in. -/
theorem leastKey_perm (nodes : List Node) {q r : List Nat} (h : q.Perm r) :
    leastKey nodes q = leastKey nodes r := by
  cases hq : leastKey nodes q with
  | none =>
    have hnil : r = [] := (leastKey_eq_none.1 hq ▸ h).symm.eq_nil
    rw [hnil, leastKey_eq_none.2 rfl]
  | some x =>
    cases hr : leastKey nodes r with
    | none =>
      have hnil : q = [] := (leastKey_eq_none.1 hr ▸ h).eq_nil
      rw [hnil] at hq
      cases hq
    | some y =>
      obtain ⟨hx, hxleast⟩ := leastKey_eq_some hq
      obtain ⟨hy, hyleast⟩ := leastKey_eq_some hr
      by_contra hne
      have hxy : x ≠ y := fun e => hne (congrArg some e)
      have h1 := precedes_iff.1 (hxleast y (h.mem_iff.2 hy) (Ne.symm hxy))
      have h2 := precedes_iff.1 (hyleast x (h.mem_iff.1 hx) hxy)
      omega

/-- A merge takes out two members and leaves the rest. -/
theorem takeTwo_eq_some {nodes : List Node} {q q' : List Nat} {x y : Nat}
    (h : takeTwo nodes q = some (x, y, q')) :
    x ∈ q ∧ y ∈ q.erase x ∧ q' = (q.erase x).erase y := by
  unfold takeTwo at h
  split at h
  · cases h
  next hx =>
  split at h
  · cases h
  next hy =>
  cases h
  exact ⟨(leastKey_eq_some hx).1, (leastKey_eq_some hy).1, rfl⟩

/-- A merge fails exactly when fewer than two are left. -/
theorem takeTwo_eq_none {nodes : List Node} {q : List Nat} :
    takeTwo nodes q = none ↔ q.length < 2 := by
  unfold takeTwo
  split
  next hx => simp [leastKey_eq_none.1 hx]
  next x hx =>
  have hlen := List.length_erase_of_mem (leastKey_eq_some hx).1
  have hpos := List.length_pos_of_mem (leastKey_eq_some hx).1
  split
  next hy =>
    have : (q.erase x).length = 0 := by rw [leastKey_eq_none.1 hy]; rfl
    simp only [true_iff]
    omega
  next y hy =>
    have := List.length_pos_of_mem (leastKey_eq_some hy).1
    simp only [reduceCtorEq, false_iff]
    omega

/-- The node a merge creates (R85). -/
def mergeNode (nodes : List Node) (m : Nat × Nat × List Nat) : Node :=
  .internal m.1 m.2.1 (weightAt nodes m.1 + weightAt nodes m.2.1)

/-- The node a merge creates does not depend on the order the collection is held in. -/
theorem map_mergeNode_takeTwo_perm (nodes : List Node) {q r : List Nat} (h : q.Perm r) :
    (takeTwo nodes q).map (mergeNode nodes) = (takeTwo nodes r).map (mergeNode nodes) := by
  unfold takeTwo
  rw [leastKey_perm nodes h]
  cases leastKey nodes r with
  | none => rfl
  | some x =>
    dsimp only
    rw [leastKey_perm nodes (h.erase x)]
    cases leastKey nodes (r.erase x) <;> rfl

/-! ### The loop of R85 -/

/-- What the loop keeps: the array `nodes` so far is the forest of R40 whose roots, the indices in
`q`, are those with no parent yet, and its internal nodes are R85's merges in order. -/
structure MergeInv (f : FreqTable) (nodes : List Node) (q : List Nat) : Prop where
  queue : q.Perm (unmerged nodes)
  queue_ne : q ≠ []
  size : nodes.length + q.length = 2 * f.length
  leaves_le : f.length ≤ nodes.length
  nodeOk : ∀ i x, nodes[i]? = some x → nodeOk nodes f.length i x = true
  symbols : leafSymbols nodes = keys f
  children : (childrenOf nodes).Nodup
  weights : (q.map (weightAt nodes)).sum = FreqTable.total f
  bounded : ∀ x ∈ nodes, x.weight ≤ countMax
  merged : ∀ j, f.length ≤ j → j < nodes.length →
    nodes[j]? = (takeTwo (nodes.take j) (unmerged (nodes.take j))).map (mergeNode (nodes.take j))

theorem mergeInv_leavesOf {p : Params} {f : FreqTable} (hf : FreqTable.wf p f) (hne : f ≠ []) :
    MergeInv f (leavesOf f) (List.range f.length) := by
  obtain ⟨_, hentry, _, htotal⟩ := hf
  have hentry_le : ∀ e ∈ f, e.2 ≤ countMax := fun e he =>
    (List.single_le_sum (by simp) e.2 (List.mem_map_of_mem he)).trans htotal
  refine
    { queue := by simp
      queue_ne := by simpa using hne
      size := by rw [length_leavesOf, List.length_range]; omega
      leaves_le := by simp
      nodeOk := fun i x hx => ?_
      symbols := leafSymbols_leavesOf f
      children := by simp
      weights := by rw [map_weightAt_leavesOf]; rfl
      bounded := fun x hx => ?_
      merged := fun j h1 h2 => absurd h2 (by simpa using h1) }
  · rw [getElem?_leavesOf, Option.map_eq_some_iff] at hx
    obtain ⟨e, he, rfl⟩ := hx
    simp [Machine.nodeOk, (List.getElem?_eq_some_iff.1 he).1, hentry e (List.mem_of_getElem? he)]
  · obtain ⟨e, he, rfl⟩ := List.mem_map.1 hx
    exact hentry_le e he

section Step

variable {f : FreqTable} {nodes : List Node} {q q' : List Nat} {x y : Nat}
variable (hinv : MergeInv f nodes q) (htake : takeTwo nodes q = some (x, y, q'))
include hinv

theorem MergeInv.length_notMem_childrenOf : nodes.length ∉ childrenOf nodes := fun h => by
  have := lt_of_mem_childrenOf hinv.nodeOk h
  omega

theorem MergeInv.lt_of_mem_queue {i : Nat} (h : i ∈ q) : i < nodes.length :=
  (mem_unmerged.1 (hinv.queue.mem_iff.1 h)).1

include htake

/-- The two indices a merge takes out are different roots of the forest, and the rest stays. -/
theorem MergeInv.taken :
    (x < nodes.length ∧ x ∉ childrenOf nodes) ∧ (y < nodes.length ∧ y ∉ childrenOf nodes) ∧ x ≠ y ∧
      q.Perm (x :: y :: q') := by
  obtain ⟨hx, hy, rfl⟩ := takeTwo_eq_some htake
  have hnodup : q.Nodup := hinv.queue.nodup_iff.2 (unmerged_nodup nodes)
  obtain ⟨hyx, hy'⟩ := hnodup.mem_erase_iff.1 hy
  exact ⟨mem_unmerged.1 (hinv.queue.mem_iff.1 hx), mem_unmerged.1 (hinv.queue.mem_iff.1 hy'),
    Ne.symm hyx, (List.perm_cons_erase hx).trans ((List.perm_cons_erase hy).cons x)⟩

/-- The weights of the roots add up to the whole text's. -/
theorem MergeInv.sum_weights_taken :
    weightAt nodes x + weightAt nodes y + (q'.map (weightAt nodes)).sum = FreqTable.total f := by
  obtain ⟨-, -, -, hperm⟩ := hinv.taken htake
  rw [← hinv.weights, (hperm.map _).sum_eq, List.map_cons, List.map_cons, List.sum_cons,
    List.sum_cons, Nat.add_assoc]

theorem MergeInv.step_nodeOk {i : Nat} {z : Node}
    (hz : (nodes ++ [mergeNode nodes (x, y, q')])[i]? = some z) :
    Machine.nodeOk (nodes ++ [mergeNode nodes (x, y, q')]) f.length i z = true := by
  obtain ⟨⟨hx, -⟩, ⟨hy, -⟩, -, -⟩ := hinv.taken htake
  by_cases hi : i < nodes.length
  · rw [List.getElem?_append_left hi] at hz
    exact nodeOk_append hi.le (hinv.nodeOk i z hz) _
  · have hlt := (List.getElem?_eq_some_iff.1 hz).1
    rw [List.length_append, List.length_singleton] at hlt
    obtain rfl : i = nodes.length := by omega
    rw [List.getElem?_concat_length, Option.some.injEq] at hz
    subst hz
    simp [mergeNode, Machine.nodeOk, weightAt_append, hx, hy, hinv.leaves_le]

theorem MergeInv.step_weights :
    ((q' ++ [nodes.length]).map (weightAt (nodes ++ [mergeNode nodes (x, y, q')]))).sum =
      FreqTable.total f := by
  have hnew : weightAt (nodes ++ [mergeNode nodes (x, y, q')]) nodes.length =
      weightAt nodes x + weightAt nodes y := by
    simp [weightAt, mergeNode, Node.weight]
  obtain ⟨-, -, -, hperm⟩ := hinv.taken htake
  have hold : ∀ i ∈ q', weightAt (nodes ++ [mergeNode nodes (x, y, q')]) i = weightAt nodes i :=
    fun i hi => weightAt_append (hinv.lt_of_mem_queue (hperm.mem_iff.2 (by simp [hi]))) _
  have hsum := hinv.sum_weights_taken htake
  rw [List.map_append, List.sum_append, List.map_singleton, List.sum_singleton, hnew,
    List.map_congr_left hold]
  omega

theorem MergeInv.step_merged {j : Nat} (hj : f.length ≤ j) (hlt : j < nodes.length + 1) :
    (nodes ++ [mergeNode nodes (x, y, q')])[j]? =
      (takeTwo (nodes.take j) (unmerged (nodes.take j))).map (mergeNode (nodes.take j)) := by
  by_cases hold : j < nodes.length
  · rw [List.getElem?_append_left hold]
    exact hinv.merged j hj hold
  · obtain rfl : j = nodes.length := by omega
    rw [List.take_length, ← map_mergeNode_takeTwo_perm nodes hinv.queue, htake,
      List.getElem?_concat_length, Option.map_some]

/-- One merge keeps the invariant. -/
theorem MergeInv.step (htotal : FreqTable.total f ≤ countMax) :
    MergeInv f (nodes ++ [mergeNode nodes (x, y, q')]) (q' ++ [nodes.length]) := by
  obtain ⟨⟨hx, hxchild⟩, ⟨hy, hychild⟩, hxy, hperm⟩ := hinv.taken htake
  obtain ⟨-, -, hq'⟩ := takeTwo_eq_some htake
  have hsum := hinv.sum_weights_taken htake
  have hlen := hperm.length_eq
  have hsize := hinv.size
  have hleaves := hinv.leaves_le
  simp only [List.length_cons] at hlen
  refine
    { queue := ?_
      queue_ne := by simp
      size := by simp only [List.length_append, List.length_singleton]; omega
      leaves_le := by simp only [List.length_append, List.length_singleton]; omega
      nodeOk := fun i z => hinv.step_nodeOk htake
      symbols := by rw [leafSymbols_append, hinv.symbols]; exact List.append_nil _
      children := ?_
      weights := hinv.step_weights htake
      bounded := fun z hz => ?_
      merged := fun j h1 h2 => ?_ }
  · rw [mergeNode, unmerged_append_internal hx hy hinv.length_notMem_childrenOf, hq']
    exact ((hinv.queue.erase x).erase y).append_right _
  · rw [childrenOf_append]
    refine hinv.children.append (by simpa [mergeNode] using hxy) ?_
    simp [mergeNode, List.disjoint_right, hxchild, hychild]
  · rcases List.mem_append.1 hz with hz | hz
    · exact hinv.bounded z hz
    · rw [List.mem_singleton.1 hz]
      simp only [mergeNode, Node.weight]
      omega
  · rw [List.length_append, List.length_singleton] at h2
    rw [List.take_append_of_le_length (by omega)]
    exact hinv.step_merged htake h1 h2

end Step

/-- The loop ends with one index left, the root. -/
theorem mergeInv_mergeLoop {f : FreqTable} (htotal : FreqTable.total f ≤ countMax) (fuel : Nat)
    {nodes : List Node} {q : List Nat} (hinv : MergeInv f nodes q) (hfuel : q.length ≤ fuel) :
    ∃ r, MergeInv f (mergeLoop fuel nodes q) [r] := by
  induction fuel generalizing nodes q with
  | zero => exact absurd (List.length_eq_zero_iff.1 (Nat.le_zero.1 hfuel)) hinv.queue_ne
  | succ fuel ih =>
    rw [mergeLoop]
    split
    next hnone =>
      have hlt := takeTwo_eq_none.1 hnone
      have hpos := List.length_pos_iff.2 hinv.queue_ne
      obtain ⟨r, rfl⟩ := List.length_eq_one_iff.1 (by omega : q.length = 1)
      exact ⟨r, hinv⟩
    next x y q' hsome =>
      obtain ⟨hx, hy, rfl⟩ := takeTwo_eq_some hsome
      have hlen := List.length_erase_of_mem hx
      have hlen' := List.length_erase_of_mem hy
      refine ih (hinv.step hsome htotal) ?_
      have hpos := List.length_pos_of_mem hy
      rw [List.length_append, List.length_singleton]
      omega

/-! ### The tree that is left -/

/-- With one index left, the array is a Huffman tree of R40. -/
theorem MergeInv.tree_wf {f : FreqTable} {nodes : List Node} {r : Nat}
    (hinv : MergeInv f nodes [r]) (hasc : Ascending f) (hne : f ≠ []) :
    Tree.wf ⟨nodes, f.length⟩ := by
  have hpos := List.length_pos_iff.2 hne
  have hsize := hinv.size
  rw [List.length_singleton] at hsize
  have hunmerged : unmerged nodes = [r] := List.perm_singleton.1 hinv.queue.symm
  have hroot : nodes.length - 1 = r := by
    have hmem : nodes.length - 1 ∈ unmerged nodes :=
      mem_unmerged.2 ⟨by omega, fun h => by have := lt_of_mem_childrenOf hinv.nodeOk h; omega⟩
    simpa [hunmerged] using hmem
  refine ⟨hpos, by dsimp only; omega,
    fun i => hinv.nodeOk i _ (List.getElem?_eq_getElem i.isLt), ?_, ?_, hinv.bounded⟩
  · rw [hinv.symbols]
    exact List.pairwise_map.2 hasc
  · intro i hi
    simp only [Tree.root] at hi
    refine List.count_eq_one_of_mem hinv.children ?_
    by_contra hchild
    have hmem : i ∈ unmerged nodes := mem_unmerged.2 ⟨by omega, hchild⟩
    simp only [hunmerged, List.mem_singleton] at hmem
    omega

theorem MergeInv.tree_merged {f : FreqTable} {nodes : List Node} {r : Nat}
    (hinv : MergeInv f nodes [r]) : Tree.Merged ⟨nodes, f.length⟩ := by
  intro k hk
  have hsize := hinv.size
  rw [List.length_singleton] at hsize
  dsimp only at hk ⊢
  rw [hinv.merged (f.length + k) (by omega) (by omega)]
  refine Option.map_congr fun m hm => ?_
  obtain ⟨x, y, q⟩ := m
  obtain ⟨hx, hy, -⟩ := takeTwo_eq_some hm
  have hlt : ∀ i ∈ unmerged (nodes.take (f.length + k)), i < f.length + k := fun i hi =>
    (mem_unmerged.1 hi).1.trans_le (List.length_take_le ..)
  simp only [mergeNode, weightAt_take (hlt x hx), weightAt_take (hlt y (List.mem_of_mem_erase hy))]

theorem mergeInv_buildTree {p : Params} {f : FreqTable} (hf : FreqTable.wf p f) (hne : f ≠ []) :
    ∃ r, MergeInv f (buildTree f).nodes [r] :=
  mergeInv_mergeLoop hf.2.2.2 f.length (mergeInv_leavesOf hf hne) (by simp)

theorem buildTree_wf {p : Params} {f : FreqTable} (hf : FreqTable.wf p f) (hne : f ≠ []) :
    Tree.wf (buildTree f) := by
  obtain ⟨r, hinv⟩ := mergeInv_buildTree hf hne
  exact hinv.tree_wf hf.1 hne

/-- Settles O20: the invariant of R85's loop at its end, where one index is left. -/
theorem builtTreeIsHuffmanTree : Obligations.BuiltTreeIsHuffmanTree := by
  unfold Obligations.BuiltTreeIsHuffmanTree
  intro p f hf hne
  obtain ⟨r, hinv⟩ := mergeInv_buildTree hf hne
  exact ⟨buildTree_wf hf hne, hinv.tree_merged, hinv.symbols, rfl⟩

end Sys2Proof.Machine

/-! What a command can do (40_command_model.md R76-R81), said once: the frame of each stage, the
errors a stage raises, and an induction along the stages of a command to its completion. -/

namespace Sys2Proof.Machine

/-! ### Stages by name -/

/-- The stage a stage command runs (R80); the other commands are no stage. -/
def stageOf : Instr → State → StageResult
  | .count => stageCount
  | .build => stageBuild
  | .gencode => stageGencode
  | .map => stageMap
  | .pack => stagePack
  | .serialize => stageSerialize
  | .deserialize => stageDeserialize
  | .unpack => stageUnpack
  | .walk => stageWalk
  | .nop | .encode | .decode | .query | .clear => .ok

/-- The state a stage leaves, whether it succeeds or fails. -/
def StageResult.state : StageResult → State
  | .ok s => s
  | .fail _ _ s => s

@[simp] theorem StageResult.state_ok (s : State) : (StageResult.ok s).state = s := rfl

@[simp] theorem StageResult.state_fail (e : ErrCode) (b : Byte) (s : State) :
    (StageResult.fail e b s).state = s := rfl

theorem runStages_singleton (f : State → StageResult) (s : State) : runStages [f] s = f s := by
  simp only [runStages]
  cases f s <;> rfl

/-- Every command but NOP, QUERY and CLEAR runs its stages in order and completes (R81). -/
theorem exec_eq_runStages {i : Instr} (h : stagesOf i ≠ []) (s : State) :
    exec i s = .next (runStages ((stagesOf i).map stageOf) s).complete := by
  cases i
  case nop | query | clear => exact absurd rfl h
  case encode | decode => rfl
  all_goals exact congrArg (fun r => Host.Outcome.next r.complete) (runStages_singleton _ s).symm

/-! ### Frames -/

/-- What stage `j` leaves as it was (R70): every store and result register it does not write, and
all else. -/
structure StageFrame (j : Instr) (s u : State) : Prop where
  freq : j ∉ [Instr.count, .deserialize] → u.freq = s.freq
  tree : j ∉ [Instr.build] → u.tree = s.tree
  codes : j ∉ [Instr.gencode] → u.codes = s.codes
  bits : j ∉ [Instr.map, .unpack] → u.bits = s.bits
  payload : j ∉ [Instr.pack, .deserialize] → u.payload = s.payload
  output : j ∉ [Instr.pack, .serialize, .walk] →
    u.outMem = s.outMem ∧ u.csr.outLen = s.csr.outLen
  padBits : j ∉ [Instr.pack] → u.csr.padBits = s.csr.padBits
  trailBits : j ∉ [Instr.walk] → u.csr.trailBits = s.csr.trailBits
  rest : u = { s with
    freq := u.freq, tree := u.tree, codes := u.codes, bits := u.bits, payload := u.payload
    outMem := u.outMem
    csr := { s.csr with
      outLen := u.csr.outLen, padBits := u.csr.padBits, trailBits := u.csr.trailBits } }

theorem stageOf_frame (j : Instr) (s : State) : StageFrame j s (stageOf j s).state := by
  cases j
  case' count => obtain ⟨_, -, h⟩ | ⟨_, -, h⟩ := stageCount_cases s
  case' build => obtain ⟨_, -, h⟩ | ⟨_, -, h⟩ := stageBuild_cases s
  case' gencode => obtain ⟨_, -, h⟩ | ⟨_, -, h⟩ := stageGencode_cases s
  case' map => obtain ⟨_, -, h⟩ | ⟨_, -, h⟩ := stageMap_cases s
  case' pack => obtain ⟨_, _, -, h⟩ | ⟨_, -, h⟩ := stagePack_cases s
  case' serialize => obtain ⟨_, -, h⟩ | ⟨_, -, h⟩ := stageSerialize_cases s
  case' deserialize => obtain ⟨_, _, -, h⟩ | ⟨_, -, h⟩ := stageDeserialize_cases s
  case' unpack => obtain ⟨_, -, h⟩ | ⟨_, -, h⟩ := stageUnpack_cases s
  case' walk => obtain ⟨_, _, -, h⟩ | ⟨_, -, h⟩ := stageWalk_cases s
  case nop | encode | decode | query | clear => constructor <;> intros <;> trivial
  all_goals
    rw [stageOf, h]
    constructor <;> simp [State.memWriteOut]

/-! ### The errors a stage raises (R125): never the code of success -/

/-- An error passed on is an error that was raised. -/
theorem error_ne_of_eq_error {α β : Type} {x : Except ErrCode α} {e : ErrCode}
    (hx : x ≠ .error .none) (h : x = .error e) : (.error e : Except ErrCode β) ≠ .error .none := by
  rintro ⟨⟩
  exact hx h

theorem State.input_ne_error_none (s : State) : s.input ≠ .error .none := by
  unfold State.input
  split_ifs <;> nofun

theorem countResult_ne_error_none (s : State) : countResult s ≠ .error .none := by
  unfold countResult
  split
  next hin => exact error_ne_of_eq_error s.input_ne_error_none hin
  unfold countFreq
  split
  · nofun
  · split_ifs <;> nofun

theorem buildResult_ne_error_none (f : Option FreqTable) : buildResult f ≠ .error .none := by
  unfold buildResult
  split
  · nofun
  · split_ifs <;> nofun

theorem gencodeResult_ne_error_none (p : Params) (t : Option Tree) :
    gencodeResult p t ≠ .error .none := by
  unfold gencodeResult
  split
  · nofun
  · split_ifs <;> nofun

theorem mapLoop_ne_error_none (p : Params) (c : CodeTable) (syms : List Symbol) (b : Bits) :
    mapLoop p c syms b ≠ .error .none := by
  induction syms generalizing b with
  | nil => nofun
  | cons k syms ih =>
    unfold mapLoop
    split
    · nofun
    · split_ifs
      · nofun
      · exact ih _

theorem mapResult_ne_error_none (s : State) : mapResult s ≠ .error .none := by
  unfold mapResult
  split
  · nofun
  split
  next hin => exact error_ne_of_eq_error s.input_ne_error_none hin
  unfold mapSymbols
  split
  · nofun
  · exact mapLoop_ne_error_none _ _ _ _

theorem packResult_ne_error_none (p : Params) (b : Option Bits) :
    packResult p b ≠ .error .none := by
  unfold packResult
  split
  · nofun
  · split_ifs <;> nofun

theorem serializeResult_ne_error_none (p : Params) (f : Option FreqTable)
    (pl : Option (List Byte)) : serializeResult p f pl ≠ .error .none := by
  unfold serializeResult
  split
  · nofun
  · nofun
  · unfold serialize
    split_ifs <;> nofun

theorem parseField_ne_error_none (fd : List Symbol) : parseField fd ≠ .error .none := by
  unfold parseField
  dsimp only
  split_ifs
  · nofun
  · nofun
  split
  · nofun
  · split <;> nofun

theorem addFields_ne_error_none (p : Params) (fds : List (List Symbol)) (f : FreqTable)
    (total : Nat) : addFields p fds f total ≠ .error .none := by
  induction fds generalizing f total with
  | nil => nofun
  | cons fd fds ih =>
    unfold addFields
    split
    next hfd => exact error_ne_of_eq_error (parseField_ne_error_none fd) hfd
    · split_ifs
      · nofun
      · nofun
      · nofun
      · exact ih _ _

theorem deserializeResult_ne_error_none (s : State) : deserializeResult s ≠ .error .none := by
  unfold deserializeResult
  split
  next hin => exact error_ne_of_eq_error s.input_ne_error_none hin
  unfold deserialize
  split
  · nofun
  split
  · nofun
  split
  next hparse =>
    refine error_ne_of_eq_error ?_ hparse
    unfold parseFreqText
    split_ifs
    · nofun
    · exact addFields_ne_error_none _ _ _ _
  · nofun

theorem unpackResult_ne_error_none (p : Params) (pl : Option (List Byte)) :
    unpackResult p pl ≠ .error .none := by
  unfold unpackResult
  split
  · nofun
  · split_ifs <;> nofun

theorem walkLoop_ne_error_none (p : Params) (t : Tree) (n : Nat) (b : Bits) (out : List Byte) :
    walkLoop p t n b out ≠ .error .none := by
  induction n generalizing b out with
  | zero => nofun
  | succ n ih =>
    unfold walkLoop
    split
    · nofun
    · split_ifs
      · nofun
      · exact ih _ _

theorem walkResult_ne_error_none (p : Params) (t : Option Tree) (b : Option Bits) :
    walkResult p t b ≠ .error .none := by
  unfold walkResult
  split
  · nofun
  · nofun
  split
  next hwalk =>
    refine error_ne_of_eq_error ?_ hwalk
    unfold walkDecode
    split
    next hloop => exact error_ne_of_eq_error (walkLoop_ne_error_none _ _ _ _ _) hloop
    · nofun
  · nofun

/-- A stage that fails names an error. -/
theorem stageOf_fail {j : Instr} {s u : State} {e : ErrCode} {b : Byte}
    (h : stageOf j s = .fail e b u) : e ≠ .none := by
  rintro rfl
  cases j
  case' count => obtain ⟨_, -, hj⟩ | ⟨_, he, hj⟩ := stageCount_cases s
  case' build => obtain ⟨_, -, hj⟩ | ⟨_, he, hj⟩ := stageBuild_cases s
  case' gencode => obtain ⟨_, -, hj⟩ | ⟨_, he, hj⟩ := stageGencode_cases s
  case' map => obtain ⟨_, -, hj⟩ | ⟨_, he, hj⟩ := stageMap_cases s
  case' pack => obtain ⟨_, _, -, hj⟩ | ⟨_, he, hj⟩ := stagePack_cases s
  case' serialize => obtain ⟨_, -, hj⟩ | ⟨_, he, hj⟩ := stageSerialize_cases s
  case' deserialize => obtain ⟨_, _, -, hj⟩ | ⟨_, he, hj⟩ := stageDeserialize_cases s
  case' unpack => obtain ⟨_, -, hj⟩ | ⟨_, he, hj⟩ := stageUnpack_cases s
  case' walk => obtain ⟨_, _, -, hj⟩ | ⟨_, he, hj⟩ := stageWalk_cases s
  case nop | encode | decode | query | clear => cases h
  all_goals
    rw [stageOf, hj] at h
    cases h
  case count => exact countResult_ne_error_none _ he
  case build => exact buildResult_ne_error_none _ he
  case gencode => exact gencodeResult_ne_error_none _ _ he
  case map => exact mapResult_ne_error_none _ he
  case pack => exact packResult_ne_error_none _ _ he
  case serialize => exact serializeResult_ne_error_none _ _ _ he
  case deserialize => exact deserializeResult_ne_error_none _ he
  case unpack => exact unpackResult_ne_error_none _ _ he
  case walk => exact walkResult_ne_error_none _ _ _ he

/-! ### From a command's first stage to its completion -/

section Induction

variable {P Q : State → Prop}

/-- A property that every stage keeps holds where the completion begins, and gives there what either
completion makes of it. -/
theorem runStages_complete {js : List Instr}
    (stage : ∀ j ∈ js, ∀ u, P u → P (stageOf j u).state)
    (ok : ∀ u, P u → Q u.completeOk)
    (error : ∀ u e b, e ≠ .none → P u → Q (u.completeError e b)) {s : State} (hs : P s) :
    Q (runStages (js.map stageOf) s).complete := by
  induction js generalizing s with
  | nil => exact ok s hs
  | cons j js ih =>
    have hu := stage j (List.mem_cons_self ..) s hs
    rw [List.map_cons]
    cases hj : stageOf j s with
    | ok u =>
      rw [hj] at hu
      rw [runStages_cons_ok hj]
      exact ih (fun k hk => stage k (List.mem_cons_of_mem _ hk)) hu
    | fail e b u =>
      rw [hj] at hu
      rw [runStages_cons_fail hj]
      exact error u e b (stageOf_fail hj) hu

/-- The same for every command: NOP only completes, QUERY and CLEAR do after their own effect. -/
theorem exec_induction {i : Instr} {s t : State} (h : exec i s = .next t) (hs : P s)
    (stage : ∀ j ∈ stagesOf i, ∀ u, P u → P (stageOf j u).state)
    (query : i = .query → P s.queried) (clear : i = .clear → P s.cleared)
    (ok : ∀ u, P u → Q u.completeOk)
    (error : ∀ u e b, e ≠ .none → P u → Q (u.completeError e b)) : Q t := by
  by_cases hi : stagesOf i = []
  · cases i
    case nop => cases h; exact ok _ hs
    case query => cases h; exact ok _ (query rfl)
    case clear => cases h; exact ok _ (clear rfl)
    all_goals cases hi
  · rw [exec_eq_runStages hi] at h
    cases h
    exact runStages_complete stage ok error hs

end Induction

end Sys2Proof.Machine

/-! The host's accesses (20_memory.md R48-R62): reads have no side effect, what each CSR write
stores, and everything an access can do, said once. -/

namespace Sys2Proof.Machine

/-! ### Reads (R15, R37, R47, R56) -/

/-- The registers R47 lets a read see while BUSY. -/
theorem Reg.readableWhileBusy_eq_false_iff (r : Reg) :
    r.readableWhileBusy = false ↔ r ∉ [Reg.id, .ctrl, .cmd, .status, .inLen, .qsym, .qword] := by
  cases r <;> decide

theorem State.readCsr_offset (s : State) (r : Reg) :
    s.readCsr r.offset =
      if s.phase = .busy ∧ r.readableWhileBusy = false then
        { s with response := .data .b4 (Config.freeWord s.draws), draws := s.draws + 1 }
      else { s with response := .data .b4 (s.regValue r) } := by
  rw [State.readCsr, regAt_offset]
  rfl

theorem State.readCsr_reserved (s : State) {off : Nat} (h : 0x54 ≤ off) :
    s.readCsr off = { s with response := .data .b4 0 } := by
  rw [State.readCsr, regAt_reserved h]
  rfl

/-- A read changes the answer and the count of free values only. -/
theorem hostAccess_rd (s : State) (size : Size) (addr : Nat) :
    ∃ r d, hostAccess (.rd size addr) s = { s with response := r, draws := d } := by
  simp only [hostAccess]
  split
  next off _ =>
    unfold State.readCsr
    split
    · exact ⟨_, _, rfl⟩
    · split_ifs
      · exact ⟨_, _, rfl⟩
      · exact ⟨_, _, rfl⟩
  all_goals exact ⟨_, _, rfl⟩

theorem hostAccess_rd_reg (s : State) (r : Reg) :
    hostAccess (.rd .b4 (s.params.base + r.offset)) s =
      if s.phase = .busy ∧ r ∉ [Reg.id, .ctrl, .cmd, .status, .inLen, .qsym, .qword] then
        { s with response := .data .b4 (Config.freeWord s.draws), draws := s.draws + 1 }
      else { s with response := .data .b4 (s.regValue r) } := by
  obtain ⟨hlt, halign⟩ := r.offset_lt
  rw [hostAccess_rd_csr s (by omega) halign, s.readCsr_offset r]
  simp only [Reg.readableWhileBusy_eq_false_iff]

/-- A row of R15's map: a register beside its own offset. -/
theorem Reg.offset_of_mem_map {off : Nat} {r : Reg}
    (h : (off, r) ∈ Reg.all.map fun g => (g.offset, g)) : r.offset = off := by
  obtain ⟨g, -, hg⟩ := List.mem_map.1 h
  cases hg
  rfl

/-- Settles O50: a read's whole effect, and the CSR map on both sides of its end. -/
theorem readsHaveNoSideEffect : Obligations.ReadsHaveNoSideEffect := by
  unfold Obligations.ReadsHaveNoSideEffect
  refine ⟨hostAccess_rd, hostAccess_rd_reg, fun s off r hmap => ?_,
    fun s off hlow hhigh halign => ?_⟩
  · rw [← Reg.offset_of_mem_map hmap]
    exact hostAccess_rd_reg s r
  · rw [hostAccess_rd_csr s (by omega) halign, s.readCsr_reserved hlow]

/-! ### CSR writes (R17, R19, R21, R32, R33, R37) -/

theorem hostAccess_wr_reg (s : State) (w : Word) (r : Reg) :
    hostAccess (.wr .b4 (s.params.base + r.offset) w) s =
      (s.writeCsr r.offset w).respond .written :=
  hostAccess_wr_csr s w (by have := r.offset_lt; omega) r.offset_lt.2

/-- A write-one-to-clear bit, said as R19 says it. -/
theorem Status.clearOnes_eq (f : Status) (w : Word) :
    f.clearOnes w =
      { busy := f.busy
        done := if w.getLsbD 1 then false else f.done
        err := if w.getLsbD 2 then false else f.err
        dropped := if w.getLsbD 3 then false else f.dropped } := by
  have hclear : ∀ b c : Bool, (b && !c) = if c then false else b := by decide
  simp only [Status.clearOnes, hclear]

/-- A CSR write outside the six offsets that take one changes nothing. -/
theorem State.writeCsr_ignored (s : State) (w : Word) {off : Nat}
    (h : off ∉ [0x004, 0x008, 0x00C, 0x014, 0x040, 0x044]) : s.writeCsr off w = s := by
  cases hreg : regAt off with
  | none => simp only [State.writeCsr, hreg]
  | some r =>
    obtain rfl := offset_of_regAt hreg
    rw [State.writeCsr_offset]
    cases r
    case ctrl | cmd | status | inLen | qsym | qword => exact absurd (by decide) h
    all_goals rfl

/-- Settles O53: each written register at its offset, and every other offset ignored. -/
theorem csrWritesStoreWhatTheSpecSays : Obligations.CsrWritesStoreWhatTheSpecSays := by
  unfold Obligations.CsrWritesStoreWhatTheSpecSays
  intro s w
  refine ⟨hostAccess_wr_reg s w .ctrl, ?_, fun hidle => ⟨?_, ?_, ?_⟩, fun off hoff halign hne => ?_⟩
  · rw [← Status.clearOnes_eq]
    exact hostAccess_wr_reg s w .status
  · exact (hostAccess_wr_reg s w .inLen).trans
      (congrArg (·.respond .written) (State.unlessBusy_idle hidle))
  · exact (hostAccess_wr_reg s w .qsym).trans
      (congrArg (·.respond .written) (State.unlessBusy_idle hidle))
  · exact (hostAccess_wr_reg s w .qword).trans
      (congrArg (·.respond .written) (State.unlessBusy_idle hidle))
  · rw [hostAccess_wr_csr s w (by omega) halign, s.writeCsr_ignored w hne]
    rfl

/-! ### Everything an access can do -/

/-- What one host access can make of a state: an answer alone, a dropped write, a write to CTRL or
STATUS, or while IDLE an acceptance, a write to an operand register, or bytes of IN_MEM. -/
inductive HostEffect (s : State) : State → Prop
  | answer (r : Response) (d : Nat) : HostEffect s { s with response := r, draws := d }
  | dropped (r : Response) (h : s.phase = .busy) :
    HostEffect s { s with
      csr := { s.csr with status := s.csr.status.setDropped }, response := r }
  | ctrl (r : Response) (ie : Bool) :
    HostEffect s { s with csr := { s.csr with ctrlIE := ie }, response := r }
  | status (r : Response) (w : Word) :
    HostEffect s { s with csr := { s.csr with status := s.csr.status.clearOnes w }, response := r }
  | accept (r : Response) (w : Word) (h : s.phase = .idle) : HostEffect s ((s.accept w).respond r)
  | operand (r : Response) (inLen : Word) (qsym : BitVec 21) (qword : Word) (h : s.phase = .idle) :
    HostEffect s { s with
      csr := { s.csr with inLen := inLen, qsym := qsym, qword := qword }, response := r }
  | inMem (r : Response) (off : Nat) (bs : List Byte) (h : s.phase = .idle)
    (hfits : off + bs.length ≤ s.params.inCap) :
    HostEffect s { s with inMem := s.inMem.writeBytes off bs, response := r }

/-- A write that is dropped while BUSY has one of two effects. -/
theorem hostEffect_unlessBusy {s t : State} (r : Response)
    (h : s.phase = .idle → HostEffect s (t.respond r)) :
    HostEffect s ((s.unlessBusy t).respond r) := by
  cases hp : s.phase with
  | idle =>
    rw [State.unlessBusy_idle hp]
    exact h hp
  | busy =>
    rw [State.unlessBusy_busy hp]
    exact .dropped r hp

theorem hostEffect_writeCsr (s : State) (off : Nat) (w : Word) (r : Response) :
    HostEffect s ((s.writeCsr off w).respond r) := by
  cases hreg : regAt off with
  | none =>
    simp only [State.writeCsr, hreg]
    exact .answer r s.draws
  | some g =>
    obtain rfl := offset_of_regAt hreg
    rw [State.writeCsr_offset]
    cases g
    case cmd => exact hostEffect_unlessBusy r (.accept r w)
    case ctrl => exact .ctrl r _
    case status => exact .status r w
    case inLen => exact hostEffect_unlessBusy r (.operand r w s.csr.qsym s.csr.qword)
    case qsym => exact hostEffect_unlessBusy r (.operand r s.csr.inLen _ s.csr.qword)
    case qword => exact hostEffect_unlessBusy r (.operand r s.csr.inLen s.csr.qsym w)
    all_goals exact .answer r s.draws

theorem hostEffect_hostAccess (a : Access) (s : State) : HostEffect s (hostAccess a s) := by
  cases a with
  | rd size addr =>
    obtain ⟨r, d, h⟩ := hostAccess_rd s size addr
    rw [h]
    exact .answer r d
  | wr size addr v =>
    simp only [hostAccess]
    split
    next off _ => exact hostEffect_writeCsr s off v _
    next off hloc =>
      refine hostEffect_unlessBusy _ fun hp => .inMem _ off _ hp ?_
      rw [length_busBytes]
      exact (locate_inMem_fits hloc).2
    all_goals exact .answer _ s.draws

end Sys2Proof.Machine

/-! What commands and steps keep, from the frames of the stages and the effects of an access: the
writers of each store and result (R70), and the sequencer's invariant (R14, R18-R20). -/

namespace Sys2Proof.Machine

section

variable {j : Instr} {s u : State}

theorem StageFrame.params (h : StageFrame j s u) : u.params = s.params := by rw [h.rest]

theorem StageFrame.inMem (h : StageFrame j s u) : u.inMem = s.inMem := by rw [h.rest]

theorem StageFrame.pending (h : StageFrame j s u) : u.pending = s.pending := by rw [h.rest]

theorem StageFrame.cmd (h : StageFrame j s u) : u.csr.cmd = s.csr.cmd := by rw [h.rest]

theorem StageFrame.status (h : StageFrame j s u) : u.csr.status = s.csr.status := by rw [h.rest]

theorem StageFrame.err (h : StageFrame j s u) : u.csr.err = s.csr.err := by rw [h.rest]

theorem StageFrame.query (h : StageFrame j s u) :
    (u.csr.qfreq, u.csr.qcodeLen, u.csr.qcode) = (s.csr.qfreq, s.csr.qcodeLen, s.csr.qcode) := by
  rw [h.rest]

end

/-! ### The writers of each store and result (R70) -/

/-- A part of the state that the completions leave alone changes only under the `commands`: those
that run a stage which writes it, CLEAR, and QUERY where QUERY writes it. -/
theorem exec_keeps {α : Type} (part : State → α) {i : Instr} {s t : State}
    {writers commands : List Instr} (h : exec i s = .next t) (hi : i ∉ commands)
    (stage : ∀ j u, j ∉ writers → part (stageOf j u).state = part u)
    (runs : ∀ k, k ∉ commands → k ≠ .clear ∧ ∀ j ∈ stagesOf k, j ∉ writers)
    (query : Instr.query ∉ commands → part s.queried = part s)
    (ok : ∀ u, part u.completeOk = part u := by exact fun _ => rfl)
    (error : ∀ u e b, part (u.completeError e b) = part u := by exact fun _ _ _ => rfl) :
    part t = part s := by
  obtain ⟨hclear, hstages⟩ := runs i hi
  exact exec_induction (P := fun u => part u = part s) (Q := fun u => part u = part s) h rfl
    (fun j hj u hu => (stage j u (hstages j hj)).trans hu) (fun hq => query (hq ▸ hi))
    (fun hc => absurd hc hclear) (fun u hu => (ok u).trans hu)
    (fun u e b _ hu => (error u e b).trans hu)

/-- Settles O47: the frame of each stage along the stages of each command. -/
theorem commandsWriteOnlyTheirStores : Obligations.CommandsWriteOnlyTheirStores := by
  unfold Obligations.CommandsWriteOnlyTheirStores
  intro i s t h
  refine ⟨fun hi => ?_, fun hi => ?_, fun hi => ?_, fun hi => ?_, fun hi => ?_⟩
  · exact exec_keeps State.freq h hi (fun j u => (stageOf_frame j u).freq)
      (fun k => by cases k <;> decide) fun _ => rfl
  · exact exec_keeps State.tree h hi (fun j u => (stageOf_frame j u).tree)
      (fun k => by cases k <;> decide) fun _ => rfl
  · exact exec_keeps State.codes h hi (fun j u => (stageOf_frame j u).codes)
      (fun k => by cases k <;> decide) fun _ => rfl
  · exact exec_keeps State.bits h hi (fun j u => (stageOf_frame j u).bits)
      (fun k => by cases k <;> decide) fun _ => rfl
  · exact exec_keeps State.payload h hi (fun j u => (stageOf_frame j u).payload)
      (fun k => by cases k <;> decide) fun _ => rfl

/-- Under a command that runs no stage writing the output, and is not CLEAR, the output stays unless
the command fails. -/
theorem exec_keeps_output {i : Instr} {s t : State} (h : exec i s = .next t)
    (hi : i ∉ [Instr.pack, .serialize, .walk, .encode, .decode, .clear])
    (herr : t.csr.status.err = false) : t.csr.outLen = s.csr.outLen ∧ t.outMem = s.outMem := by
  refine exec_induction (P := fun u => u.outMem = s.outMem ∧ u.csr.outLen = s.csr.outLen)
    (Q := fun u => u.csr.status.err = false → u.csr.outLen = s.csr.outLen ∧ u.outMem = s.outMem)
    h ⟨rfl, rfl⟩ (fun j hj u hu => ?_) (fun _ => ⟨rfl, rfl⟩)
    (by rintro rfl; exact absurd (by decide) hi) (fun u hu _ => hu.symm)
    (fun u e b _ _ he => nomatch he) herr
  have hwriters : j ∉ [Instr.pack, .serialize, .walk] := by
    revert j; cases i <;> revert hi <;> decide
  obtain ⟨hmem, hlen⟩ := (stageOf_frame j u).output hwriters
  exact ⟨hmem.trans hu.1, hlen.trans hu.2⟩

/-- A command that fails leaves OUT_LEN 0. -/
theorem exec_outLen_of_err {i : Instr} {s t : State} (h : exec i s = .next t)
    (hs : s.csr.status.err = false) (herr : t.csr.status.err = true) : t.csr.outLen = 0 :=
  exec_induction (P := fun u => u.csr.status.err = false)
    (Q := fun u => u.csr.status.err = true → u.csr.outLen = 0) h hs
    (fun j _ u hu => by rw [(stageOf_frame j u).status]; exact hu) (fun _ => hs) (fun _ => hs)
    (fun u hu he => nomatch hu.symm.trans he) (fun _ _ _ _ _ _ => rfl) herr

/-- Settles O48: the frame of each stage along the stages of each command, and what the completions
make of the output. -/
theorem commandsWriteOnlyTheirResults : Obligations.CommandsWriteOnlyTheirResults := by
  unfold Obligations.CommandsWriteOnlyTheirResults
  intro i s t hclear h
  refine ⟨fun hi => ?_, fun hi => ?_, fun hi => ?_, fun hi herr => ?_, fun herr => ?_⟩
  · exact exec_keeps (·.csr.padBits) h hi (fun j u => (stageOf_frame j u).padBits)
      (fun k => by cases k <;> decide) fun _ => rfl
  · exact exec_keeps (·.csr.trailBits) h hi (fun j u => (stageOf_frame j u).trailBits)
      (fun k => by cases k <;> decide) fun _ => rfl
  · have hkeep := exec_keeps (fun u => (u.csr.qfreq, u.csr.qcodeLen, u.csr.qcode)) h hi
      (writers := []) (fun j u _ => (stageOf_frame j u).query) (fun k => by cases k <;> decide)
      (fun hq => absurd (by decide) hq)
    simpa only [Prod.mk.injEq] using hkeep
  · obtain ⟨hlen, hmem⟩ := exec_keeps_output h hi herr
    exact ⟨hlen, fun a => by rw [hmem]⟩
  · have hlen := exec_outLen_of_err h hclear.2.1 herr
    exact ⟨hlen, fun a d => if_pos (.inr (by rw [hlen]; exact Nat.zero_le a))⟩

/-! ### The sequencer's invariant -/

/-- Where a completion begins, the sequencer's registers are as acceptance set them (R75). -/
structure Running (s : State) : Prop where
  cmd : s.csr.cmd = s.pending
  done : s.csr.status.done = false
  err : s.csr.status.err = false
  errReg : s.csr.err = ⟨.none, 0⟩

theorem State.SequencerInv.running {s : State} (h : s.SequencerInv) (hbusy : s.phase = .busy) :
    Running s := by
  obtain ⟨hcmd, -, -, hflags, -⟩ := h
  obtain ⟨hdone, herr, hreg⟩ := hflags hbusy
  exact ⟨hcmd, hdone, herr, hreg⟩

theorem Running.stage {s : State} (h : Running s) (j : Instr) : Running (stageOf j s).state := by
  have hframe := stageOf_frame j s
  constructor
  · rw [hframe.cmd, hframe.pending, h.cmd]
  · rw [hframe.status, h.done]
  · rw [hframe.status, h.err]
  · rw [hframe.err, h.errReg]

theorem Running.completeOk {s : State} (h : Running s) : s.completeOk.SequencerInv := by
  simp [State.SequencerInv, h.cmd, h.err, h.errReg]

theorem Running.completeError {s : State} (h : Running s) {e : ErrCode} (he : e ≠ .none)
    (b : Byte) : (s.completeError e b).SequencerInv := by
  simp [State.SequencerInv, h.cmd, h.done, he]

theorem exec_keeps_sequencerInv {i : Instr} {s t : State} (h : exec i s = .next t)
    (hs : Running s) : t.SequencerInv :=
  exec_induction h hs (fun j _ _ hu => hu.stage j)
    (fun _ => ⟨hs.cmd, hs.done, hs.err, hs.errReg⟩) (fun _ => ⟨hs.cmd, hs.done, hs.err, hs.errReg⟩)
    (fun _ hu => hu.completeOk) (fun _ _ b he hu => hu.completeError he b)

theorem State.SequencerInv.hostEffect {s t : State} (h : s.SequencerInv)
    (hrelease : s.inReset = false) (ht : HostEffect s t) : t.SequencerInv := by
  obtain ⟨hcmd, hbusy, hexcl, hflags, hdone, herr, hstage, hreset⟩ := h
  cases ht
  case answer | dropped | ctrl | operand | inMem =>
    exact ⟨hcmd, hbusy, hexcl, hflags, hdone, herr, hstage, hreset⟩
  case status r w =>
    refine ⟨hcmd, hbusy, fun ⟨h1, h2⟩ => hexcl ⟨Bool.and_elim_left h1, Bool.and_elim_left h2⟩,
      fun hp => ?_, fun h1 => hdone (Bool.and_elim_left h1), fun h1 => herr (Bool.and_elim_left h1),
      hstage, hreset⟩
    obtain ⟨h1, h2, h3⟩ := hflags hp
    exact ⟨by simp [h1], by simp [h2], h3⟩
  case accept r w hp => simp [State.SequencerInv, hrelease]

/-- Settles O58: each thing a step can do keeps the sequencer's invariant. -/
theorem stepKeepsSequencerInvariant : Obligations.StepKeepsSequencerInvariant := by
  unfold Obligations.StepKeepsSequencerInvariant
  intro s t hs hstep
  have hpop : s.popTurn.SequencerInv := hs
  rcases step_cases hstep with ⟨rfl, -⟩ | ⟨i, -, hexec, hbusy⟩ | ⟨e, -, rfl, hbusy⟩ |
    ⟨a, -, rfl, hrelease⟩ | ⟨-, rfl⟩ | ⟨-, rfl⟩
  · exact hpop
  · exact exec_keeps_sequencerInv hexec (hpop.running hbusy)
  · exact (hpop.running hbusy).completeError (by decide) _
  · exact hpop.hostEffect hrelease (hostEffect_hostAccess a s.popTurn)
  · simp [State.SequencerInv, Csr.reset]
  · obtain ⟨hcmd, hbusy, hexcl, hflags, hdone, herr, hcode, -⟩ := hpop
    exact ⟨hcmd, hbusy, hexcl, hflags, hdone, herr, hcode, fun h => nomatch h⟩

end Sys2Proof.Machine

/-! Registers as the host reads them: fields bit by bit (10_state.md R16-R36), and the views, whose
sizes never wrap in a state of the invariant (R23-R28). -/

namespace Sys2Proof.Machine

/-! ### Fields bit by bit -/

theorem getLsbD_flagAt (b : Bool) (n : Nat) {k : Nat} (hk : k < 32) :
    (flagAt b n).getLsbD k = (b && decide (k = n)) := by
  cases b with
  | false => simp [flagAt]
  | true =>
    have hword : flagAt true n = BitVec.ofNat 32 (2 ^ n) := by rw [← Nat.one_shiftLeft]; rfl
    rw [hword, BitVec.getLsbD_ofNat, Nat.testBit_two_pow]
    simp [hk, eq_comm]

theorem getLsbD_statusWord (f : Status) {n : Nat} : n < 32 →
    f.toWord.getLsbD n =
      (match n with
        | 0 => f.busy | 1 => f.done | 2 => f.err | 3 => f.dropped | _ => false) := by
  intro hn
  simp only [Status.toWord, BitVec.getLsbD_or, getLsbD_flagAt _ _ hn]
  match n with
  | 0 | 1 | 2 | 3 => simp
  | n + 4 => simp

theorem getLsbD_validWord (s : State) {n : Nat} : n < 32 →
    s.validWord.getLsbD n =
      (match n with
        | 0 => s.freq.isSome | 1 => s.tree.isSome | 2 => s.codes.isSome | 3 => s.bits.isSome
        | 4 => s.payload.isSome | _ => false) := by
  intro hn
  simp only [State.validWord, BitVec.getLsbD_or, getLsbD_flagAt _ _ hn]
  match n with
  | 0 | 1 | 2 | 3 | 4 => simp
  | n + 5 => simp

theorem getLsbD_errWord (e : ErrReg) {n : Nat} (hn : n < 32) :
    e.toWord.getLsbD n =
      (if n < 8 then e.code.toByte.getLsbD n
       else if n < 16 then e.stage.getLsbD (n - 8) else false) := by
  simp only [ErrReg.toWord, BitVec.getLsbD_setWidth, hn, decide_true, Bool.true_and,
    BitVec.getLsbD_append]
  split_ifs with _ h16
  · rfl
  · rfl
  · exact BitVec.getLsbD_of_ge _ _ (by omega)

/-- Settles O52: registers of fields bit by bit, registers of one field by their definition. -/
theorem registerBitLayout : Obligations.RegisterBitLayout := by
  unfold Obligations.RegisterBitLayout
  refine ⟨by decide, fun s => by simp [State.irq], by decide, fun s n hn => ?_⟩
  refine ⟨getLsbD_statusWord s.csr.status hn, getLsbD_validWord s hn, ?_,
    getLsbD_errWord s.csr.err hn, ?_, rfl, rfl, rfl, rfl, rfl, rfl, rfl, rfl, rfl, rfl⟩
  · exact (getLsbD_flagAt _ _ hn).trans (Bool.and_comm _ _)
  · simp only [State.regValue, BitVec.getLsbD_setWidth, hn, decide_true, Bool.true_and]
    by_cases h21 : n < 21
    · simp [h21]
    · simp [h21, BitVec.getLsbD_of_ge _ _ (Nat.le_of_not_lt h21)]

/-! ### The longest code (R26, R92) -/

theorem CodeTable.maxLen_cons (e : Symbol × Bits) (c : CodeTable) :
    CodeTable.maxLen (e :: c) = max e.2.length (CodeTable.maxLen c) := rfl

theorem CodeTable.length_le_maxLen {c : CodeTable} {e : Symbol × Bits} (h : e ∈ c) :
    e.2.length ≤ c.maxLen := by
  induction c with
  | nil => cases h
  | cons d c ih =>
    rw [maxLen_cons]
    rcases List.mem_cons.1 h with rfl | h
    · exact le_max_left ..
    · exact (ih h).trans (le_max_right ..)

theorem CodeTable.exists_length_eq_maxLen {c : CodeTable} (h : c ≠ []) :
    ∃ e ∈ c, e.2.length = c.maxLen := by
  induction c with
  | nil => exact absurd rfl h
  | cons d c ih =>
    rw [maxLen_cons]
    rcases le_total (CodeTable.maxLen c) d.2.length with hle | hle
    · exact ⟨d, List.mem_cons_self .., (max_eq_left hle).symm⟩
    · rw [max_eq_right hle]
      by_cases hc : c = []
      · subst hc
        exact ⟨d, List.mem_cons_self .., Nat.le_zero.1 hle⟩
      · obtain ⟨e, he, hlen⟩ := ih hc
        exact ⟨e, List.mem_cons_of_mem _ he, hlen⟩

theorem CodeTable.maxLen_le {c : CodeTable} {n : Nat} (h : ∀ e ∈ c, e.2.length ≤ n) :
    c.maxLen ≤ n := by
  by_cases hc : c = []
  · subst hc
    exact Nat.zero_le n
  · obtain ⟨e, he, hlen⟩ := CodeTable.exists_length_eq_maxLen hc
    exact hlen ▸ h e he

/-! ### The views -/

theorem toNat_ofNat_of_le {n : Nat} (h : n ≤ 2 ^ 32 - 1) : (BitVec.ofNat 32 n).toNat = n := by
  rw [BitVec.toNat_ofNat]
  exact Nat.mod_eq_of_lt (by omega)

/-- A view of a store whose size fits a word reads the size, 0 when the store is invalid. -/
theorem toNat_view {α : Type} (store : Option α) (size : α → Nat)
    (h : ∀ v ∈ store, size v ≤ 2 ^ 32 - 1) :
    (BitVec.ofNat 32 ((store.map size).getD 0)).toNat = (store.map size).getD 0 := by
  cases store with
  | none => rfl
  | some v => exact toNat_ofNat_of_le (h v rfl)

theorem toNat_maxCodeLen {s : State} (hl : s.params.lMax ≤ 2 ^ 32 - 1) {c : CodeTable}
    (hc : s.codes = some c) (hwf : CodeTable.wf s.params c) :
    (s.regValue .maxCodeLen).toNat = c.maxLen := by
  have hview : s.maxCodeLen = c.maxLen := by rw [State.maxCodeLen, hc]; rfl
  have hle : c.maxLen ≤ s.params.lMax := CodeTable.maxLen_le fun e he => (hwf.2 e he).2.2
  rw [State.regValue, hview, toNat_ofNat_of_le (hle.trans hl)]

/-- Settles O51: the invariant's bound on each store's size. -/
theorem viewsShowTheStores : Obligations.ViewsShowTheStores := by
  unfold Obligations.ViewsShowTheStores
  rintro s ⟨hparams, -, -, hfreq, htree, hcodes, hbits, hpayload, -⟩
  obtain ⟨-, ⟨-, hin⟩, -, ⟨-, hk⟩, ⟨-, hcap, -⟩, -, hl⟩ := hparams
  refine ⟨(toNat_view s.freq List.length fun f hf => ?_).trans (by cases s.freq <;> rfl),
    (toNat_view s.freq FreqTable.total fun f hf => ?_).trans (by cases s.freq <;> rfl),
    (toNat_view s.tree (·.nodes.length) fun t ht => ?_).trans (by cases s.tree <;> rfl),
    fun c hc => ?_, fun hc => ?_,
    (toNat_view s.bits List.length fun b hb => ?_).trans (by cases s.bits <;> rfl),
    (toNat_view s.payload List.length fun p hp => ?_).trans (by cases s.payload <;> rfl)⟩
  · obtain ⟨-, -, hlen, -⟩ := hfreq f hf
    omega
  · obtain ⟨-, -, -, htotal⟩ := hfreq f hf
    exact htotal
  · obtain ⟨⟨-, hnodes, -⟩, hleaves⟩ := htree t ht
    omega
  · rw [toNat_maxCodeLen hl hc (hcodes c hc)]
    exact ⟨fun e => CodeTable.length_le_maxLen, CodeTable.exists_length_eq_maxLen⟩
  · simp [State.regValue, State.maxCodeLen, hc]
  · have hlen := hbits b hb
    omega
  · have hlen := hpayload p hp
    omega

end Sys2Proof.Machine

/-! What each stage writes to the output fits OUT_CAP, and the memories' invariant (10_state.md R22,
R30, R44). -/

namespace Sys2Proof.Machine

/-! ### What a stage writes to the output fits OUT_CAP -/

theorem packResult_ok {p : Params} {b : Option Bits} {bs : List Byte} {pad : Nat}
    (h : packResult p b = .ok (bs, pad)) :
    ∃ c, b = some c ∧ bs = pack c ∧ pad = 8 * bs.length - c.length ∧ bs.length ≤ p.outCap := by
  unfold packResult at h
  split at h
  · cases h
  next c =>
    split_ifs at h with hcap
    cases h
    exact ⟨c, rfl, rfl, rfl, Nat.le_of_not_lt hcap⟩

theorem serializeResult_ok {p : Params} {f : Option FreqTable} {pl : Option (List Byte)}
    {bs : List Byte} (h : serializeResult p f pl = .ok bs) : bs.length ≤ p.outCap := by
  unfold serializeResult at h
  split at h
  · cases h
  · cases h
  · unfold serialize at h
    split_ifs at h with _ hcap
    cases h
    exact Nat.le_of_not_lt hcap

theorem walkLoop_length {p : Params} {t : Tree} {n : Nat} {b rest : Bits} {out out' : List Byte}
    (h : walkLoop p t n b out = .ok (out', rest)) (hout : out.length ≤ p.outCap) :
    out'.length ≤ p.outCap := by
  induction n generalizing b out with
  | zero =>
    cases h
    exact hout
  | succ n ih =>
    unfold walkLoop at h
    split at h
    · cases h
    · split_ifs at h with hcap
      exact ih h (by rw [List.length_append]; exact Nat.le_of_not_lt hcap)

theorem walkResult_ok {p : Params} {t : Option Tree} {b : Option Bits} {out : List Byte}
    {trail : Nat} (h : walkResult p t b = .ok (out, trail)) :
    (∃ c, b = some c ∧ trail ≤ c.length) ∧ out.length ≤ p.outCap := by
  unfold walkResult at h
  split at h
  · cases h
  · cases h
  next t c =>
    split at h
    · cases h
    next hwalk =>
      cases h
      refine ⟨⟨c, rfl, Nat.sub_le ..⟩, ?_⟩
      unfold walkDecode at hwalk
      split at hwalk
      · cases hwalk
      next hloop =>
        cases hwalk
        exact walkLoop_length hloop (Nat.zero_le _)

/-! ### The memories' invariant -/

theorem State.MemoryInv.memWriteOut {s : State} (h : s.MemoryInv) (hp : s.params.wf)
    {bs : List Byte} (hfits : bs.length ≤ s.params.outCap) : (s.memWriteOut bs).MemoryInv := by
  obtain ⟨hwf, hin, -, -, -, hpad⟩ := h
  obtain ⟨-, -, ⟨-, hout⟩, -⟩ := hp
  have hlen : (BitVec.ofNat 32 bs.length).toNat = bs.length := toNat_ofNat_of_le (by omega)
  refine ⟨hwf, hin, Memory.ofBytes_wf bs, ?_, ?_, hpad⟩
  · rw [State.memWriteOut_csr, hlen]
    exact Memory.map_fst_ofBytes bs
  · rw [State.memWriteOut_csr, hlen]
    exact hfits

/-- With no output both memories keep their form. -/
theorem State.MemoryInv.dropOutput {s : State} (h : s.MemoryInv) : s.dropOutput.MemoryInv := by
  obtain ⟨hwf, hin, -, -, -, hpad⟩ := h
  exact ⟨hwf, hin, List.Pairwise.nil, rfl, Nat.zero_le _, hpad⟩

theorem stageOf_memoryInv (j : Instr) {s : State} (hp : s.params.wf) (h : s.MemoryInv) :
    (stageOf j s).state.MemoryInv := by
  by_cases hj : j ∈ [Instr.pack, .serialize, .walk]
  · simp only [List.mem_cons, List.not_mem_nil, or_false] at hj
    rcases hj with rfl | rfl | rfl
    · obtain ⟨bs, pad, hres, hs⟩ | ⟨e, -, hs⟩ := stagePack_cases s
      · obtain ⟨c, -, rfl, hpad, hfits⟩ := packResult_ok hres
        obtain ⟨hwf, hin, hwf', hout, hle, -⟩ := h.memWriteOut hp hfits
        rw [stageOf, hs]
        refine ⟨hwf, hin, hwf', hout, hle, ?_⟩
        rw [length_pack] at hpad
        show (BitVec.ofNat 32 pad).toNat ≤ 7
        rw [toNat_ofNat_of_le (by omega)]
        omega
      · rw [stageOf, hs]
        exact h
    · obtain ⟨bs, hres, hs⟩ | ⟨e, -, hs⟩ := stageSerialize_cases s
      · rw [stageOf, hs]
        exact h.memWriteOut hp (serializeResult_ok hres)
      · rw [stageOf, hs]
        exact h
    · obtain ⟨out, trail, hres, hs⟩ | ⟨e, -, hs⟩ := stageWalk_cases s
      · rw [stageOf, hs]
        exact h.memWriteOut hp (walkResult_ok hres).2
      · rw [stageOf, hs]
        exact h
  · have hframe := stageOf_frame j s
    obtain ⟨hmem, hlen⟩ := hframe.output hj
    have hpad := hframe.padBits fun hmem => hj (List.mem_cons.2 (.inl (List.mem_singleton.1 hmem)))
    unfold State.MemoryInv
    rw [hframe.inMem, hframe.params, hmem, hlen, hpad]
    exact h

theorem exec_keeps_memoryInv {i : Instr} {s t : State} (hp : s.params.wf) (h : s.MemoryInv)
    (hexec : exec i s = .next t) : t.MemoryInv ∧ t.params = s.params := by
  refine exec_induction (P := fun u => u.MemoryInv ∧ u.params = s.params)
    (Q := fun u => u.MemoryInv ∧ u.params = s.params) hexec ⟨h, rfl⟩ (fun j _ u hu => ?_)
    (fun _ => ⟨h, rfl⟩) (fun _ => ⟨?_, rfl⟩) (fun u hu => hu)
    (fun u e b _ hu => ⟨hu.1.dropOutput, hu.2⟩)
  · obtain ⟨hmem, hparams⟩ := hu
    exact ⟨stageOf_memoryInv j (hparams ▸ hp) hmem, (stageOf_frame j u).params.trans hparams⟩
  · obtain ⟨hwf, hin, hwf', hout, hle, -⟩ := h.dropOutput
    exact ⟨hwf, hin, hwf', hout, hle, Nat.zero_le _⟩

theorem State.MemoryInv.hostEffect {s t : State} (h : s.MemoryInv) (ht : HostEffect s t) :
    t.MemoryInv ∧ t.params = s.params := by
  cases ht
  case answer | dropped | ctrl | status | accept | operand => exact ⟨h, rfl⟩
  case inMem r off bs _ hfits =>
    obtain ⟨hwf, hin, hrest⟩ := h
    refine ⟨⟨Memory.writeBytes_wf hwf off bs, fun c hc => ?_, hrest⟩, rfl⟩
    rcases Memory.mem_writeBytes hc with hnew | hold
    · exact hnew.2.trans_le hfits
    · exact hin c hold

/-- Settles O59: each thing a step can do keeps the memories' invariant and the parameters. -/
theorem stepKeepsMemoryInvariant : Obligations.StepKeepsMemoryInvariant := by
  unfold Obligations.StepKeepsMemoryInvariant
  intro s t hp hs hstep
  have hpop : s.popTurn.MemoryInv := hs
  rcases step_cases hstep with ⟨rfl, -⟩ | ⟨i, -, hexec, -⟩ | ⟨e, -, rfl, -⟩ | ⟨a, -, rfl, -⟩ |
    ⟨-, rfl⟩ | ⟨-, rfl⟩
  · exact ⟨hpop, rfl⟩
  · exact exec_keeps_memoryInv (s := s.popTurn) hp hpop hexec
  · exact ⟨hpop.dropOutput, rfl⟩
  · exact hpop.hostEffect (hostEffect_hostAccess a s.popTurn)
  · simp [State.MemoryInv, Csr.reset]
  · exact ⟨hpop, rfl⟩

end Sys2Proof.Machine

/-! The frequency tables COUNT and DESERIALIZE write are tables of R39 (45_codec.md R108-R109,
44_container.md R103-R106). -/

namespace Sys2Proof.Machine

theorem State.input_ok {s : State} {b : List Byte} (h : s.input = .ok b) :
    b.length = s.csr.inLen.toNat ∧ b.length ≤ s.params.inCap := by
  unfold State.input at h
  split_ifs at h with hcap
  cases h
  rw [State.length_memReadIn]
  exact ⟨rfl, Nat.le_of_not_lt hcap⟩

/-! ### The table of COUNT -/

theorem utf8Enc_length_pos (c : Symbol) : 0 < (utf8Enc c).length := by
  unfold utf8Enc
  split_ifs <;> exact Nat.succ_pos _

/-- Every symbol takes a byte at least, so a text has no more symbols than bytes. -/
theorem length_le_length_utf8 (syms : List Symbol) : syms.length ≤ (utf8 syms).length := by
  induction syms with
  | nil => exact Nat.zero_le _
  | cons c syms ih =>
    have := utf8Enc_length_pos c
    rw [utf8_cons, List.length_append, List.length_cons]
    omega

theorem length_le_of_utf8Dec {b : List Byte} {syms : List Symbol} (h : utf8Dec b = some syms) :
    syms.length ≤ b.length :=
  (allScalar_and_utf8_of_utf8Dec h).2 ▸ length_le_length_utf8 syms

theorem distinctSymbols_perm_dedup (syms : List Symbol) : (distinctSymbols syms).Perm syms.dedup :=
  (List.perm_ext_iff_of_nodup ((distinctSymbols_pairwise syms).imp ne_of_lt)
    (List.nodup_dedup syms)).2 fun c => by rw [mem_distinctSymbols, List.mem_dedup]

/-- Every symbol of the text is counted once. -/
theorem total_countSymbols (syms : List Symbol) :
    FreqTable.total (countSymbols syms) = syms.length := by
  rw [FreqTable.total, countSymbols, List.map_map, ((distinctSymbols_perm_dedup syms).map _).sum_eq]
  exact List.sum_map_count_dedup_eq_length syms

theorem countResult_wf {s : State} {f : FreqTable} (h : countResult s = .ok f) :
    FreqTable.wf s.params f := by
  unfold countResult at h
  split at h
  · cases h
  next b hb =>
  unfold countFreq at h
  split at h
  · cases h
  next syms hsyms =>
  split_ifs at h with _ hk
  cases h
  have hlen := (State.input_ok hb).1
  have hle := length_le_of_utf8Dec hsyms
  have hword := s.csr.inLen.isLt
  refine ⟨List.pairwise_map.2 (distinctSymbols_pairwise syms), fun e he => ?_,
    Nat.le_of_not_lt hk, ?_⟩
  · obtain ⟨c, hc, rfl⟩ := List.mem_map.1 he
    have hmem := mem_distinctSymbols.1 hc
    exact ⟨(allScalar_and_utf8_of_utf8Dec hsyms).1 c hmem, List.count_pos_iff.2 hmem⟩
  · rw [total_countSymbols, countMax]
    omega

/-! ### The table of DESERIALIZE -/

theorem splitNewline_eq_some {b h p : List Byte} (hb : splitNewline b = some (h, p)) :
    b = h ++ newlineByte :: p := by
  induction b generalizing h with
  | nil => cases hb
  | cons x b ih =>
    unfold splitNewline at hb
    split_ifs at hb with hx
    · cases hb
      rw [hx, List.nil_append]
    · obtain ⟨⟨h', p'⟩, hsplit, heq⟩ := Option.map_eq_some_iff.1 hb
      cases heq
      rw [ih hsplit, List.cons_append]

/-- The fields hold symbols of the text only. -/
theorem mem_of_mem_splitSpaces {syms fd : List Symbol} {c : Symbol} (hfd : fd ∈ splitSpaces syms)
    (hc : c ∈ fd) : c ∈ syms := by
  induction syms generalizing fd with
  | nil =>
    rw [splitSpaces, List.mem_singleton] at hfd
    subst hfd
    cases hc
  | cons x syms ih =>
    unfold splitSpaces at hfd
    split_ifs at hfd
    · rcases List.mem_cons.1 hfd with rfl | hfd
      · cases hc
      · exact List.mem_cons_of_mem _ (ih hfd hc)
    · split at hfd
      · rw [List.mem_singleton] at hfd
        subst hfd
        rw [List.mem_singleton] at hc
        exact List.mem_cons.2 (.inl hc)
      next g gs hgs =>
        rcases List.mem_cons.1 hfd with rfl | hfd
        · rcases List.mem_cons.1 hc with rfl | hc
          · exact List.mem_cons_self ..
          · exact List.mem_cons_of_mem _ (ih (hgs ▸ List.mem_cons_self ..) hc)
        · exact List.mem_cons_of_mem _ (ih (hgs ▸ List.mem_cons_of_mem _ hfd) hc)

theorem lhsSymbol_eq_some {l : List Symbol} {c : Symbol} (h : lhsSymbol l = some c) :
    c = spaceSym ∨ c ∈ l := by
  match l, h with
  | [], h => exact .inl (Option.some.inj h).symm
  | [x], h => exact .inr (List.mem_singleton.2 (Option.some.inj h).symm)

theorem parseCount_pos {r : List Symbol} {n : Nat} (h : parseCount r = .ok n) : 1 ≤ n := by
  unfold parseCount at h
  split_ifs at h with _ _ _ hzero
  cases h
  exact Nat.one_le_iff_ne_zero.2 hzero

/-- A field of symbols gives an entry R39 allows. -/
theorem parseField_ok {fd : List Symbol} {c : Symbol} {n : Nat} (h : parseField fd = .ok (c, n))
    (hfd : AllScalar fd) : isScalar c = true ∧ 1 ≤ n := by
  unfold parseField at h
  dsimp only at h
  split_ifs at h
  split at h
  · cases h
  next hlhs =>
  split at h
  · cases h
  · cases h
  next hcount =>
  cases h
  refine ⟨?_, parseCount_pos hcount⟩
  rcases lhsSymbol_eq_some hlhs with rfl | hmem
  · decide
  · exact hfd _ ((List.takeWhile_sublist _).subset hmem)

theorem notMem_keys_of_lookup {f : FreqTable} {c : Symbol} (h : (f.lookup c).isSome ≠ true) :
    c ∉ keys f := by
  have hnone : f.lookup c = none := Option.not_isSome_iff_eq_none.1 h
  intro hmem
  obtain ⟨e, he, rfl⟩ := List.mem_map.1 hmem
  simpa using List.lookup_eq_none_iff.1 hnone e he

theorem total_tableInsert (c : Symbol) (n : Nat) (f : FreqTable) :
    FreqTable.total (tableInsert c n f) = FreqTable.total f + n := by
  rw [FreqTable.total, ((tableInsert_perm c n f).map _).sum_eq, List.map_cons, List.sum_cons,
    Nat.add_comm]
  rfl

/-- A new entry within the limits keeps a table of R39. -/
theorem tableInsert_wf {p : Params} {f : FreqTable} {c : Symbol} {n : Nat} (hf : FreqTable.wf p f)
    (hentry : isScalar c = true ∧ 1 ≤ n) (hnew : c ∉ keys f) (hk : f.length ≠ p.kMax)
    (htotal : FreqTable.total f + n ≤ countMax) : FreqTable.wf p (tableInsert c n f) := by
  obtain ⟨hasc, hentries, hlen, -⟩ := hf
  have hperm := tableInsert_perm c n f
  refine ⟨tableInsert_ascending n hasc hnew, fun e he => ?_, ?_, ?_⟩
  · rcases List.mem_cons.1 (hperm.mem_iff.1 he) with rfl | he
    · exact hentry
    · exact hentries e he
  · rw [hperm.length_eq, List.length_cons]
    omega
  · rw [total_tableInsert]
    exact htotal

theorem addFields_wf {p : Params} {fds : List (List Symbol)} {f g : FreqTable}
    (h : addFields p fds f (FreqTable.total f) = .ok g) (hfds : ∀ fd ∈ fds, AllScalar fd)
    (hf : FreqTable.wf p f) : FreqTable.wf p g := by
  induction fds generalizing f with
  | nil =>
    cases h
    exact hf
  | cons fd fds ih =>
    unfold addFields at h
    split at h
    · cases h
    next c n hfd =>
    split_ifs at h with hdup hk htotal
    rw [← total_tableInsert] at h
    exact ih h (fun fd' hfd' => hfds fd' (List.mem_cons_of_mem _ hfd'))
      (tableInsert_wf hf (parseField_ok hfd (hfds fd (List.mem_cons_self ..)))
        (notMem_keys_of_lookup hdup) hk (Nat.le_of_not_lt htotal))

theorem parseFreqText_wf {p : Params} {syms : List Symbol} {f : FreqTable}
    (h : parseFreqText p syms = .ok f) (hsyms : AllScalar syms) : FreqTable.wf p f := by
  have hempty : FreqTable.wf p [] := ⟨List.Pairwise.nil, nofun, Nat.zero_le _, Nat.zero_le _⟩
  unfold parseFreqText at h
  split_ifs at h
  · cases h
    exact hempty
  · exact addFields_wf h (fun fd hfd c hc => hsyms c (mem_of_mem_splitSpaces hfd hc)) hempty

theorem deserializeResult_wf {s : State} {f : FreqTable} {pl : List Byte}
    (h : deserializeResult s = .ok (f, pl)) :
    FreqTable.wf s.params f ∧ pl.length ≤ s.params.inCap := by
  unfold deserializeResult at h
  split at h
  · cases h
  next b hb =>
  unfold deserialize at h
  split at h
  · cases h
  next hd p hsplit =>
  split at h
  · cases h
  next syms hsyms =>
  split at h
  · cases h
  next hparse =>
  cases h
  refine ⟨parseFreqText_wf hparse (allScalar_and_utf8_of_utf8Dec hsyms).1, ?_⟩
  have hlen := congrArg List.length (splitNewline_eq_some hsplit)
  have hcap := (State.input_ok hb).2
  simp only [List.length_append, List.length_cons] at hlen
  omega

end Sys2Proof.Machine

/-! canonical_code_generator (42_code_generator.md R89-R92): GENCODE on a tree of R40 writes a code
table of R41. The loop of R89 takes no node off its stack twice, so no symbol gets two codes. -/

namespace Sys2Proof.Machine

/-! ### A tree of R40 -/

theorem Tree.wf.nodeOk {t : Tree} (h : t.wf) {i : Nat} {x : Node} (hx : t.nodes[i]? = some x) :
    Machine.nodeOk t.nodes t.leaves i x = true := by
  obtain ⟨hi, rfl⟩ := List.getElem?_eq_some_iff.1 hx
  obtain ⟨-, -, hok, -⟩ := h
  exact hok ⟨i, hi⟩

theorem Tree.wf.leaf {t : Tree} (h : t.wf) {i w : Nat} {c : Symbol}
    (hi : t.nodes[i]? = some (.leaf c w)) : i < t.leaves ∧ isScalar c = true := by
  have hok := h.nodeOk hi
  simp only [Machine.nodeOk, Bool.and_eq_true, decide_eq_true_eq] at hok
  exact hok.1

/-- No index is the child of two nodes, and the root is the child of none (R40). -/
theorem Tree.wf.root_cons_childrenOf_nodup {t : Tree} (h : t.wf) :
    (t.root :: childrenOf t.nodes).Nodup := by
  have hlt : ∀ i ∈ childrenOf t.nodes, i < t.root := fun i hi => by
    have := lt_of_mem_childrenOf (fun j x => h.nodeOk) hi
    obtain ⟨-, hlen, -⟩ := h
    rw [Tree.root]
    omega
  obtain ⟨-, -, -, -, hcount, -⟩ := h
  refine List.nodup_cons.2 ⟨fun hroot => lt_irrefl _ (hlt _ hroot), ?_⟩
  exact List.nodup_iff_count_le_one.2 fun i => by
    by_cases hi : i ∈ childrenOf t.nodes
    · exact (hcount i (hlt i hi)).le
    · rw [List.count_eq_zero_of_not_mem hi]
      exact Nat.zero_le 1

theorem Tree.wf.leafSymbols_nodup {t : Tree} (h : t.wf) : (leafSymbols t.nodes).Nodup := by
  obtain ⟨-, -, -, hsyms, -⟩ := h
  exact hsyms.imp ne_of_lt

/-! ### The loop of R89 -/

/-- What different indices contribute to a list without repetitions has none either. -/
theorem nodup_flatMap_getElem? {α : Type} {g : Node → List α} {nodes : List Node} {is : List Nat}
    (h : (nodes.flatMap g).Nodup) (his : is.Nodup) :
    (is.flatMap fun i => nodes[i]?.toList.flatMap g).Nodup := by
  obtain ⟨heach, hpair⟩ := List.nodup_flatMap.1 h
  have hdisj : ∀ i j : Nat, i < j →
      List.Disjoint (nodes[i]?.toList.flatMap g) (nodes[j]?.toList.flatMap g) := by
    intro i j hij
    by_cases hj : j < nodes.length
    · have hi := hij.trans hj
      simpa [hi, hj] using List.pairwise_iff_getElem.1 hpair i j hi hj hij
    · simp [Nat.le_of_not_lt hj]
  refine List.nodup_flatMap.2 ⟨fun i _ => ?_, his.imp fun {i j} hij => ?_⟩
  · by_cases hi : i < nodes.length
    · simpa [hi] using heach _ (List.getElem_mem hi)
    · simp [Nat.le_of_not_lt hi]
  · rcases Nat.lt_or_gt_of_ne hij with hlt | hlt
    · exact hdisj i j hlt
    · exact (hdisj j i hlt).symm

/-- What the loop keeps: the indices taken off the stack so far, `visited`, and those still on it
are the root and the children of the visited ones, no visited index twice, and the table so far
holds the visited leaves' symbols. -/
structure VisitInv (t : Tree) (visited : List Nat) (stack : List (Nat × Bits)) (c : CodeTable) :
    Prop where
  reached : (visited ++ stack.map (·.1)).Perm
    (t.root :: visited.flatMap fun i => childrenOf t.nodes[i]?.toList)
  nodup : visited.Nodup
  symbols : keys c = visited.flatMap fun i => leafSymbols t.nodes[i]?.toList

/-- Taking an index off the stack, with what its node contributes. -/
theorem VisitInv.pop {t : Tree} (ht : t.wf) {visited : List Nat} {i : Nat} {p : Bits}
    {stack stack' : List (Nat × Bits)} {c c' : CodeTable}
    (h : VisitInv t visited ((i, p) :: stack) c)
    (hstack : stack'.map (·.1) = childrenOf t.nodes[i]?.toList ++ stack.map (·.1))
    (hc : keys c' = keys c ++ leafSymbols t.nodes[i]?.toList) :
    VisitInv t (visited ++ [i]) stack' c' := by
  obtain ⟨hrootless, hdistinct⟩ := List.nodup_cons.1 ht.root_cons_childrenOf_nodup
  have hchildren := nodup_flatMap_getElem? hdistinct h.nodup
  have hroot : t.root ∉ visited.flatMap fun j => childrenOf t.nodes[j]?.toList := fun hmem => by
    obtain ⟨j, -, hj⟩ := List.mem_flatMap.1 hmem
    obtain ⟨x, hx, hxc⟩ := List.mem_flatMap.1 hj
    exact hrootless
      (List.mem_flatMap.2 ⟨x, List.mem_of_getElem? (Option.mem_toList.1 hx), hxc⟩)
  have hnodup : (visited ++ i :: stack.map (·.1)).Nodup :=
    h.reached.nodup_iff.2 (List.nodup_cons.2 ⟨hroot, hchildren⟩)
  constructor
  · have hreached : (visited ++ i :: stack.map (·.1)).Perm
      (t.root :: visited.flatMap fun i => childrenOf t.nodes[i]?.toList) := h.reached
    rw [hstack, List.flatMap_append, List.flatMap_singleton, ← List.cons_append]
    refine List.Perm.trans ?_ (hreached.append_right _)
    simp only [List.append_assoc, List.cons_append, List.nil_append]
    exact ((List.perm_append_comm).cons i).append_left visited
  · have hsub : (visited ++ [i]).Sublist (visited ++ i :: stack.map (·.1)) :=
      ((List.nil_sublist _).cons_cons i).append_left visited
    exact hnodup.sublist hsub
  · rw [hc, h.symbols, List.flatMap_append, List.flatMap_singleton]

theorem VisitInv.keys_nodup {t : Tree} (ht : t.wf) {visited : List Nat} {stack : List (Nat × Bits)}
    {c : CodeTable} (h : VisitInv t visited stack c) : (keys c).Nodup := by
  rw [h.symbols]
  exact nodup_flatMap_getElem? ht.leafSymbols_nodup h.nodup

/-- No symbol gets two codes. -/
theorem keys_codeLoop_nodup {t : Tree} (ht : t.wf) (fuel : Nat) {visited : List Nat}
    {stack : List (Nat × Bits)} {c : CodeTable} (h : VisitInv t visited stack c) :
    (keys (codeLoop t.nodes fuel stack c)).Nodup := by
  induction fuel generalizing visited stack c with
  | zero => exact h.keys_nodup ht
  | succ fuel ih =>
    cases stack with
    | nil => exact h.keys_nodup ht
    | cons top stack =>
      obtain ⟨i, p⟩ := top
      rw [codeLoop]
      split
      next s w hi =>
        exact ih (h.pop ht (by simp [hi, childrenOf]) (by simp [hi, keys, leafSymbols]))
      next l r w hi => exact ih (h.pop ht (by simp [hi]) (by simp [hi]))
      next hi => exact ih (h.pop ht (by simp [hi, childrenOf]) (by simp [hi, leafSymbols]))

/-- Every entry's symbol is a leaf's, and no code is empty when no leaf waits with an empty path. -/
theorem mem_codeLoop {t : Tree} (ht : t.wf) (fuel : Nat) {stack : List (Nat × Bits)} {c : CodeTable}
    (hstack : ∀ i, (i, []) ∈ stack → t.leaves ≤ i)
    (hc : ∀ e ∈ c, isScalar e.1 = true ∧ e.2 ≠ []) :
    ∀ e ∈ codeLoop t.nodes fuel stack c, isScalar e.1 = true ∧ e.2 ≠ [] := by
  induction fuel generalizing stack c with
  | zero => exact hc
  | succ fuel ih =>
    cases stack with
    | nil => exact hc
    | cons top stack =>
      obtain ⟨i, p⟩ := top
      have hrest : ∀ j, (j, []) ∈ stack → t.leaves ≤ j := fun j hj =>
        hstack j (List.mem_cons_of_mem _ hj)
      rw [codeLoop]
      split
      next s w hi =>
        refine ih hrest fun e he => ?_
        rcases List.mem_append.1 he with he | he
        · exact hc e he
        · obtain ⟨hlt, hscalar⟩ := ht.leaf hi
          rw [List.mem_singleton.1 he]
          refine ⟨hscalar, ?_⟩
          rintro rfl
          exact absurd (hstack i (List.mem_cons_self ..)) (Nat.not_le_of_lt hlt)
      next l r w hi => exact ih (fun j hj => hrest j (by simpa using hj)) hc
      next hi => exact ih hrest hc

/-! ### The table of GENCODE -/

theorem genCodes_ascending {t : Tree} (ht : t.wf) : Ascending (genCodes t) := by
  unfold genCodes
  split_ifs
  · unfold singleCode
    split
    · exact List.pairwise_singleton ..
    · exact List.Pairwise.nil
  · exact tableSort_ascending (keys_codeLoop_nodup ht _ (visited := [])
      ⟨List.Perm.refl _, List.nodup_nil, rfl⟩)

theorem mem_genCodes {t : Tree} (ht : t.wf) {e : Symbol × Bits} (he : e ∈ genCodes t) :
    isScalar e.1 = true ∧ e.2 ≠ [] := by
  unfold genCodes at he
  split_ifs at he with hone
  · unfold singleCode at he
    split at he
    next s w hs =>
      rw [List.mem_singleton.1 he]
      exact ⟨(ht.leaf hs).2, by simp⟩
    · cases he
  · refine mem_codeLoop ht _ (fun i hi => ?_) (by simp) e ((tableSort_perm _).mem_iff.1 he)
    obtain ⟨hpos, -⟩ := ht
    rw [List.mem_singleton, Prod.mk.injEq, Tree.root] at hi
    omega

theorem gencodeResult_wf {p : Params} {t : Option Tree} {c : CodeTable}
    (ht : ∀ u ∈ t, Tree.wf u) (h : gencodeResult p t = .ok c) : CodeTable.wf p c := by
  unfold gencodeResult at h
  split at h
  · cases h
  next u =>
  split_ifs at h with hlen
  cases h
  have hu : u.wf := ht u rfl
  refine ⟨genCodes_ascending hu, fun e he => ?_⟩
  obtain ⟨hscalar, hne⟩ := mem_genCodes hu he
  exact ⟨hscalar, hne, (CodeTable.length_le_maxLen he).trans (Nat.le_of_not_lt hlen)⟩

end Sys2Proof.Machine

/-! The stores' invariant (10_state.md R39-R43): each stage writes its store in the form the spec
gives it, so every step keeps every valid store so. -/

namespace Sys2Proof.Machine

/-! ### What each stage writes to its store -/

theorem buildResult_wf {p : Params} {f : Option FreqTable} {t : Tree}
    (hf : ∀ g ∈ f, FreqTable.wf p g) (h : buildResult f = .ok t) :
    Tree.wf t ∧ t.leaves ≤ p.kMax := by
  unfold buildResult at h
  split at h
  · cases h
  next g =>
  split_ifs at h with hempty
  cases h
  have hg : FreqTable.wf p g := hf g rfl
  exact ⟨buildTree_wf hg fun hnil => hempty (by rw [hnil]; rfl), hg.2.2.1⟩

theorem mapLoop_length {p : Params} {c : CodeTable} {syms : List Symbol} {b b' : Bits}
    (h : mapLoop p c syms b = .ok b') (hb : b.length ≤ p.bitsCap) : b'.length ≤ p.bitsCap := by
  induction syms generalizing b with
  | nil =>
    cases h
    exact hb
  | cons k syms ih =>
    unfold mapLoop at h
    split at h
    · cases h
    · split_ifs at h with hcap
      exact ih h (Nat.le_of_not_lt hcap)

theorem mapResult_length {s : State} {b : Bits} (h : mapResult s = .ok b) :
    b.length ≤ s.params.bitsCap := by
  unfold mapResult at h
  split at h
  · cases h
  split at h
  · cases h
  unfold mapSymbols at h
  split at h
  · cases h
  · exact mapLoop_length h (Nat.zero_le _)

/-- BITS_CAP is a whole number of bytes (R6), so bits within it pack into BITS_CAP / 8 bytes. -/
theorem packResult_length {p : Params} {b : Option Bits} {bs : List Byte} {pad : Nat} (hp : p.wf)
    (hb : ∀ c ∈ b, c.length ≤ p.bitsCap) (h : packResult p b = .ok (bs, pad)) :
    bs.length ≤ p.bitsCap / 8 := by
  obtain ⟨c, rfl, rfl, -, -⟩ := packResult_ok h
  have hc : c.length ≤ p.bitsCap := hb c rfl
  obtain ⟨-, -, -, -, ⟨-, -, hmod⟩, -⟩ := hp
  rw [length_pack]
  omega

theorem unpackResult_length {p : Params} {pl : Option (List Byte)} {b : Bits}
    (h : unpackResult p pl = .ok b) : b.length ≤ p.bitsCap := by
  unfold unpackResult at h
  split at h
  · cases h
  · split_ifs at h with hcap
    cases h
    rw [length_unpack]
    exact Nat.le_of_not_lt hcap

/-- TRAIL_BITS counts bits of a valid BITS, and fits its register. -/
theorem toNat_trailBits_le {p : Params} {t : Option Tree} {b : Option Bits} {out : List Byte}
    {trail : Nat} (hb : ∀ c ∈ b, c.length ≤ p.bitsCap) (h : walkResult p t b = .ok (out, trail)) :
    (BitVec.ofNat 32 trail).toNat ≤ p.bitsCap := by
  obtain ⟨⟨c, rfl, htrail⟩, -⟩ := walkResult_ok h
  rw [BitVec.toNat_ofNat]
  exact (Nat.mod_le ..).trans (htrail.trans (hb c rfl))

/-! ### The stages -/

theorem stageOf_storeInv (j : Instr) {s : State} (hp : s.params.wf) (h : s.StoreInv) :
    (stageOf j s).state.StoreInv := by
  obtain ⟨hfreq, htree, hcodes, hbits, hpayload, htrail⟩ := h
  cases j
  case count =>
    obtain ⟨f, hres, hs⟩ | ⟨e, -, hs⟩ := stageCount_cases s <;> rw [stageOf, hs]
    · exact ⟨by rintro _ ⟨⟩; exact countResult_wf hres, htree, hcodes, hbits, hpayload, htrail⟩
    · exact ⟨nofun, htree, hcodes, hbits, hpayload, htrail⟩
  case build =>
    obtain ⟨t, hres, hs⟩ | ⟨e, -, hs⟩ := stageBuild_cases s <;> rw [stageOf, hs]
    · have ht := buildResult_wf hfreq hres
      exact ⟨hfreq, by rintro _ ⟨⟩; exact ht, hcodes, hbits, hpayload, htrail⟩
    · exact ⟨hfreq, nofun, hcodes, hbits, hpayload, htrail⟩
  case gencode =>
    obtain ⟨c, hres, hs⟩ | ⟨e, -, hs⟩ := stageGencode_cases s <;> rw [stageOf, hs]
    · have hc := gencodeResult_wf (fun t ht => (htree t ht).1) hres
      exact ⟨hfreq, htree, by rintro _ ⟨⟩; exact hc, hbits, hpayload, htrail⟩
    · exact ⟨hfreq, htree, nofun, hbits, hpayload, htrail⟩
  case map =>
    obtain ⟨b, hres, hs⟩ | ⟨e, -, hs⟩ := stageMap_cases s <;> rw [stageOf, hs]
    · exact ⟨hfreq, htree, hcodes, by rintro _ ⟨⟩; exact mapResult_length hres, hpayload, htrail⟩
    · exact ⟨hfreq, htree, hcodes, nofun, hpayload, htrail⟩
  case unpack =>
    obtain ⟨b, hres, hs⟩ | ⟨e, -, hs⟩ := stageUnpack_cases s <;> rw [stageOf, hs]
    · exact ⟨hfreq, htree, hcodes, by rintro _ ⟨⟩; exact unpackResult_length hres, hpayload, htrail⟩
    · exact ⟨hfreq, htree, hcodes, nofun, hpayload, htrail⟩
  case pack =>
    obtain ⟨bs, pad, hres, hs⟩ | ⟨e, -, hs⟩ := stagePack_cases s <;> rw [stageOf, hs]
    · have hle := (packResult_length hp hbits hres).trans (le_max_right s.params.inCap _)
      exact ⟨hfreq, htree, hcodes, hbits, by rintro _ ⟨⟩; exact hle, htrail⟩
    · exact ⟨hfreq, htree, hcodes, hbits, nofun, htrail⟩
  case deserialize =>
    obtain ⟨f, pl, hres, hs⟩ | ⟨e, -, hs⟩ := stageDeserialize_cases s <;> rw [stageOf, hs]
    · obtain ⟨hf, hpl⟩ := deserializeResult_wf hres
      exact ⟨by rintro _ ⟨⟩; exact hf, htree, hcodes, hbits,
        by rintro _ ⟨⟩; exact hpl.trans (le_max_left ..), htrail⟩
    · exact ⟨nofun, htree, hcodes, hbits, nofun, htrail⟩
  case serialize =>
    obtain ⟨bs, -, hs⟩ | ⟨e, -, hs⟩ := stageSerialize_cases s <;> rw [stageOf, hs] <;>
      exact ⟨hfreq, htree, hcodes, hbits, hpayload, htrail⟩
  case walk =>
    obtain ⟨out, trail, hres, hs⟩ | ⟨e, -, hs⟩ := stageWalk_cases s <;> rw [stageOf, hs]
    · exact ⟨hfreq, htree, hcodes, hbits, hpayload, toNat_trailBits_le hbits hres⟩
    · exact ⟨hfreq, htree, hcodes, hbits, hpayload, htrail⟩
  case nop | encode | decode | query | clear =>
    exact ⟨hfreq, htree, hcodes, hbits, hpayload, htrail⟩

/-! ### Commands, accesses and steps -/

theorem State.storeInv_of_invalid {s : State} (hf : s.freq = none) (ht : s.tree = none)
    (hc : s.codes = none) (hb : s.bits = none) (hp : s.payload = none)
    (htrail : s.csr.trailBits = 0) : s.StoreInv := by
  simp [State.StoreInv, hf, ht, hc, hb, hp, htrail]

theorem exec_keeps_storeInv {i : Instr} {s t : State} (hp : s.params.wf) (h : s.StoreInv)
    (hexec : exec i s = .next t) : t.StoreInv := by
  refine exec_induction (P := fun u => u.params.wf ∧ u.StoreInv) (Q := State.StoreInv) hexec ⟨hp, h⟩
    (fun j _ u hu => ⟨?_, stageOf_storeInv j hu.1 hu.2⟩) (fun _ => ⟨hp, h⟩)
    (fun _ => ⟨hp, State.storeInv_of_invalid rfl rfl rfl rfl rfl rfl⟩) (fun u hu => hu.2)
    (fun u e b _ hu => hu.2)
  rw [(stageOf_frame j u).params]
  exact hu.1

theorem State.StoreInv.hostEffect {s t : State} (h : s.StoreInv) (ht : HostEffect s t) :
    t.StoreInv := by
  cases ht <;> exact h

/-- Settles O60: each thing a step can do keeps the stores' invariant, a command because each of its
stages does. -/
theorem stepKeepsStoreInvariant : Obligations.StepKeepsStoreInvariant := by
  unfold Obligations.StepKeepsStoreInvariant
  intro s t hp hs hstep
  have hpop : s.popTurn.StoreInv := hs
  rcases step_cases hstep with ⟨rfl, -⟩ | ⟨i, -, hexec, -⟩ | ⟨e, -, rfl, -⟩ | ⟨a, -, rfl, -⟩ |
    ⟨-, rfl⟩ | ⟨-, rfl⟩
  · exact hpop
  · exact exec_keeps_storeInv (s := s.popTurn) hp hpop hexec
  · exact hpop
  · exact hpop.hostEffect (hostEffect_hostAccess a s.popTurn)
  · exact State.storeInv_of_invalid rfl rfl rfl rfl rfl rfl
  · exact hpop

end Sys2Proof.Machine

/-! The three windows of the host interface (20_memory.md R48-R62): the accesses that are bus errors,
writes while BUSY, reads and writes of IN_MEM, and reads of OUT_MEM. -/

namespace Sys2Proof.Machine

section

variable {p : Params} {size : Size} {off : Nat}

/-! ### Accesses inside a byte window (R49, R50, R54) -/

section

variable {s : State} {k : Nat} (hp : s.params.wf) (halign : k % size.bytes = 0)
include hp halign

theorem hostAccess_rd_inMem (hfits : k + size.bytes ≤ s.params.inCap) :
    hostAccess (.rd size (s.params.base + (inWindow + k))) s = s.readIn size k := by
  obtain ⟨-, ⟨-, hin⟩, -⟩ := hp
  simp only [hostAccess, locate_inMem s.params hin hfits halign]

theorem hostAccess_wr_inMem (hfits : k + size.bytes ≤ s.params.inCap) (v : Word) :
    hostAccess (.wr size (s.params.base + (inWindow + k)) v) s =
      (s.writeIn k (busBytes size.bytes v)).respond .written := by
  obtain ⟨-, ⟨-, hin⟩, -⟩ := hp
  simp only [hostAccess, locate_inMem s.params hin hfits halign]

theorem hostAccess_rd_outMem (hfits : k + size.bytes ≤ s.params.outCap) :
    hostAccess (.rd size (s.params.base + (outWindow + k))) s = s.readOut size k := by
  obtain ⟨-, ⟨-, hin⟩, ⟨-, hout⟩, -⟩ := hp
  simp only [hostAccess, locate_outMem s.params hin hout hfits halign]

theorem hostAccess_wr_outMem (hfits : k + size.bytes ≤ s.params.outCap) (v : Word) :
    hostAccess (.wr size (s.params.base + (outWindow + k)) v) s = s.respond .busError := by
  obtain ⟨-, ⟨-, hin⟩, ⟨-, hout⟩, -⟩ := hp
  simp only [hostAccess, locate_outMem s.params hin hout hfits halign]

end

/-! ### Bus errors (R53-R55) -/

theorem Size.bytes_pos (size : Size) : 0 < size.bytes := by cases size <;> decide

/-- A window starts at a multiple of every access width, so an access is aligned in the region exactly
when it is aligned in its window. -/
theorem Size.add_mod_bytes (size : Size) {start : Nat} (h : 4 ∣ start) (k : Nat) :
    (start + k) % size.bytes = k % size.bytes := by
  have hdvd : size.bytes ∣ start := Nat.dvd_trans (by cases size <;> decide) h
  rw [Nat.add_mod, Nat.mod_eq_zero_of_dvd hdvd, Nat.zero_add, Nat.mod_mod]

theorem fitsWindow_iff {k cap : Nat} :
    fitsWindow size k cap = true ↔ k % size.bytes = 0 ∧ k + size.bytes ≤ cap := by
  simp [fitsWindow]

/-- Every ill-formed access gets the error response. -/
theorem locate_of_illFormed (hp : p.wf) (hoff : off < regionSize) (h : illFormed p size off) :
    locate p size (p.base + off) = .busError := by
  obtain ⟨-, ⟨-, hin⟩, -⟩ := hp
  have hpos := size.bytes_pos
  rw [locate_add p size hoff]
  unfold locateOffset
  rcases h with ⟨hcsr, hwrong⟩ | ⟨hlow, hhigh⟩ | ⟨hlow, hhigh, hwrong⟩ | ⟨hlow, hwrong⟩
  · rw [if_pos hcsr, if_neg (by tauto)]
  · rw [if_neg (by omega), if_neg (by unfold inWindow; omega), if_neg (by unfold outWindow; omega)]
  · obtain ⟨k, rfl⟩ := Nat.exists_eq_add_of_le hlow
    rw [Size.add_mod_bytes size (by decide)] at hwrong
    have hmisfit : ¬ fitsWindow size k p.inCap = true := by rw [fitsWindow_iff]; omega
    rw [if_neg (by omega), if_neg (c := outWindow ≤ _ ∧ _) (by unfold outWindow; omega), inWindow,
      Nat.add_sub_cancel_left, if_neg hmisfit, ite_self]
  · obtain ⟨k, rfl⟩ := Nat.exists_eq_add_of_le hlow
    rw [Size.add_mod_bytes size (by decide)] at hwrong
    have hmisfit : ¬ fitsWindow size k p.outCap = true := by rw [fitsWindow_iff]; omega
    rw [if_neg (by omega), if_neg (by unfold inWindow; omega), outWindow, Nat.add_sub_cancel_left,
      if_neg hmisfit, ite_self]

/-- An access that is not ill-formed is an aligned word of the CSR window, or an aligned access wholly
inside the IN or the OUT window. -/
theorem wellFormed_cases (h : ¬ illFormed p size off) :
    (size = .b4 ∧ off < 0x1000 ∧ off % 4 = 0) ∨
    (∃ k, off = inWindow + k ∧ k % size.bytes = 0 ∧ k + size.bytes ≤ p.inCap ∧ off < outWindow) ∨
    ∃ k, off = outWindow + k ∧ k % size.bytes = 0 ∧ k + size.bytes ≤ p.outCap := by
  simp only [illFormed, not_or, not_and, not_lt, ne_eq, not_not] at h
  obtain ⟨hcsr, hhole, hin, hout⟩ := h
  by_cases h1 : off < 0x1000
  · exact .inl ⟨(hcsr h1).1, h1, (hcsr h1).2⟩
  by_cases h2 : off < 0x02000000
  · obtain ⟨k, rfl⟩ := Nat.exists_eq_add_of_le (hhole (by omega))
    obtain ⟨halign, hfits⟩ := hin (by omega) h2
    rw [Size.add_mod_bytes size (by decide)] at halign
    exact .inr (.inl ⟨k, rfl, halign, by omega, h2⟩)
  · obtain ⟨k, rfl⟩ := Nat.exists_eq_add_of_le (Nat.le_of_not_lt h2)
    obtain ⟨halign, hfits⟩ := hout (by omega)
    rw [Size.add_mod_bytes size (by decide)] at halign
    exact .inr (.inr ⟨k, rfl, halign, by omega⟩)

end

theorem State.readCsr_response_ne_busError (s : State) (off : Nat) :
    (s.readCsr off).response ≠ .busError := by
  unfold State.readCsr
  split
  · nofun
  · split_ifs <;> nofun

/-- Settles O49: the ill-formed accesses by the window map, and the others window by window. -/
theorem busErrorsChangeNothing : Obligations.BusErrorsChangeNothing := by
  unfold Obligations.BusErrorsChangeNothing
  intro s size off v hp hoff
  have hrd : illFormed s.params size off →
      hostAccess (.rd size (s.params.base + off)) s = s.respond .busError := fun hill => by
    simp only [hostAccess, locate_of_illFormed hp hoff hill]
  have hwr : illFormed s.params size off →
      hostAccess (.wr size (s.params.base + off) v) s = s.respond .busError := fun hill => by
    simp only [hostAccess, locate_of_illFormed hp hoff hill]
  by_cases hill : illFormed s.params size off
  · exact ⟨hrd, fun _ => hwr hill, absurd hill⟩
  obtain ⟨rfl, hlow, halign⟩ | ⟨k, rfl, halign, hfits, hlow⟩ | ⟨k, rfl, halign, hfits⟩ :=
    wellFormed_cases hill
  · refine ⟨hrd, fun h => absurd (h.resolve_left hill) (by omega), fun _ => ⟨?_, fun _ => ?_⟩⟩
    · rw [hostAccess_rd_csr s hlow halign]
      exact s.readCsr_response_ne_busError off
    · rw [hostAccess_wr_csr s v hlow halign]
      nofun
  · refine ⟨hrd, fun h => absurd (h.resolve_left hill) (Nat.not_le.2 hlow),
      fun _ => ⟨?_, fun _ => ?_⟩⟩
    · rw [hostAccess_rd_inMem hp halign hfits]
      nofun
    · rw [hostAccess_wr_inMem hp halign hfits]
      nofun
  · refine ⟨hrd, fun _ => hostAccess_wr_outMem hp halign hfits v, fun _ => ⟨?_, fun h => ?_⟩⟩
    · rw [hostAccess_rd_outMem hp halign hfits]
      nofun
    · exact absurd h (by unfold outWindow; omega)

/-! ### Writes while BUSY (R60) -/

/-- Settles O54: the writes a BUSY block drops, and those it takes or ignores in either phase. -/
theorem writesWhileBusyAreDropped : Obligations.WritesWhileBusyAreDropped := by
  unfold Obligations.WritesWhileBusyAreDropped
  intro s w hp
  refine ⟨fun hbusy => ?_, ⟨_, hostAccess_wr_reg s w .ctrl⟩, ⟨_, hostAccess_wr_reg s w .status⟩,
    fun off hlow hhigh halign => ⟨.written, ?_⟩⟩
  · have hdropped : ∀ t, (s.unlessBusy t).respond .written = { s with
        csr := { s.csr with status := { s.csr.status with dropped := true } }
        response := .written } := fun t => congrArg (·.respond .written) (State.unlessBusy_busy hbusy)
    refine ⟨fun off hoff => ⟨.written, ?_⟩, fun size k halign hfits => ⟨.written, ?_⟩⟩
    · simp only [List.mem_cons, List.not_mem_nil, or_false] at hoff
      rcases hoff with rfl | rfl | rfl | rfl
      · exact (hostAccess_wr_reg s w .cmd).trans (hdropped _)
      · exact (hostAccess_wr_reg s w .inLen).trans (hdropped _)
      · exact (hostAccess_wr_reg s w .qsym).trans (hdropped _)
      · exact (hostAccess_wr_reg s w .qword).trans (hdropped _)
    · exact (hostAccess_wr_inMem hp halign hfits w).trans (hdropped _)
  · rw [hostAccess_wr_csr s w (by omega) halign, s.writeCsr_reserved w hlow]
    rfl

/-! ### The byte order of the bus (R51) -/

/-- Byte `j` of a sequence's number, counted from the least significant. -/
theorem littleEndian_div_mod (bs : List Byte) (j : Nat) :
    littleEndian bs / 256 ^ j % 256 = (bs.getD j 0).toNat := by
  induction bs generalizing j with
  | nil => simp [littleEndian]
  | cons b bs ih =>
    have hb := b.isLt
    cases j with
    | zero => simp only [littleEndian, List.getD_cons_zero]; omega
    | succ j =>
      rw [littleEndian, pow_succ', ← Nat.div_div_eq_div_mul, List.getD_cons_succ, ← ih j]
      congr 2
      omega

/-- The bus carries byte `j` of a sequence at bits 8j+7:8j, and 0 above the sequence's end. -/
theorem extractLsb'_littleEndian {bs : List Byte} (h : bs.length ≤ 4) (j : Nat) :
    (BitVec.ofNat 32 (littleEndian bs)).extractLsb' (8 * j) 8 = bs.getD j 0 := by
  have hlt : littleEndian bs < 2 ^ 32 :=
    (littleEndian_lt bs).trans_le (Nat.pow_le_pow_right (n := 256) (by omega) h)
  apply BitVec.eq_of_toNat_eq
  rw [BitVec.extractLsb'_toNat, BitVec.toNat_ofNat, Nat.mod_eq_of_lt hlt, Nat.shiftRight_eq_div_pow,
    pow_mul]
  exact littleEndian_div_mod bs j

theorem littleEndian_concat (bs : List Byte) (b : Byte) :
    littleEndian (bs ++ [b]) = littleEndian bs + 256 ^ bs.length * b.toNat := by
  induction bs with
  | nil => simp [littleEndian]
  | cons c bs ih =>
    rw [List.cons_append, littleEndian, ih, littleEndian, List.length_cons]
    ring

/-- The bytes of a bus value carry its low bits. -/
theorem littleEndian_busBytes (n : Nat) (v : Word) :
    littleEndian (busBytes n v) = v.toNat % 2 ^ (8 * n) := by
  induction n with
  | zero => simp [busBytes, littleEndian, Nat.mod_one]
  | succ n ih =>
    have hlast : busBytes (n + 1) v = busBytes n v ++ [v.extractLsb' (8 * n) 8] := by
      rw [busBytes, List.range_succ, List.map_append]
      rfl
    rw [hlast, littleEndian_concat, ih, length_busBytes, BitVec.extractLsb'_toNat,
      Nat.shiftRight_eq_div_pow, Nat.mul_succ, pow_add, Nat.mod_mul, pow_mul 2 8 n]
    rfl

theorem Size.bytes_le (size : Size) : size.bytes ≤ 4 := by cases size <;> decide

/-- The data of a read whose byte `j` is `f j`: those bytes in order, and 0 above the access width. -/
theorem readData_map (size : Size) (f : Nat → Byte) :
    ∃ w : Word, readData size ((List.range size.bytes).map f) = .data size w ∧
      (∀ j, j < size.bytes → w.extractLsb' (8 * j) 8 = f j) ∧
      ∀ j, size.bytes ≤ j → w.extractLsb' (8 * j) 8 = 0 := by
  have hbyte := extractLsb'_littleEndian (bs := (List.range size.bytes).map f)
    (by simpa using size.bytes_le)
  exact ⟨_, rfl, fun j h => by simp [hbyte, h], fun j h => by simp [hbyte, h]⟩

/-! ### The IN window (R49, R61) -/

section

variable {t : State} {m : Memory} {k : Nat} {bs : List Byte}

/-- Inside the bytes just written IN_MEM holds them. -/
theorem inByte_of_writeBytes (h : t.inMem = m.writeBytes k bs) {j : Nat} (hj : j < bs.length) :
    t.inByte (k + j) = bs[j] := by
  rw [State.inByte, h, Memory.read?_writeBytes_inside _ _ _ hj, Option.getD_some]

/-- Reading the bytes just written gives them back. -/
theorem memReadIn_of_writeBytes (h : t.inMem = m.writeBytes k bs) :
    t.memReadIn k bs.length = bs :=
  List.ext_getElem (by simp) fun j _ hj => by
    rw [State.getElem_memReadIn, inByte_of_writeBytes h hj]

/-- Every other byte of IN_MEM is as before. -/
theorem inByte_writeBytes_outside (s : State) (r : Response) {a : Nat}
    (h : a < k ∨ k + bs.length ≤ a) :
    { s with inMem := s.inMem.writeBytes k bs, response := r }.inByte a = s.inByte a := by
  simp only [State.inByte, Memory.read?_writeBytes_outside _ _ _ h]

end

theorem hostAccess_wr_inMem_idle {s : State} {size : Size} {k : Nat} (hp : s.params.wf)
    (halign : k % size.bytes = 0) (hfits : k + size.bytes ≤ s.params.inCap)
    (hidle : s.phase = .idle) (v : Word) :
    hostAccess (.wr size (s.params.base + (inWindow + k)) v) s =
      { s with inMem := s.inMem.writeBytes k (busBytes size.bytes v), response := .written } :=
  (hostAccess_wr_inMem hp halign hfits v).trans
    (congrArg (·.respond .written) (State.unlessBusy_idle hidle))

/-- A read of the bytes of a value just written gives the value's low bits. -/
theorem response_rd_inMem_of_writeBytes {t : State} {m : Memory} {size : Size} {k : Nat} {v : Word}
    (hp : t.params.wf) (halign : k % size.bytes = 0) (hfits : k + size.bytes ≤ t.params.inCap)
    (h : t.inMem = m.writeBytes k (busBytes size.bytes v)) :
    (hostAccess (.rd size (t.params.base + (inWindow + k))) t).response =
      .data size (BitVec.ofNat 32 (v.toNat % 2 ^ (8 * size.bytes))) := by
  have hread := memReadIn_of_writeBytes h
  rw [length_busBytes] at hread
  rw [hostAccess_rd_inMem hp halign hfits, State.readIn, State.respond_response, hread, readData,
    littleEndian_busBytes]

/-- Settles O55: the bytes written are the bytes read, and their number on the bus is the value. -/
theorem inWindowWriteThenRead : Obligations.InWindowWriteThenRead := by
  unfold Obligations.InWindowWriteThenRead
  refine ⟨fun s size k hp halign hfits => ?_, fun s size k v hp hidle halign hfits => ?_⟩
  · obtain ⟨w, hw, hbytes, hzero⟩ := readData_map size fun j => s.inByte (k + j)
    exact ⟨w, (hostAccess_rd_inMem hp halign hfits).trans (congrArg s.respond hw), hbytes,
      fun j hj _ => hzero j hj⟩
  · have hlen : (busBytes size.bytes v).length = size.bytes := length_busBytes ..
    refine ⟨_, hostAccess_wr_inMem_idle hp halign hfits hidle v, rfl, fun j hj => ?_, fun a ha => ?_,
      ?_⟩
    · rw [inByte_of_writeBytes rfl (hlen.symm ▸ hj)]
      simp [busBytes]
    · exact inByte_writeBytes_outside s .written (hlen.symm ▸ ha)
    · exact response_rd_inMem_of_writeBytes (t := { s with
        inMem := s.inMem.writeBytes k (busBytes size.bytes v), response := .written })
        hp halign hfits rfl

/-! ### The OUT window (R50, R61, R148) -/

/-- Settles O56: each byte of the window by R61's cases. -/
theorem outWindowReads : Obligations.OutWindowReads := by
  unfold Obligations.OutWindowReads
  intro s size k hp halign hfits
  obtain ⟨w, hw, hbytes, hzero⟩ := readData_map size fun j => s.outByte (k + j) (s.draws + j)
  refine ⟨w, (hostAccess_rd_outMem hp halign hfits).trans (by rw [State.readOut, hw]),
    fun j hj _ => hzero j hj, fun j hj => ?_⟩
  rw [hbytes j hj]
  refine ⟨fun hfree => if_pos hfree, fun b hidle hlow hb => ?_⟩
  rw [State.outByte, if_neg (by simp [hidle, hlow]), hb, Option.getD_some]

end Sys2Proof.Machine

/-! What a step runs (40_command_model.md R76, R81) and what no command touches (R49, R70, R122). -/

namespace Sys2Proof.Machine

/-! ### The frame of the commands -/

/-- What the host writes and the model's own fields: all that no command is to change. -/
def State.hostPart (s : State) :=
  (s.inMem, (s.csr.ctrlIE, s.csr.cmd, s.csr.inLen, s.csr.qsym, s.csr.qword, s.csr.status.dropped),
    s.pending, s.inReset, s.params, s.resets, s.draws, s.schedule, s.response)

theorem StageFrame.hostPart {j : Instr} {s u : State} (h : StageFrame j s u) :
    u.hostPart = s.hostPart := by
  rw [h.rest]
  rfl

theorem exec_hostPart {i : Instr} {s t : State} (h : exec i s = .next t) :
    t.hostPart = s.hostPart :=
  exec_induction (P := fun u => u.hostPart = s.hostPart) (Q := fun u => u.hostPart = s.hostPart)
    h rfl (fun j _ u hu => (stageOf_frame j u).hostPart.trans hu) (fun _ => rfl) (fun _ => rfl)
    (fun _ hu => hu) (fun _ _ _ _ hu => hu)

/-- Settles O46: the frame of each stage along the stages of each command. -/
theorem commandsLeaveTheHostsStateAlone : Obligations.CommandsLeaveTheHostsStateAlone := by
  unfold Obligations.CommandsLeaveTheHostsStateAlone
  intro i s t h
  have hpart := exec_hostPart h
  simp only [State.hostPart, Prod.mk.injEq] at hpart
  obtain ⟨hmem, ⟨hctrl, hcmd, hlen, hqsym, hqword, hdropped⟩, hpending, hreset, hparams, hresets,
    hmodel⟩ := hpart
  exact ⟨hmem, fun a => by rw [State.inByte, hmem, hresets, State.inByte], hctrl, hcmd, hlen, hqsym,
    hqword, hdropped, hpending, hreset, hparams, hresets, hmodel⟩

/-! ### The turn a step takes -/

theorem decodeWord_encode (i : Instr) : decodeWord (encode i) = .ok i := by cases i <;> rfl

theorem State.withFetchWord_32 (s : State) (w : Word) :
    s.withFetchWord 32 w.toNat = s.loadCommand w := by
  rw [State.withFetchWord, Nat.mod_eq_of_lt w.isLt, BitVec.ofNat_toNat, BitVec.setWidth_eq]

theorem State.coreMove_busy {s : State} (hbusy : s.phase = .busy) (hreset : s.inReset = false) :
    s.coreMove = .core s := if_pos ⟨hbusy, hreset⟩

theorem State.coreMove_idle {s : State} (hidle : s.phase = .idle) : s.coreMove = .rest s :=
  if_neg (by simp [hidle])

theorem nextMove_nil {s : State} (h : s.schedule = []) : nextMove s = s.coreMove := by
  rw [nextMove, h]

theorem nextMove_core {s : State} {rest : List Turn} (h : s.schedule = .core :: rest) :
    nextMove s = { s with schedule := rest }.coreMove := by
  rw [nextMove, h]

theorem nextMove_access {s : State} {a : Access} {rest : List Turn}
    (h : s.schedule = .access a :: rest) (hreset : s.inReset = false) :
    nextMove s = .access a { s with schedule := rest } := by
  simp only [nextMove, h, hreset, Bool.false_eq_true, if_false]

theorem step_of_core {s t : State} {i : Instr} (hmove : nextMove s = .core t)
    (hdecode : decodeWord t.pending = .ok i) : step s = exec i t := by
  simp only [step, hmove, fetch, hdecode]

theorem step_of_rest {s t : State} (hmove : nextMove s = .rest t) : step s = .next t := by
  simp only [step, hmove]

/-- Settles O3: the next move by the first turn of the schedule, and what a step makes of it. -/
theorem pendingCommandIsRun : Obligations.PendingCommandIsRun := by
  unfold Obligations.PendingCommandIsRun
  refine ⟨fun s i hbusy hreset hdecode => ⟨fun hnil => ?_, fun rest hcore => ?_⟩, fun s i => ?_,
    fun s a rest haccess hreset => ?_, fun s hidle => ⟨fun hnil => ?_, fun rest hcore => ?_⟩⟩
  · exact step_of_core ((nextMove_nil hnil).trans (State.coreMove_busy hbusy hreset)) hdecode
  · exact step_of_core ((nextMove_core hcore).trans (State.coreMove_busy hbusy hreset)) hdecode
  · rw [State.withFetchWord_32]
    exact step_of_core ((nextMove_core rfl).trans (State.coreMove_busy rfl rfl)) (decodeWord_encode i)
  · simp only [step, nextMove_access haccess hreset]
  · exact step_of_rest ((nextMove_nil hnil).trans (State.coreMove_idle hidle))
  · exact step_of_rest ((nextMove_core hcore).trans (State.coreMove_idle hidle))

end Sys2Proof.Machine

/-! The command word (30_encoding.md R65-R68): the decoder by the two fields of a word, against the
encoder and against R67's list of gaps, and what the core makes of an illegal word
(60_exceptions.md R129). -/

namespace Sys2Proof

/-! ### The two fields of a word (R65) -/

theorem toNat_opField (w : Word) : (opField w).toNat = w.toNat % 256 := BitVec.toNat_setWidth 8 w

theorem toNat_rsvdField (w : Word) : (rsvdField w).toNat = w.toNat / 256 := by
  have hw := w.isLt
  rw [rsvdField, BitVec.extractLsb'_toNat, Nat.shiftRight_eq_div_pow]
  omega

theorem rsvdField_eq_zero_iff (w : Word) : rsvdField w = 0 ↔ w.toNat / 256 = 0 := by
  rw [← BitVec.toNat_inj, toNat_rsvdField, BitVec.ofNat_eq_ofNat, BitVec.toNat_ofNat, Nat.zero_mod]

/-- A word is its RSVD and its OP. -/
theorem eq_setWidth_iff (w : Word) (op : Byte) :
    w = op.setWidth 32 ↔ rsvdField w = 0 ∧ opField w = op := by
  have hop := op.isLt
  rw [rsvdField_eq_zero_iff, ← BitVec.toNat_inj, ← BitVec.toNat_inj, toNat_opField,
    BitVec.toNat_setWidth, Nat.mod_eq_of_lt (by omega)]
  omega

/-! ### The opcode map and its gaps (R66, R67) -/

theorem opcodeMap_lookup_opcode (i : Instr) : opcodeMap.lookup i.opcode = some i := by
  cases i <;> rfl

theorem opcodeMap_lookup_eq_some {op : Byte} {i : Instr} :
    opcodeMap.lookup op = some i ↔ op = i.opcode := by
  refine ⟨fun h => ?_, fun h => h ▸ opcodeMap_lookup_opcode i⟩
  obtain ⟨before, after, hmap, -⟩ := List.lookup_eq_some_iff.1 h
  have hrows : ∀ row ∈ opcodeMap, row.1 = row.2.opcode := by decide
  exact hrows (op, i) (by simp [hmap])

/-- R67's gaps are what the rows of R66 leave out. -/
theorem opcodeMap_lookup_eq_none_iff (op : Byte) :
    opcodeMap.lookup op = none ↔
      (0x03 ≤ op.toNat ∧ op.toNat ≤ 0x0F) ∨ (0x16 ≤ op.toNat ∧ op.toNat ≤ 0x1F) ∨
      (0x23 ≤ op.toNat ∧ op.toNat ≤ 0x2F) ∨ (0x32 ≤ op.toNat ∧ op.toNat ≤ 0xFF) := by
  simp only [List.lookup_eq_none_iff, opcodeMap, List.forall_mem_cons, List.not_mem_nil,
    false_implies, implies_true, bne_iff_ne, ne_eq, and_true]
  bv_omega

theorem legalWord_eq_false_iff (w : Word) :
    legalWord w = false ↔ rsvdField w ≠ 0 ∨ opcodeMap.lookup (opField w) = none := by
  rw [opcodeMap_lookup_eq_none_iff, toNat_opField, Ne, rsvdField_eq_zero_iff]
  simp only [legalWord, Bool.and_eq_false_iff, Bool.not_eq_false', Bool.or_eq_true,
    Bool.and_eq_true, decide_eq_true_eq, beq_eq_false_iff_ne, ne_eq, or_assoc]

/-! ### The decoder -/

theorem decodeWord_eq_ok_iff (w : Word) (i : Instr) :
    decodeWord w = .ok i ↔ rsvdField w = 0 ∧ opField w = i.opcode := by
  rw [← opcodeMap_lookup_eq_some, decodeWord]
  split_ifs with hrsvd
  · exact ⟨nofun, fun hok => absurd hok.1 hrsvd⟩
  · cases opcodeMap.lookup (opField w) with
    | none => simp
    | some j => simp [not_not.1 hrsvd]

theorem exists_decodeWord_eq_error_iff (w : Word) :
    (∃ e, decodeWord w = .error e) ↔
      rsvdField w ≠ 0 ∨ opcodeMap.lookup (opField w) = none := by
  rw [decodeWord]
  split_ifs with hrsvd
  · exact ⟨fun _ => .inl hrsvd, fun _ => ⟨_, rfl⟩⟩
  · cases opcodeMap.lookup (opField w) with
    | none => simp
    | some j => simp [not_not.1 hrsvd]

/-- Settles O2: the decoder against the encoder and against R67, by the two fields of the word. -/
theorem decoderAgreesWithEncoderAndR67 : Obligations.DecoderAgreesWithEncoderAndR67 := by
  unfold Obligations.DecoderAgreesWithEncoderAndR67
  refine ⟨fun w i => ?_, fun w => ?_⟩
  · rw [decodeWord_eq_ok_iff, encode, eq_setWidth_iff]
  · rw [exists_decodeWord_eq_error_iff, legalWord_eq_false_iff]

end Sys2Proof

namespace Sys2Proof.Machine

/-! ### Bytes (R68) -/

theorem wordOfBytes_bytesOfWord (w : Word) :
    wordOfBytes (w.extractLsb' 0 8) (w.extractLsb' 8 8) (w.extractLsb' 16 8) (w.extractLsb' 24 8)
      = w := by
  rw [wordOfBytes,
    BitVec.extractLsb'_append_extractLsb'_eq_extractLsb' (start₁ := 16) (len₁ := 8) rfl,
    BitVec.extractLsb'_append_extractLsb'_eq_extractLsb' (start₁ := 8) (len₁ := 8) rfl,
    BitVec.extractLsb'_append_extractLsb'_eq_extractLsb' (start₁ := 0) (len₁ := 8) rfl]
  exact BitVec.extractLsb'_eq_self

theorem decodeBytes_encodeBytes_append (i : Instr) (rest : List Byte) :
    decodeBytes (encodeBytes i ++ rest) = .ok (i, rest) := by
  simp only [encodeBytes, bytesOfWord, List.cons_append, List.nil_append, decodeBytes,
    wordOfBytes_bytesOfWord, decodeWord_encode]

/-- Settles O1: each word written out is the encoding of its row's command. -/
theorem opcodeMapWordsDecode : Obligations.OpcodeMapWordsDecode := by
  unfold Obligations.OpcodeMapWordsDecode
  exact ⟨decodeWord_encode .nop, decodeWord_encode .encode, decodeWord_encode .decode,
    decodeWord_encode .count, decodeWord_encode .build, decodeWord_encode .gencode,
    decodeWord_encode .map, decodeWord_encode .pack, decodeWord_encode .serialize,
    decodeWord_encode .deserialize, decodeWord_encode .unpack, decodeWord_encode .walk,
    decodeWord_encode .query, decodeWord_encode .clear, decodeBytes_encodeBytes_append .walk⟩

/-! ### The core's turn with an illegal word (R67, R129) -/

theorem nextMove_busy {s : State} (hbusy : s.phase = .busy) (hreset : s.inReset = false)
    (hturn : s.schedule = [] ∨ ∃ rest, s.schedule = .core :: rest) :
    nextMove s = .core s.popTurn := by
  rcases hturn with hnil | ⟨rest, hcore⟩
  · have hpop : s.popTurn = s := by rw [State.popTurn, hnil, List.tail_nil, ← hnil]
    rw [nextMove_nil hnil, hpop, State.coreMove_busy hbusy hreset]
  · have hpop : s.popTurn = { s with schedule := rest } := by
      rw [State.popTurn, hcore, List.tail_cons]
    rw [nextMove_core hcore, hpop]
    exact State.coreMove_busy hbusy hreset

theorem step_of_core_illegal {s t : State} (hmove : nextMove s = .core t)
    (hillegal : legalWord t.pending = false) : step s = .next t.illegalCommand := by
  obtain ⟨e, he⟩ :=
    (exists_decodeWord_eq_error_iff t.pending).2 ((legalWord_eq_false_iff t.pending).1 hillegal)
  simp only [step, hmove, fetch, he]

/-- Settles O4: the core's turn comes, its word does not decode, and the completion is R78's. -/
theorem illegalWordCompletesWithError : Obligations.IllegalWordCompletesWithError := by
  unfold Obligations.IllegalWordCompletesWithError
  intro s hbusy hreset hillegal hturn
  exact step_of_core_illegal (nextMove_busy hbusy hreset hturn) hillegal

end Sys2Proof.Machine

/-! Decimal counts (30_encoding.md R73, R74): the numerals, their values as numbers in base ten, and
that `dec` writes them and `parse_count` reads them. -/

namespace Sys2Proof.Machine

/-- The strings R73 gives as a representation of a count: digits, at least one, the first not '0'. -/
def IsNumeral (r : List Symbol) : Prop :=
  r ≠ [] ∧ (∀ c ∈ r, 0x30 ≤ c ∧ c ≤ 0x39) ∧ r.head? ≠ some 0x30

/-- The digits a string writes, least significant first, as Mathlib's `Nat.digits` has them. -/
def digitValues (r : List Symbol) : List Nat := (r.map (· - 0x30)).reverse

/-- The string that writes the digits, most significant first. -/
def numeralOf (ds : List Nat) : List Symbol := ds.reverse.map digitSym

/-! ### Single digits -/

theorem digit_sub_lt {c : Nat} (h : 0x30 ≤ c ∧ c ≤ 0x39) : c - 0x30 < 10 := by omega

theorem digitSym_sub {c : Nat} (h : 0x30 ≤ c) : digitSym (c - 0x30) = c := Nat.add_sub_of_le h

theorem digitSym_bounds {d : Nat} (h : d < 10) : 0x30 ≤ digitSym d ∧ digitSym d ≤ 0x39 :=
  ⟨Nat.le_add_right .., Nat.add_le_add_left (Nat.le_of_lt_succ h) _⟩

/-- R74's three malformed strings. -/
theorem not_isNumeral_iff (r : List Symbol) :
    ¬ IsNumeral r ↔ r = [] ∨ (∃ c ∈ r, c < 0x30 ∨ 0x39 < c) ∨ r.head? = some 0x30 := by
  simp only [IsNumeral, not_and_or, not_not, not_forall, not_le, exists_prop]

/-! ### Digits and values -/

theorem decimalValue_eq_ofDigits (r : List Symbol) :
    decimalValue r = Nat.ofDigits 10 (digitValues r) := by
  simp only [digitValues, decimalValue, Nat.ofDigits_eq_foldr, List.foldr_reverse, List.foldl_map,
    Nat.cast_id, Nat.add_comm]

theorem digitValues_numeralOf (ds : List Nat) : digitValues (numeralOf ds) = ds := by
  simp [digitValues, numeralOf, digitSym, Function.comp_def]

theorem numeralOf_digitValues {r : List Symbol} (hr : IsNumeral r) :
    numeralOf (digitValues r) = r := by
  obtain ⟨-, hdigits, -⟩ := hr
  rw [numeralOf, digitValues, List.reverse_reverse, List.map_map]
  exact (List.map_congr_left fun c hc => digitSym_sub (hdigits c hc).1).trans (List.map_id r)

/-- Only the digits of the value stand in a numeral: no zero leads. -/
theorem digits_decimalValue {r : List Symbol} (hr : IsNumeral r) :
    Nat.digits 10 (decimalValue r) = digitValues r := by
  obtain ⟨hne, hdigits, hhead⟩ := hr
  rw [decimalValue_eq_ofDigits]
  refine Nat.digits_ofDigits 10 (by decide) _ (fun d hd => ?_) (fun hne' => ?_)
  · obtain ⟨c, hc, rfl⟩ : ∃ c ∈ r, c - 0x30 = d := by simpa [digitValues] using hd
    exact digit_sub_lt (hdigits c hc)
  · cases r with
    | nil => exact absurd rfl hne
    | cons c r =>
      have hlow : 0x30 ≤ c := (hdigits c (List.mem_cons_self ..)).1
      have hzero : c ≠ 0x30 := by simpa using hhead
      simpa [digitValues] using Nat.sub_ne_zero_of_lt (lt_of_le_of_ne hlow hzero.symm)

theorem decimalValue_ne_zero {r : List Symbol} (hr : IsNumeral r) : decimalValue r ≠ 0 := by
  intro hzero
  have hdigits := digits_decimalValue hr
  obtain ⟨hne, -, -⟩ := hr
  rw [hzero, Nat.digits_zero] at hdigits
  exact hne (by simpa [digitValues] using hdigits.symm)

theorem isNumeral_numeralOf_digits {n : Nat} (hn : n ≠ 0) :
    IsNumeral (numeralOf (Nat.digits 10 n)) := by
  have hne : Nat.digits 10 n ≠ [] := Nat.digits_ne_nil_iff_ne_zero.2 hn
  refine ⟨by simpa [numeralOf] using hne, fun c hc => ?_, fun hhead => ?_⟩
  · obtain ⟨d, hd, rfl⟩ : ∃ d ∈ Nat.digits 10 n, digitSym d = c := by
      simpa [numeralOf] using hc
    exact digitSym_bounds (Nat.digits_lt_base (by decide) hd)
  · rw [numeralOf, List.head?_map, List.head?_reverse, List.getLast?_eq_some_getLast hne] at hhead
    exact Nat.getLast_digit_ne_zero 10 hn (by simpa [digitSym] using hhead)

/-! ### `dec` -/

theorem decLoop_eq (fuel : Nat) {n : Nat} (hn : n ≠ 0) (hfuel : n < fuel) (acc : List Symbol) :
    decLoop fuel n acc = numeralOf (Nat.digits 10 n) ++ acc := by
  induction fuel generalizing n acc with
  | zero => exact absurd hfuel (Nat.not_lt_zero n)
  | succ fuel ih =>
    rw [decLoop]
    split_ifs with hlt
    · simp [Nat.digits_of_lt 10 n hn hlt, numeralOf]
    · rw [ih (by omega) (by omega), Nat.digits_eq_cons_digits_div (by decide) hn]
      simp [numeralOf]

theorem dec_eq_numeralOf_digits {n : Nat} (hn : n ≠ 0) : dec n = numeralOf (Nat.digits 10 n) := by
  rw [dec, decLoop_eq _ hn (Nat.lt_succ_self n), List.append_nil]

theorem isNumeral_dec {n : Nat} (hn : n ≠ 0) : IsNumeral (dec n) :=
  dec_eq_numeralOf_digits hn ▸ isNumeral_numeralOf_digits hn

theorem decimalValue_dec {n : Nat} (hn : n ≠ 0) : decimalValue (dec n) = n := by
  rw [decimalValue_eq_ofDigits, dec_eq_numeralOf_digits hn, digitValues_numeralOf,
    Nat.ofDigits_digits]

theorem dec_decimalValue {r : List Symbol} (hr : IsNumeral r) : dec (decimalValue r) = r := by
  rw [dec_eq_numeralOf_digits (decimalValue_ne_zero hr), digits_decimalValue hr,
    numeralOf_digitValues hr]

/-! ### `parse_count` -/

theorem parseCount_numeral {r : List Symbol} (hr : IsNumeral r) :
    parseCount r = if countMax < decimalValue r then .tooBig else .ok (decimalValue r) := by
  have ⟨hne, hdigits, hhead⟩ := hr
  rw [parseCount, if_neg (by simpa using hne), if_neg (by simpa [isDigit] using hdigits),
    if_neg (fun h => hhead h.2), if_neg (decimalValue_ne_zero hr)]

theorem parseCount_of_not_isNumeral {r : List Symbol} (hr : ¬ IsNumeral r) :
    parseCount r = .malformed := by
  rcases (not_isNumeral_iff r).1 hr with rfl | ⟨c, hc, hout⟩ | hhead
  · rfl
  · have hdigit : (!r.all isDigit) = true := by
      rw [Bool.not_eq_true', List.all_eq_false]
      exact ⟨c, hc, by simpa [isDigit, imp_iff_not_or] using hout⟩
    rw [parseCount, if_pos hdigit, ite_self]
  · obtain ⟨t, rfl⟩ := List.head?_eq_some_iff.1 hhead
    cases t with
    | nil => rfl
    | cons d t =>
      have hlead : 2 ≤ (0x30 :: d :: t).length ∧ (0x30 :: d :: t).head? = some 0x30 :=
        ⟨Nat.le_add_left .., rfl⟩
      rw [parseCount, if_pos hlead, ite_self, ite_self]

theorem parseCount_eq_malformed_iff (r : List Symbol) :
    parseCount r = .malformed ↔ ¬ IsNumeral r := by
  refine ⟨fun h hr => ?_, parseCount_of_not_isNumeral⟩
  rw [parseCount_numeral hr] at h
  split_ifs at h

theorem parseCount_eq_tooBig_iff (r : List Symbol) :
    parseCount r = .tooBig ↔ IsNumeral r ∧ countMax < decimalValue r := by
  by_cases hr : IsNumeral r
  · simp [parseCount_numeral hr, hr]
  · simp [parseCount_of_not_isNumeral hr, hr]

theorem parseCount_eq_ok_iff (r : List Symbol) (v : Nat) :
    parseCount r = .ok v ↔ IsNumeral r ∧ v = decimalValue r ∧ decimalValue r ≤ countMax := by
  by_cases hr : IsNumeral r
  · by_cases hbig : countMax < decimalValue r
    · simp [parseCount_numeral hr, hbig]
    · simp [parseCount_numeral hr, hr, hbig, Nat.not_lt.1 hbig, eq_comm]
  · simp [parseCount_of_not_isNumeral hr, hr]

/-- Settles O14: the outcomes by what a numeral is, and `dec` as the numeral of its digits. -/
theorem decimalCountRoundTrip : Obligations.DecimalCountRoundTrip := by
  unfold Obligations.DecimalCountRoundTrip
  refine ⟨fun r value hvalue => ?_, fun n hpos hmax => ?_, fun r v h => ?_⟩
  · obtain rfl : value = decimalValue r := hvalue.trans (decimalValue_eq_ofDigits r).symm
    refine ⟨?_, ?_, fun v => ?_⟩
    · rw [parseCount_eq_malformed_iff, not_isNumeral_iff]
    · rw [parseCount_eq_tooBig_iff, IsNumeral, and_assoc, and_assoc, countMax]
    · rw [parseCount_eq_ok_iff, IsNumeral, and_assoc, and_assoc, countMax]
  · have hn : n ≠ 0 := Nat.one_le_iff_ne_zero.1 hpos
    rw [parseCount_eq_ok_iff, decimalValue_dec hn]
    exact ⟨isNumeral_dec hn, rfl, hmax⟩
  · obtain ⟨hr, rfl, hmax⟩ := (parseCount_eq_ok_iff r v).1 h
    exact ⟨(dec_decimalValue hr).symm, parseCount_pos h, hmax⟩

end Sys2Proof.Machine

/-! The command model (40_command_model.md R75-R81): acceptance, the two completions, where a command
fails, and the codec commands against their stage commands. -/

namespace Sys2Proof.Machine

/-! ### Acceptance and completion (R75, R77, R78) -/

/-- Settles O8: the write reaches CMD, which takes it unless BUSY. -/
theorem commandAcceptance : Obligations.CommandAcceptance := by
  unfold Obligations.CommandAcceptance
  refine fun s w => ⟨.written, (hostAccess_wr_reg s w .cmd).trans ?_⟩
  rw [State.writeCsr_offset]
  split_ifs with hbusy
  · exact congrArg (State.respond · .written) (State.unlessBusy_busy hbusy)
  · have htaken : s.unlessBusy (s.accept w) = s.accept w := if_neg hbusy
    exact congrArg (State.respond · .written) htaken

/-- Settles O9: the completions by their definitions. -/
theorem completionsSetTheFlags : Obligations.CompletionsSetTheFlags := by
  unfold Obligations.CompletionsSetTheFlags
  exact fun s code stage => ⟨rfl, rfl⟩

/-! ### Every command completes (R76) -/

theorem StageFrame.of_ok {j : Instr} {s u : State} (h : stageOf j s = .ok u) : StageFrame j s u := by
  simpa only [h, StageResult.state_ok] using stageOf_frame j s

theorem StageFrame.of_fail {j : Instr} {s u : State} {e : ErrCode} {b : Byte}
    (h : stageOf j s = .fail e b u) : StageFrame j s u := by
  simpa only [h, StageResult.state_fail] using stageOf_frame j s

theorem exists_exec_eq_next (i : Instr) (s : State) : ∃ t, exec i s = .next t := by
  cases i <;> exact ⟨_, rfl⟩

theorem StageFrame.ctrlIE {j : Instr} {s u : State} (h : StageFrame j s u) :
    u.csr.ctrlIE = s.csr.ctrlIE := by rw [h.rest]

theorem StageFrame.flagsClear {j : Instr} {s u : State} (h : StageFrame j s u)
    (hs : s.FlagsClear) : u.FlagsClear := by
  rwa [State.FlagsClear, h.status, h.err]

/-- A command completes in one of two ways, from a state whose flags are still clear. -/
theorem exec_completion {i : Instr} {s t : State} (hs : s.FlagsClear) (h : exec i s = .next t) :
    ∃ u : State, u.FlagsClear ∧ u.csr.ctrlIE = s.csr.ctrlIE ∧
      (t = u.completeOk ∨ ∃ e b, e ≠ .none ∧ t = u.completeError e b) :=
  exec_induction (P := fun u => u.FlagsClear ∧ u.csr.ctrlIE = s.csr.ctrlIE)
    (Q := fun t => ∃ u : State, u.FlagsClear ∧ u.csr.ctrlIE = s.csr.ctrlIE ∧
      (t = u.completeOk ∨ ∃ e b, e ≠ .none ∧ t = u.completeError e b))
    h ⟨hs, rfl⟩
    (fun j _ u hu => ⟨(stageOf_frame j u).flagsClear hu.1, (stageOf_frame j u).ctrlIE.trans hu.2⟩)
    (fun _ => ⟨hs, rfl⟩) (fun _ => ⟨hs, rfl⟩) (fun u hu => ⟨u, hu.1, hu.2, .inl rfl⟩)
    (fun u e b he hu => ⟨u, hu.1, hu.2, .inr ⟨e, b, he, rfl⟩⟩)

/-- Settles O10: a completion sets one of DONE and ERR, the flags being clear where it begins. -/
theorem everyCommandCompletes : Obligations.EveryCommandCompletes := by
  unfold Obligations.EveryCommandCompletes
  intro i s hs
  obtain ⟨t, h⟩ := exists_exec_eq_next i s
  obtain ⟨u, ⟨hdone, herr, hreg⟩, hctrl, rfl | ⟨e, b, he, rfl⟩⟩ := exec_completion hs h
  · exact ⟨_, h, rfl, rfl, by simp [State.irq, hctrl], .inl ⟨rfl, herr, hreg⟩⟩
  · exact ⟨_, h, rfl, rfl, by simp [State.irq, hctrl], .inr ⟨hdone, rfl, he, rfl, rfl⟩⟩

/-! ### Where a command fails (R80, R81) -/

/-- A stage that fails names itself, leaves its stores invalid and touches no register. -/
theorem stageOf_fail_effect {j : Instr} {s u : State} {e : ErrCode} {b : Byte}
    (h : stageOf j s = .fail e b u) : b = j.opcode ∧ outputsInvalid j u ∧ u.csr = s.csr := by
  cases j
  case' count => obtain ⟨_, -, hj⟩ | ⟨_, -, hj⟩ := stageCount_cases s
  case' build => obtain ⟨_, -, hj⟩ | ⟨_, -, hj⟩ := stageBuild_cases s
  case' gencode => obtain ⟨_, -, hj⟩ | ⟨_, -, hj⟩ := stageGencode_cases s
  case' map => obtain ⟨_, -, hj⟩ | ⟨_, -, hj⟩ := stageMap_cases s
  case' pack => obtain ⟨_, _, -, hj⟩ | ⟨_, -, hj⟩ := stagePack_cases s
  case' serialize => obtain ⟨_, -, hj⟩ | ⟨_, -, hj⟩ := stageSerialize_cases s
  case' deserialize => obtain ⟨_, _, -, hj⟩ | ⟨_, -, hj⟩ := stageDeserialize_cases s
  case' unpack => obtain ⟨_, -, hj⟩ | ⟨_, -, hj⟩ := stageUnpack_cases s
  case' walk => obtain ⟨_, _, -, hj⟩ | ⟨_, -, hj⟩ := stageWalk_cases s
  case nop | encode | decode | query | clear => cases h
  all_goals
    rw [stageOf, hj] at h
    cases h
  case deserialize => exact ⟨rfl, ⟨rfl, rfl⟩, rfl⟩
  case serialize | walk => exact ⟨rfl, trivial, rfl⟩
  all_goals exact ⟨rfl, rfl, rfl⟩

theorem runStages_cons_eq_ok {f : State → StageResult} {fs : List (State → StageResult)}
    {s t : State} : runStages (f :: fs) s = .ok t ↔ ∃ u, f s = .ok u ∧ runStages fs u = .ok t := by
  cases hf : f s with
  | ok u => simp [runStages_cons_ok hf]
  | fail e b u => simp [runStages_cons_fail hf]

/-- Stages that fail do so at one of them, those before it having succeeded. -/
theorem runStages_eq_fail {js : List Instr} {s t : State} {e : ErrCode} {b : Byte}
    (h : runStages (js.map stageOf) s = .fail e b t) :
    ∃ pre j post u, js = pre ++ j :: post ∧ runStages (pre.map stageOf) s = .ok u ∧
      stageOf j u = .fail e b t := by
  induction js generalizing s with
  | nil => cases h
  | cons k js ih =>
    rw [List.map_cons] at h
    cases hk : stageOf k s with
    | ok v =>
      rw [runStages_cons_ok hk] at h
      obtain ⟨pre, j, post, u, rfl, hpre, hj⟩ := ih h
      exact ⟨k :: pre, j, post, u, rfl, runStages_cons_eq_ok.2 ⟨v, hk, hpre⟩, hj⟩
    | fail e' b' v =>
      rw [runStages_cons_fail hk] at h
      cases h
      exact ⟨[], k, js, s, rfl, rfl, hk⟩

theorem runStages_flagsClear (js : List Instr) {s : State} (hs : s.FlagsClear) :
    (runStages (js.map stageOf) s).state.FlagsClear := by
  induction js generalizing s with
  | nil => exact hs
  | cons j js ih =>
    rw [List.map_cons]
    cases hj : stageOf j s with
    | ok u =>
      rw [runStages_cons_ok hj]
      exact ih ((StageFrame.of_ok hj).flagsClear hs)
    | fail e b u =>
      rw [runStages_cons_fail hj]
      exact (StageFrame.of_fail hj).flagsClear hs

/-- The flags that acceptance left clear tell how a command ended: with DONE after all its stages. -/
theorem exec_done {i : Instr} {s t : State} (hs : s.FlagsClear) (hi : stagesOf i ≠ [])
    (h : exec i s = .next t) (hdone : t.csr.status.done = true) :
    ∃ u, runStages ((stagesOf i).map stageOf) s = .ok u ∧ t = u.completeOk := by
  have hflags := runStages_flagsClear (stagesOf i) hs
  rw [exec_eq_runStages hi] at h
  cases h
  cases hr : runStages ((stagesOf i).map stageOf) s with
  | ok u => exact ⟨u, rfl, rfl⟩
  | fail e b w =>
    rw [hr] at hdone hflags
    exact nomatch hflags.1.symm.trans hdone

/-- And with ERR at the stage that failed. -/
theorem exec_err {i : Instr} {s t : State} (hs : s.FlagsClear) (h : exec i s = .next t)
    (herr : t.csr.status.err = true) :
    ∃ pre j post u w e b, stagesOf i = pre ++ j :: post ∧
      runStages (pre.map stageOf) s = .ok u ∧ stageOf j u = .fail e b w ∧
      t = w.completeError e b := by
  by_cases hi : stagesOf i = []
  · cases i
    case nop | query | clear =>
      cases h
      exact nomatch hs.2.1.symm.trans herr
    all_goals cases hi
  have hflags := runStages_flagsClear (stagesOf i) hs
  rw [exec_eq_runStages hi] at h
  cases h
  cases hr : runStages ((stagesOf i).map stageOf) s with
  | ok u =>
    rw [hr] at herr hflags
    exact nomatch hflags.2.1.symm.trans herr
  | fail e b w =>
    obtain ⟨pre, j, post, u, hsplit, hpre, hj⟩ := runStages_eq_fail hr
    exact ⟨pre, j, post, u, w, e, b, hsplit, hpre, hj, rfl⟩

/-- A completion touches no store. -/
theorem outputsInvalid_completeError (j : Instr) (s : State) (e : ErrCode) (b : Byte) :
    outputsInvalid j (s.completeError e b) ↔ outputsInvalid j s := by
  cases j <;> rfl

/-- Settles O12: the stage that failed, and what its failure leaves. -/
theorem failedStageInvalidatesItsOutputs : Obligations.FailedStageInvalidatesItsOutputs := by
  unfold Obligations.FailedStageInvalidatesItsOutputs
  intro i s t hs h herr
  obtain ⟨pre, j, post, u, w, e, b, hsplit, hpre, hj, rfl⟩ := exec_err hs h herr
  obtain ⟨rfl, hinvalid, hcsr⟩ := stageOf_fail_effect hj
  refine ⟨⟨j, by simp [hsplit], rfl, (outputsInvalid_completeError ..).2 hinvalid⟩, fun hone => ?_⟩
  obtain rfl : pre = [] := by
    rw [hone] at hsplit
    cases pre <;> simp_all
  cases hpre
  rw [State.completeError_csr, hcsr]
  exact ⟨rfl, rfl, rfl⟩

/-! ### Stages neither look at the flags nor change them (R80, R83) -/

/-- What acceptance and the completions write besides the output: the phase, BUSY, DONE and ERR, and
the ERR register. -/
structure Flags where
  phase : Phase
  busy : Bool
  done : Bool
  err : Bool
  reg : ErrReg

/-- The flags of a state. -/
def State.flags (s : State) : Flags :=
  ⟨s.phase, s.csr.status.busy, s.csr.status.done, s.csr.status.err, s.csr.err⟩

/-- The state with its flags as given, DROPPED and all else as they were. -/
def State.withFlags (s : State) (g : Flags) : State :=
  { s with
    phase := g.phase
    csr := { s.csr with
      status := { s.csr.status with busy := g.busy, done := g.done, err := g.err }, err := g.reg } }

theorem State.withFlags_flags (s : State) : s.withFlags s.flags = s := rfl

theorem State.flagsCleared_withFlags (s : State) (g : Flags) :
    (s.withFlags g).flagsCleared = s.withFlags ⟨g.phase, g.busy, false, false, ⟨.none, 0⟩⟩ := rfl

theorem State.completeOk_eq_withFlags (s : State) :
    s.completeOk = s.withFlags ⟨.idle, false, true, s.csr.status.err, s.csr.err⟩ := rfl

theorem State.completeOk_withFlags (s : State) (g : Flags) :
    (s.withFlags g).completeOk = s.withFlags ⟨.idle, false, true, g.err, g.reg⟩ := rfl

/-- Of the flags before it an error completion leaves only DONE. -/
theorem State.completeError_withFlags {s : State} {g : Flags} (h : g.done = s.csr.status.done)
    (e : ErrCode) (b : Byte) : (s.withFlags g).completeError e b = s.completeError e b := by
  obtain ⟨_, _, _, _, _⟩ := g
  cases h
  rfl

/-- The result with the state it leaves changed. -/
def StageResult.map (f : State → State) : StageResult → StageResult
  | .ok s => .ok (f s)
  | .fail e b s => .fail e b (f s)

section Results

variable (s : State) (g : Flags)

@[simp] theorem countResult_withFlags : countResult (s.withFlags g) = countResult s := rfl
@[simp] theorem mapResult_withFlags : mapResult (s.withFlags g) = mapResult s := rfl
@[simp] theorem deserializeResult_withFlags :
    deserializeResult (s.withFlags g) = deserializeResult s := rfl
@[simp] theorem State.withFlags_params : (s.withFlags g).params = s.params := rfl
@[simp] theorem State.withFlags_freq : (s.withFlags g).freq = s.freq := rfl
@[simp] theorem State.withFlags_tree : (s.withFlags g).tree = s.tree := rfl
@[simp] theorem State.withFlags_codes : (s.withFlags g).codes = s.codes := rfl
@[simp] theorem State.withFlags_bits : (s.withFlags g).bits = s.bits := rfl
@[simp] theorem State.withFlags_payload : (s.withFlags g).payload = s.payload := rfl

end Results

theorem stageOf_withFlags (j : Instr) (s : State) (g : Flags) :
    stageOf j (s.withFlags g) = (stageOf j s).map (State.withFlags · g) := by
  cases j
  case nop | encode | decode | query | clear => rfl
  case' count => simp only [stageOf, stageCount, countResult_withFlags]
  case' build => simp only [stageOf, stageBuild, State.withFlags_freq]
  case' gencode => simp only [stageOf, stageGencode, State.withFlags_params, State.withFlags_tree]
  case' map => simp only [stageOf, stageMap, mapResult_withFlags]
  case' pack => simp only [stageOf, stagePack, State.withFlags_params, State.withFlags_bits]
  case' serialize =>
    simp only [stageOf, stageSerialize, State.withFlags_params, State.withFlags_freq,
      State.withFlags_payload]
  case' deserialize => simp only [stageOf, stageDeserialize, deserializeResult_withFlags]
  case' unpack => simp only [stageOf, stageUnpack, State.withFlags_params, State.withFlags_payload]
  case' walk =>
    simp only [stageOf, stageWalk, State.withFlags_params, State.withFlags_tree,
      State.withFlags_bits]
  all_goals split <;> rfl

theorem exec_stage {j : Instr} (hj : stagesOf j = [j]) (s : State) :
    exec j s = .next (stageOf j s).complete := by
  rw [exec_eq_runStages (by simp [hj]), hj, List.map_singleton, runStages_singleton]

theorem exec_eq_completeOk {j : Instr} {s u : State} (hj : stagesOf j = [j])
    (h : stageOf j s = .ok u) : exec j s = .next u.completeOk := by
  rw [exec_stage hj, h, StageResult.complete_ok]

/-- A stage that succeeds with some flags succeeds with any, and its command sets DONE. -/
theorem exec_stage_ok {j : Instr} {s u : State} (hj : stagesOf j = [j]) (h : stageOf j s = .ok u)
    (g : Flags) :
    exec j (s.withFlags g) = .next (u.withFlags ⟨.idle, false, true, g.err, g.reg⟩) := by
  rw [exec_stage hj, stageOf_withFlags, h]
  exact congrArg _ (u.completeOk_withFlags g)

theorem exec_stage_fail {j : Instr} {s u : State} {e : ErrCode} {b : Byte} (hj : stagesOf j = [j])
    (h : stageOf j s = .fail e b u) (hdone : u.csr.status.done = false) (g : Flags) :
    exec j (s.withFlags g).flagsCleared = .next (u.completeError e b) := by
  rw [State.flagsCleared_withFlags, exec_stage hj, stageOf_withFlags, h]
  exact congrArg _ (State.completeError_withFlags hdone.symm e b)

/-! ### The codec commands and their stage commands (R114, R115) -/

/-- Stages that succeed in order are their commands run in order, but for the flags. -/
theorem ranInOrder_of_runStages {js : List Instr} (hjs : ∀ j ∈ js, stagesOf j = [j]) {s u : State}
    (h : runStages (js.map stageOf) s = .ok u) (g : Flags) :
    ∃ g', RanInOrder js (s.withFlags g) (u.withFlags g') := by
  induction js generalizing s g with
  | nil =>
    cases h
    exact ⟨g, rfl⟩
  | cons j js ih =>
    obtain ⟨v, hj, hv⟩ := runStages_cons_eq_ok.1 h
    obtain ⟨g', hg'⟩ := ih (fun k hk => hjs k (List.mem_cons_of_mem _ hk)) hv
      ⟨.idle, false, true, false, ⟨.none, 0⟩⟩
    exact ⟨g', _, exec_stage_ok (hjs j (List.mem_cons_self ..)) hj
      ⟨g.phase, g.busy, false, false, ⟨.none, 0⟩⟩, ⟨rfl, rfl, rfl, rfl⟩, hg'⟩

/-- A stage command from where the one before it left off, flags and all. -/
theorem exec_completeOk {j : Instr} {s u : State} (hj : stagesOf j = [j])
    (h : stageOf j s = .ok u) : exec j s.completeOk = .next u.completeOk := by
  have hframe := StageFrame.of_ok h
  rw [s.completeOk_eq_withFlags, exec_stage_ok hj h, ← hframe.status, ← hframe.err,
    ← u.completeOk_eq_withFlags]

/-- No command has two stages that write the same store: the lists are the writers of FREQ, TREE,
CODES, BITS and PAYLOAD (R70, R81). -/
theorem notMem_writers_of_mem_stagesOf (i : Instr) :
    ∀ k ∈ stagesOf i, ∀ j ∈ stagesOf i, k ≠ j →
      ∀ writers ∈ [[Instr.count, .deserialize], [.build], [.gencode], [.map, .unpack],
        [.pack, .deserialize]], k ∈ writers → j ∉ writers := by
  cases i <;> decide

theorem StageFrame.sameStores {i j k : Instr} {s u : State} (h : StageFrame j s u)
    (hk : k ∈ stagesOf i) (hj : j ∈ stagesOf i) (hne : k ≠ j) : sameStores k u s := by
  have hwriters := notMem_writers_of_mem_stagesOf i k hk j hj hne
  cases k
  case count => exact h.freq (hwriters _ (by decide) (by decide))
  case build => exact h.tree (hwriters _ (by decide) (by decide))
  case gencode => exact h.codes (hwriters _ (by decide) (by decide))
  case map | unpack => exact h.bits (hwriters _ (by decide) (by decide))
  case pack => exact h.payload (hwriters _ (by decide) (by decide))
  case deserialize =>
    exact ⟨h.freq (hwriters _ (by decide) (by decide)),
      h.payload (hwriters _ (by decide) (by decide))⟩
  all_goals trivial

/-- Stages of a command leave the stores of its other stages alone. -/
theorem runStages_sameStores {i k : Instr} {js : List Instr} {s u : State} (hk : k ∈ stagesOf i)
    (hjs : ∀ j ∈ js, j ∈ stagesOf i ∧ k ≠ j) (h : runStages (js.map stageOf) s = .ok u) :
    sameStores k u s := by
  induction js generalizing s with
  | nil =>
    cases h
    exact sameStores_refl k _
  | cons j js ih =>
    obtain ⟨v, hj, hv⟩ := runStages_cons_eq_ok.1 h
    obtain ⟨hmem, hne⟩ := hjs j (List.mem_cons_self ..)
    exact sameStores_trans (ih (fun l hl => hjs l (List.mem_cons_of_mem _ hl)) hv)
      ((StageFrame.of_ok hj).sameStores hk hmem hne)

theorem sameStores_completeError (k : Instr) (s : State) (e : ErrCode) (b : Byte) :
    sameStores k (s.completeError e b) s := by
  cases k <;> simp [sameStores]

theorem sameStores_withFlags (k : Instr) (s : State) (g : Flags) :
    sameStores k s (s.withFlags g) := by
  cases k <;> simp [sameStores]

theorem stagesOf_of_mem_stagesOf (i : Instr) : ∀ j ∈ stagesOf i, stagesOf j = [j] := by
  cases i <;> decide

theorem stagesOf_nodup (i : Instr) : (stagesOf i).Nodup := by cases i <;> decide

/-- A successful ENCODE leaves what its six stage commands leave. -/
theorem exec_encode_chain {s t : State} (hs : s.FlagsClear) (h : exec .encode s = .next t)
    (hdone : t.csr.status.done = true) :
    ∃ s₁ s₂ s₃ s₄ s₅, exec .count s = .next s₁ ∧ exec .build s₁ = .next s₂ ∧
      exec .gencode s₂ = .next s₃ ∧ exec .map s₃ = .next s₄ ∧ exec .pack s₄ = .next s₅ ∧
      exec .serialize s₅ = .next t := by
  obtain ⟨u, hu, rfl⟩ := exec_done hs (by decide) h hdone
  simp only [stagesOf, List.map_cons, runStages_cons_eq_ok] at hu
  obtain ⟨_, hcount, _, hbuild, _, hgencode, _, hmap, _, hpack, _, hserialize, hend⟩ := hu
  cases hend
  exact ⟨_, _, _, _, _, exec_eq_completeOk rfl hcount, exec_completeOk rfl hbuild,
    exec_completeOk rfl hgencode, exec_completeOk rfl hmap, exec_completeOk rfl hpack,
    exec_completeOk rfl hserialize⟩

/-- A successful DECODE leaves what its four stage commands leave. -/
theorem exec_decode_chain {s t : State} (hs : s.FlagsClear) (h : exec .decode s = .next t)
    (hdone : t.csr.status.done = true) :
    ∃ s₁ s₂ s₃, exec .deserialize s = .next s₁ ∧ exec .build s₁ = .next s₂ ∧
      exec .unpack s₂ = .next s₃ ∧ exec .walk s₃ = .next t := by
  obtain ⟨u, hu, rfl⟩ := exec_done hs (by decide) h hdone
  simp only [stagesOf, List.map_cons, runStages_cons_eq_ok] at hu
  obtain ⟨_, hdeserialize, _, hbuild, _, hunpack, _, hwalk, hend⟩ := hu
  cases hend
  exact ⟨_, _, _, exec_eq_completeOk rfl hdeserialize, exec_completeOk rfl hbuild,
    exec_completeOk rfl hunpack, exec_completeOk rfl hwalk⟩

/-- A command that fails leaves what its stage commands leave up to the one that fails. -/
theorem exec_err_ranInOrder {i : Instr} {s t : State} (hs : s.FlagsClear) (h : exec i s = .next t)
    (herr : t.csr.status.err = true) :
    ∃ pre j post u, stagesOf i = pre ++ j :: post ∧ RanInOrder pre s u ∧
      exec j u.flagsCleared = .next t ∧ t.csr.err.stage = j.opcode ∧ outputsInvalid j t ∧
      (∀ k ∈ pre, sameStores k t u) ∧ (∀ k ∈ post, sameStores k t s) := by
  obtain ⟨pre, j, post, u, w, e, b, hsplit, hpre, hfail, rfl⟩ := exec_err hs h herr
  obtain ⟨rfl, hinvalid, hcsr⟩ := stageOf_fail_effect hfail
  have hmem : ∀ k, k ∈ pre ∨ k = j ∨ k ∈ post → k ∈ stagesOf i := by simp [hsplit]
  obtain ⟨-, hnodup, happart⟩ := List.nodup_append.1 (hsplit ▸ stagesOf_nodup i)
  have hstage := fun k hk => stagesOf_of_mem_stagesOf i k (hmem k hk)
  obtain ⟨g, hran⟩ := ranInOrder_of_runStages (fun k hk => hstage k (.inl hk)) hpre s.flags
  rw [s.withFlags_flags] at hran
  have hdone : w.csr.status.done = false := by
    have hflags := runStages_flagsClear pre hs
    rw [hpre] at hflags
    rw [hcsr]
    exact hflags.1
  have hother : ∀ k ∈ stagesOf i, k ≠ j → sameStores k (w.completeError e j.opcode) u :=
    fun k hk hne => sameStores_trans (sameStores_completeError ..)
      ((StageFrame.of_fail hfail).sameStores hk (hmem j (.inr (.inl rfl))) hne)
  refine ⟨pre, j, post, u.withFlags g, hsplit, hran,
    exec_stage_fail (hstage j (.inr (.inl rfl))) hfail hdone g, rfl,
    (outputsInvalid_completeError ..).2 hinvalid, fun k hk => ?_, fun k hk => ?_⟩
  · exact sameStores_trans
      (hother k (hmem k (.inl hk)) (happart k hk j (List.mem_cons_self ..)))
      (sameStores_withFlags k u g)
  · have hki := hmem k (.inr (.inr hk))
    refine sameStores_trans (hother k hki fun heq => (List.nodup_cons.1 hnodup).1 (heq ▸ hk)) ?_
    exact runStages_sameStores hki (fun l hl =>
      ⟨hmem l (.inl hl), (happart l hl k (List.mem_cons_of_mem _ hk)).symm⟩) hpre

/-- Settles O40: the stages of a codec command do not look at the flags, which is all that running
them as commands changes. -/
theorem codecEqualsItsStageCommands : Obligations.CodecEqualsItsStageCommands := by
  unfold Obligations.CodecEqualsItsStageCommands
  exact ⟨fun _ _ => exec_encode_chain, fun _ _ => exec_decode_chain,
    fun _ _ _ _ => exec_err_ranInOrder⟩

end Sys2Proof.Machine

/-! What BUILD makes of any FREQ (41_tree_builder.md R84-R87): the two keys a merge takes out, and the
invariant of R85's loop for a table that R39 need not bound. -/

namespace Sys2Proof.Machine

/-! ### One merge -/

/-- The two indices a merge takes out are least keys in turn. -/
theorem takeTwo_leastKeys {nodes : List Node} {q q' : List Nat} {x y : Nat}
    (h : takeTwo nodes q = some (x, y, q')) :
    leastKey nodes q = some x ∧ leastKey nodes (q.erase x) = some y := by
  unfold takeTwo at h
  split at h
  · cases h
  next hx =>
  split at h
  · cases h
  next hy =>
  cases h
  exact ⟨hx, hy⟩

/-- Settles O19: each index taken out is the least key of what is left. -/
theorem mergeTakesTheTwoLeastKeys : Obligations.MergeTakesTheTwoLeastKeys := by
  unfold Obligations.MergeTakesTheTwoLeastKeys
  intro nodes q hnodup
  refine ⟨takeTwo_eq_none, fun x y q' htake => ?_⟩
  obtain ⟨hx, hy, rfl⟩ := takeTwo_eq_some htake
  obtain ⟨hxkey, hykey⟩ := takeTwo_leastKeys htake
  obtain ⟨-, hxleast⟩ := leastKey_eq_some hxkey
  obtain ⟨-, hyleast⟩ := leastKey_eq_some hykey
  obtain ⟨hyx, hyq⟩ := hnodup.mem_erase_iff.1 hy
  exact ⟨hx, hyq, hyx.symm, .refl _, fun z hz hzx => precedes_iff.1 (hxleast z hz hzx),
    fun z hz hzx hzy => precedes_iff.1 (hyleast z (hnodup.mem_erase_iff.2 ⟨hzx, hz⟩) hzy)⟩

/-! ### The loop of R85 on any table -/

/-- What the loop keeps whatever the table's symbols and counts: `MergeInv` without what only a table
of R39 gives, and with the leaves still in place. -/
structure LoopInv (f : FreqTable) (nodes : List Node) (q : List Nat) : Prop where
  queue : q.Perm (unmerged nodes)
  queue_ne : q ≠ []
  size : nodes.length + q.length = 2 * f.length
  leaves : leavesOf f <+: nodes
  children : ∀ i ∈ childrenOf nodes, i + 1 < nodes.length
  weights : (q.map (weightAt nodes)).sum = FreqTable.total f
  merged : ∀ j, f.length ≤ j → j < nodes.length →
    nodes[j]? = (takeTwo (nodes.take j) (unmerged (nodes.take j))).map (mergeNode (nodes.take j))

theorem loopInv_leavesOf {f : FreqTable} (hne : f ≠ []) :
    LoopInv f (leavesOf f) (List.range f.length) where
  queue := by simp
  queue_ne := by simpa using hne
  size := by rw [length_leavesOf, List.length_range]; omega
  leaves := List.prefix_rfl
  children := by simp
  weights := by rw [map_weightAt_leavesOf]; rfl
  merged := fun j h1 h2 => absurd h2 (by simpa using h1)

theorem weightAt_append_mergeNode (nodes : List Node) (m : Nat × Nat × List Nat) :
    weightAt (nodes ++ [mergeNode nodes m]) nodes.length =
      weightAt nodes m.1 + weightAt nodes m.2.1 := by
  simp [weightAt, mergeNode, Node.weight]

section Step

variable {f : FreqTable} {nodes : List Node} {q q' : List Nat} {x y : Nat}
variable (hinv : LoopInv f nodes q) (htake : takeTwo nodes q = some (x, y, q'))
include hinv

theorem LoopInv.lt_of_mem_queue {i : Nat} (h : i ∈ q) : i < nodes.length :=
  (mem_unmerged.1 (hinv.queue.mem_iff.1 h)).1

theorem LoopInv.length_le : f.length ≤ nodes.length := by
  simpa using hinv.leaves.length_le

/-- The node of a merge weighs what the two roots it takes out weigh, so the roots' weights still add
up to the whole text's. -/
theorem LoopInv.step_weights (hperm : q.Perm (x :: y :: q')) :
    ((q' ++ [nodes.length]).map (weightAt (nodes ++ [mergeNode nodes (x, y, q')]))).sum =
      FreqTable.total f := by
  have hold : ∀ i ∈ q', weightAt (nodes ++ [mergeNode nodes (x, y, q')]) i = weightAt nodes i :=
    fun i hi => weightAt_append (hinv.lt_of_mem_queue (hperm.mem_iff.2 (by simp [hi]))) _
  rw [← hinv.weights, (hperm.map _).sum_eq, List.map_append, List.map_congr_left hold]
  simp only [List.map_cons, List.map_nil, List.sum_append, List.sum_cons, List.sum_nil,
    weightAt_append_mergeNode]
  omega

include htake

theorem LoopInv.step_merged {j : Nat} (hj : f.length ≤ j) (hlt : j < nodes.length + 1) :
    (nodes ++ [mergeNode nodes (x, y, q')])[j]? =
      (takeTwo (nodes.take j) (unmerged (nodes.take j))).map (mergeNode (nodes.take j)) := by
  obtain hold | rfl := Nat.lt_succ_iff_lt_or_eq.1 hlt
  · rw [List.getElem?_append_left hold, hinv.merged j hj hold]
  · rw [List.take_length, ← map_mergeNode_takeTwo_perm nodes hinv.queue, htake,
      List.getElem?_concat_length, Option.map_some]

/-- One merge keeps the invariant. -/
theorem LoopInv.step : LoopInv f (nodes ++ [mergeNode nodes (x, y, q')]) (q' ++ [nodes.length]) := by
  obtain ⟨hx, hy, hq'⟩ := takeTwo_eq_some htake
  have hperm : q.Perm (x :: y :: q') :=
    hq' ▸ (List.perm_cons_erase hx).trans ((List.perm_cons_erase hy).cons x)
  have hxlt := hinv.lt_of_mem_queue hx
  have hylt := hinv.lt_of_mem_queue (List.mem_of_mem_erase hy)
  have hnew : nodes.length ∉ childrenOf nodes := fun h => by
    have := hinv.children _ h
    omega
  have hsize := hinv.size
  have hlen := hperm.length_eq
  have hleaves := hinv.length_le
  simp only [List.length_cons] at hlen
  refine
    { queue := ?_
      queue_ne := by simp
      size := by simp only [List.length_append, List.length_singleton]; omega
      leaves := hinv.leaves.trans (List.prefix_append ..)
      children := fun i hi => ?_
      weights := hinv.step_weights hperm
      merged := fun j h1 h2 => ?_ }
  · rw [mergeNode, unmerged_append_internal hxlt hylt hnew, hq']
    exact ((hinv.queue.erase x).erase y).append_right _
  · rw [childrenOf_append, mergeNode, childrenOf_internal, List.mem_append] at hi
    rw [List.length_append, List.length_singleton]
    obtain hi | hi := hi
    · exact (hinv.children i hi).trans (Nat.lt_succ_self _)
    · obtain rfl | rfl : i = x ∨ i = y := by simpa using hi
      all_goals omega
  · rw [List.length_append, List.length_singleton] at h2
    rw [List.take_append_of_le_length (by omega)]
    exact hinv.step_merged htake h1 h2

end Step

/-- The loop ends with one index left, the root. -/
theorem loopInv_mergeLoop {f : FreqTable} (fuel : Nat) {nodes : List Node} {q : List Nat}
    (hinv : LoopInv f nodes q) (hfuel : q.length ≤ fuel) :
    ∃ r, LoopInv f (mergeLoop fuel nodes q) [r] := by
  induction fuel generalizing nodes q with
  | zero => exact absurd (List.length_eq_zero_iff.1 (Nat.le_zero.1 hfuel)) hinv.queue_ne
  | succ fuel ih =>
    rw [mergeLoop]
    split
    next hnone =>
      have hlt := takeTwo_eq_none.1 hnone
      have hpos := List.length_pos_iff.2 hinv.queue_ne
      obtain ⟨r, rfl⟩ := List.length_eq_one_iff.1 (by omega : q.length = 1)
      exact ⟨r, hinv⟩
    next x y q' hsome =>
      have hstep := hinv.step hsome
      have hsize := hinv.size
      have hsize' := hstep.size
      rw [List.length_append, List.length_singleton] at hsize'
      exact ih hstep (by omega)

/-! ### The tree that is left -/

section Tree

variable {f : FreqTable} {nodes : List Node} {r : Nat} (hinv : LoopInv f nodes [r])
include hinv

theorem LoopInv.tree_length : nodes.length = 2 * f.length - 1 := by
  have hsize := hinv.size
  rw [List.length_singleton] at hsize
  omega

/-- The last node is the root: it is no node's child, and only the root is left unmerged. -/
theorem LoopInv.root_eq : r = nodes.length - 1 := by
  have hlt := hinv.lt_of_mem_queue (List.mem_singleton_self r)
  have hlast : nodes.length - 1 ∈ [r] := hinv.queue.mem_iff.2 <|
    mem_unmerged.2 ⟨by omega, fun h => by have := hinv.children _ h; omega⟩
  exact (List.mem_singleton.1 hlast).symm

theorem LoopInv.tree_weight : weightAt nodes (2 * f.length - 2) = FreqTable.total f := by
  have hroot : r = 2 * f.length - 2 := by rw [hinv.root_eq, hinv.tree_length]; omega
  simpa [hroot] using hinv.weights

theorem LoopInv.tree_leaves : nodes.take f.length = leavesOf f := by
  simpa using (List.prefix_iff_eq_take.1 hinv.leaves).symm

theorem LoopInv.tree_merged : Tree.Merged ⟨nodes, f.length⟩ := by
  intro k hk
  have hlen := hinv.tree_length
  dsimp only at hk ⊢
  rw [hinv.merged (f.length + k) (by omega) (by omega)]
  refine Option.map_congr fun m hm => ?_
  obtain ⟨x, y, q⟩ := m
  obtain ⟨hx, hy, -⟩ := takeTwo_eq_some hm
  have hlt : ∀ i ∈ unmerged (nodes.take (f.length + k)), i < f.length + k := fun i hi =>
    (mem_unmerged.1 hi).1.trans_le (List.length_take_le ..)
  simp only [mergeNode, weightAt_take (hlt x hx), weightAt_take (hlt y (List.mem_of_mem_erase hy))]

end Tree

theorem loopInv_buildTree {f : FreqTable} (hne : f ≠ []) :
    ∃ r, LoopInv f (buildTree f).nodes [r] :=
  loopInv_mergeLoop f.length (loopInv_leavesOf hne) (by simp)

/-! ### BUILD (R87) -/

theorem buildResult_nil : buildResult (some []) = .error .emptyInput := rfl

theorem buildResult_of_ne_nil {f : FreqTable} (hne : f ≠ []) :
    buildResult (some f) = .ok (buildTree f) :=
  if_neg (List.length_eq_zero_iff.not.2 hne)

theorem exec_build_of_error {s : State} {e : ErrCode} (h : buildResult s.freq = .error e) :
    exec .build s = .next ({ s with tree := none }.completeError e 0x11) := by
  rw [exec_stage rfl, stageOf, stageBuild, h]
  rfl

theorem exec_build_of_ok {s : State} {t : Tree} (h : buildResult s.freq = .ok t) :
    exec .build s = .next { s with tree := some t }.completeOk :=
  exec_eq_completeOk rfl (by rw [stageOf, stageBuild, h])

/-- Settles O18: the invariant of R85's loop where one index is left, the root's. -/
theorem exec_build_result : Obligations.BuildResult := by
  unfold Obligations.BuildResult
  intro s
  refine ⟨fun hfreq => exec_build_of_error (by rw [hfreq, buildResult_nil]), fun f hfreq hne => ?_⟩
  obtain ⟨r, hinv⟩ := loopInv_buildTree hne
  exact ⟨buildTree f, exec_build_of_ok (by rw [hfreq, buildResult_of_ne_nil hne]), rfl,
    hinv.tree_length, hinv.tree_leaves, hinv.tree_merged, hinv.tree_weight⟩

end Sys2Proof.Machine

/-! canonical_code_generator (42_code_generator.md R89-R92): the loop of R89 runs to an empty stack and
takes every node off it once, so the codes are the paths from the root to the leaves. That none begins
another, the exact Kraft sum, the length bound and the decoder's walk follow from the paths. -/

namespace Sys2Proof.Machine

/-! ### Paths in a node array -/

/-- At a leaf no branch is left to take. -/
theorem eq_nil_of_follow_leaf {nodes : List Node} {i j w : Nat} {c : Symbol} {b : Bits}
    (hi : nodes[i]? = some (.leaf c w)) (h : follow nodes i b = some j) : b = [] := by
  cases b with
  | nil => rfl
  | cons x b => rw [follow_cons_leaf hi] at h; cases h

/-- The first bit of a path is taken at an internal node. -/
theorem follow_cons_eq_some {nodes : List Node} {i j : Nat} {x : Bool} {b : Bits}
    (h : follow nodes i (x :: b) = some j) :
    ∃ l r w, nodes[i]? = some (.internal l r w) ∧ follow nodes (if x then r else l) b = some j := by
  unfold follow at h
  split at h
  next l r w hi => exact ⟨l, r, w, hi, h⟩
  · cases h

/-- A path to a leaf begins no longer path. -/
theorem Tree.LeadsTo.symbol_eq_of_prefix {t : Tree} {b b' : Bits} {c c' : Symbol}
    (h : t.LeadsTo b c) (h' : t.LeadsTo b' c') (hprefix : b <+: b') : c = c' := by
  obtain ⟨i, w, hpath, hleaf⟩ := h
  obtain ⟨j, w', hpath', hleaf'⟩ := h'
  obtain ⟨more, rfl⟩ := hprefix
  rw [follow_append, hpath, Option.bind_some] at hpath'
  obtain rfl := eq_nil_of_follow_leaf hleaf hpath'
  cases hpath'
  rw [hleaf] at hleaf'
  cases hleaf'
  rfl

/-! ### The decoder's walk along a path (R112) -/

theorem descend_leaf {nodes : List Node} {i w : Nat} {c : Symbol}
    (hi : nodes[i]? = some (.leaf c w)) (b : Bits) : descend nodes b i = some (c, b) := by
  cases b <;> simp only [descend, hi]

theorem descend_cons_internal {nodes : List Node} {i l r w : Nat}
    (hi : nodes[i]? = some (.internal l r w)) (x : Bool) (b : Bits) :
    descend nodes (x :: b) i = descend nodes b (if x then r else l) := by
  simp only [descend, hi]

/-- What a walk that ends has met: a leaf at once, or an internal node and a bit. -/
theorem descend_cases {nodes : List Node} {b x : Bits} {i : Nat} {c : Symbol}
    (h : descend nodes b i = some (c, x)) :
    (∃ w, nodes[i]? = some (.leaf c w) ∧ b = x) ∨
    ∃ y b' l r w, b = y :: b' ∧ nodes[i]? = some (.internal l r w) ∧
      descend nodes b' (if y then r else l) = some (c, x) := by
  cases b with
  | nil =>
    unfold descend at h
    split at h
    next s w hi => cases h; exact .inl ⟨w, hi, rfl⟩
    · cases h
  | cons y b =>
    unfold descend at h
    split at h
    next s w hi => cases h; exact .inl ⟨w, hi, rfl⟩
    next l r w hi => exact .inr ⟨y, b, l, r, w, rfl, hi, h⟩
    · cases h

/-- The walk goes down a path to a leaf and leaves the bits after it. -/
theorem descend_append_of_follow {nodes : List Node} {i j w : Nat} {c : Symbol} {path : Bits}
    (hpath : follow nodes i path = some j) (hleaf : nodes[j]? = some (.leaf c w)) (x : Bits) :
    descend nodes (path ++ x) i = some (c, x) := by
  induction path generalizing i with
  | nil => cases hpath; exact descend_leaf hleaf x
  | cons y path ih =>
    obtain ⟨l, r, w', hi, hrest⟩ := follow_cons_eq_some hpath
    rw [List.cons_append, descend_cons_internal hi]
    exact ih hrest

/-- The bits a walk has read are a path to the leaf of the symbol it answers. -/
theorem exists_follow_of_descend {nodes : List Node} {b x : Bits} {i : Nat} {c : Symbol}
    (h : descend nodes b i = some (c, x)) :
    ∃ path j w, b = path ++ x ∧ follow nodes i path = some j ∧ nodes[j]? = some (.leaf c w) := by
  induction b generalizing i with
  | nil =>
    obtain ⟨w, hi, rfl⟩ | ⟨y, b, l, r, w, hb, -⟩ := descend_cases h
    · exact ⟨[], i, w, rfl, rfl, hi⟩
    · cases hb
  | cons z b ih =>
    obtain ⟨w, hi, rfl⟩ | ⟨y, b, l, r, w, hb, hi, hrest⟩ := descend_cases h
    · exact ⟨[], i, w, rfl, rfl, hi⟩
    · cases hb
      obtain ⟨path, j, w', rfl, hpath, hleaf⟩ := ih hrest
      exact ⟨z :: path, j, w', rfl, (follow_cons_internal hi z path).trans hpath, hleaf⟩

/-- With two leaves or more the walk reads exactly the paths from the root to a leaf. -/
theorem walkSymbol_eq_some_iff {t : Tree} (h : t.leaves ≠ 1) (b x : Bits) (c : Symbol) :
    walkSymbol t b = some (c, x) ↔ ∃ path, b = path ++ x ∧ t.LeadsTo path c := by
  rw [walkSymbol, if_neg h]
  constructor
  · intro hwalk
    obtain ⟨path, j, w, hb, hpath, hleaf⟩ := exists_follow_of_descend hwalk
    exact ⟨path, hb, j, w, hpath, hleaf⟩
  · rintro ⟨path, rfl, j, w, hpath, hleaf⟩
    exact descend_append_of_follow hpath hleaf x

/-- A single leaf is read from the one bit 0 (D23). -/
theorem walkSymbol_single {t : Tree} {s : Symbol} {w : Nat} (h : t.leaves = 1)
    (hs : t.nodes = [.leaf s w]) (b x : Bits) (c : Symbol) :
    walkSymbol t b = some (c, x) ↔ b = false :: x ∧ s = c := by
  rw [walkSymbol, if_pos h]
  match b with
  | [] => simp [singleSymbol]
  | true :: b => simp [singleSymbol]
  | false :: b => simp [singleSymbol, hs, and_comm]

/-! ### A tree of R40: its root and its internal nodes -/

theorem Tree.wf.internal {t : Tree} (h : t.wf) {i l r w : Nat}
    (hi : t.nodes[i]? = some (.internal l r w)) : t.leaves ≤ i ∧ l < i ∧ r < i := by
  have hok := h.nodeOk hi
  simp only [Machine.nodeOk, Bool.and_eq_true, decide_eq_true_eq] at hok
  obtain ⟨⟨⟨hleaves, hl⟩, hr⟩, -⟩ := hok
  exact ⟨hleaves, hl, hr⟩

theorem Tree.wf.length_eq {t : Tree} (h : t.wf) : t.nodes.length = t.root + 1 := by
  obtain ⟨hpos, hlen, -⟩ := h
  rw [hlen, Tree.root]
  omega

theorem Tree.wf.mem_childrenOf {t : Tree} (h : t.wf) {i : Nat} (hi : i < t.root) :
    i ∈ childrenOf t.nodes := by
  obtain ⟨-, -, -, -, hcount, -⟩ := h
  exact List.count_pos_iff.1 (by rw [hcount i hi]; exact Nat.one_pos)

/-- Each branch of a path goes from an internal node, of index N at least, to a lower index. -/
theorem Tree.wf.length_le_of_follow {t : Tree} (h : t.wf) {i j : Nat} {b : Bits}
    (hpath : follow t.nodes i b = some j) : b.length ≤ i + 1 - t.leaves := by
  induction b generalizing i with
  | nil => exact Nat.zero_le _
  | cons x b ih =>
    obtain ⟨l, r, w, hi, hrest⟩ := follow_cons_eq_some hpath
    obtain ⟨hleaves, hl, hr⟩ := h.internal hi
    have hlt : (if x then r else l) < i := by split_ifs <;> assumption
    have hle := ih hrest
    rw [List.length_cons]
    omega

theorem Tree.wf.nodes_single {t : Tree} (h : t.wf) (hone : t.leaves = 1) :
    ∃ c w, t.nodes = [.leaf c w] := by
  have hlen : t.nodes.length = 1 := by rw [h.length_eq, Tree.root, hone]
  obtain ⟨x, hx⟩ := List.length_eq_one_iff.1 hlen
  have h0 : t.nodes[0]? = some x := by rw [hx]; rfl
  cases x with
  | leaf c w => exact ⟨c, w, hx⟩
  | internal l r w =>
    obtain ⟨-, hl, -⟩ := h.internal h0
    exact absurd hl (Nat.not_lt_zero l)

/-! ### The loop of R89 takes every node off its stack -/

/-- What the nodes at some indices contribute to a list. -/
theorem mem_flatMap_getElem? {α : Type} {g : Node → List α} {nodes : List Node} {is : List Nat}
    {a : α} : (a ∈ is.flatMap fun i => nodes[i]?.toList.flatMap g) ↔
      ∃ i ∈ is, ∃ x, nodes[i]? = some x ∧ a ∈ g x := by
  simp only [List.mem_flatMap, Option.mem_toList]

section Visit

variable {t : Tree} {visited : List Nat} {stack : List (Nat × Bits)} {c : CodeTable}

/-- The loop meets indices of nodes only. -/
theorem VisitInv.lt_length (ht : t.wf) (h : VisitInv t visited stack c) {i : Nat}
    (hi : i ∈ visited ++ stack.map (·.1)) : i < t.nodes.length := by
  rcases List.mem_cons.1 (h.reached.mem_iff.1 hi) with rfl | hi
  · exact ht.length_eq ▸ Nat.lt_succ_self _
  · obtain ⟨j, -, x, hx, hix⟩ := mem_flatMap_getElem?.1 hi
    have hchild : i ∈ childrenOf t.nodes :=
      List.mem_flatMap.2 ⟨x, List.mem_of_getElem? hx, hix⟩
    exact (Nat.lt_succ_self i).trans (lt_of_mem_childrenOf (fun _ _ => ht.nodeOk) hchild)

/-- An index on the stack is not visited yet, so not all nodes are. -/
theorem VisitInv.length_lt (ht : t.wf) {i : Nat} {p : Bits}
    (h : VisitInv t visited ((i, p) :: stack) c) : visited.length < t.nodes.length := by
  have hpop := h.pop ht
    (stack' := (childrenOf t.nodes[i]?.toList).map (·, p) ++ stack)
    (c' := c ++ (leafSymbols t.nodes[i]?.toList).map (·, p))
    (by simp [Function.comp_def]) (by simp [keys, Function.comp_def])
  have hsub : visited ++ [i] ⊆ List.range t.nodes.length := fun j hj =>
    List.mem_range.2 (h.lt_length ht (List.append_subset.2
      ⟨List.subset_append_left .., by simp⟩ hj))
  have hle := (List.subperm_of_subset hpop.nodup hsub).length_le
  rw [List.length_append, List.length_singleton, List.length_range] at hle
  exact hle

/-- Once the stack is empty every node has been visited: the root, and with a node its children. -/
theorem VisitInv.mem_visited (ht : t.wf) (h : VisitInv t visited [] c) {i : Nat}
    (hi : i ≤ t.root) : i ∈ visited := by
  have hvisited : ∀ j, j ∈ visited ↔
      j ∈ t.root :: visited.flatMap fun k => childrenOf t.nodes[k]?.toList := fun j => by
    simpa using h.reached.mem_iff (a := j)
  induction i using Nat.strong_decreasing_induction with
  | base => exact ⟨t.root, fun j hj hle => absurd hle (Nat.not_le_of_lt hj)⟩
  | step i ih =>
    rcases Nat.eq_or_lt_of_le hi with rfl | hlt
    · exact (hvisited _).2 (List.mem_cons_self ..)
    · obtain ⟨j, l, r, w, hj, hchild⟩ := Machine.mem_childrenOf.1 (ht.mem_childrenOf hlt)
      obtain ⟨-, hl, hr⟩ := ht.internal hj
      have hjlt := (List.getElem?_eq_some_iff.1 hj).1
      have hlen := ht.length_eq
      have hparent : j ∈ visited := ih j (by omega) (by omega)
      exact (hvisited i).2 (List.mem_cons_of_mem _
        (mem_flatMap_getElem?.2 ⟨j, hparent, _, hj, by simpa using hchild⟩))

/-- So every leaf's symbol has got its code. -/
theorem VisitInv.keys_perm (ht : t.wf) (h : VisitInv t visited [] c) :
    (keys c).Perm (leafSymbols t.nodes) := by
  refine (List.perm_ext_iff_of_nodup (h.keys_nodup ht) ht.leafSymbols_nodup).2 fun k => ?_
  rw [h.symbols]
  constructor
  · intro hk
    obtain ⟨i, -, x, hx, hkx⟩ := mem_flatMap_getElem?.1 hk
    exact List.mem_flatMap.2 ⟨x, List.mem_of_getElem? hx, hkx⟩
  · intro hk
    obtain ⟨x, hx, hkx⟩ := List.mem_flatMap.1 hk
    obtain ⟨i, hi⟩ := List.mem_iff_getElem?.1 hx
    have hlt := (List.getElem?_eq_some_iff.1 hi).1
    have hlen := ht.length_eq
    exact mem_flatMap_getElem?.2 ⟨i, h.mem_visited ht (by omega), x, hi, hkx⟩

end Visit

/-! ### What the loop's paths are -/

/-- What a code of this length takes of the Kraft sum (R91). -/
def kraftWeight (b : Bits) : ℚ := (1 / 2) ^ b.length

/-- The two branches of a node share what its path takes. -/
theorem kraftWeight_concat (p : Bits) (x y : Bool) :
    kraftWeight (p ++ [x]) + kraftWeight (p ++ [y]) = kraftWeight p := by
  simp only [kraftWeight, List.length_append, List.length_singleton]
  ring

/-- What the loop keeps of its paths: those on the stack lead from the root to their index, those in
the table to their symbol's leaf, and together they take up the whole Kraft sum. -/
structure PathInv (t : Tree) (stack : List (Nat × Bits)) (c : CodeTable) : Prop where
  stack_path : ∀ e ∈ stack, follow t.nodes t.root e.2 = some e.1
  table_path : ∀ e ∈ c, t.LeadsTo e.2 e.1
  kraft : (c.map fun e => kraftWeight e.2).sum + (stack.map fun e => kraftWeight e.2).sum = 1

theorem pathInv_root (t : Tree) : PathInv t [(t.root, [])] [] where
  stack_path := by simp
  table_path := by simp
  kraft := by simp [kraftWeight]

section Path

variable {t : Tree} {i : Nat} {p : Bits} {stack : List (Nat × Bits)} {c : CodeTable}
variable (h : PathInv t ((i, p) :: stack) c)
include h

/-- A leaf's path moves from the stack to the table. -/
theorem PathInv.leaf {s : Symbol} {w : Nat} (hi : t.nodes[i]? = some (.leaf s w)) :
    PathInv t stack (c ++ [(s, p)]) := by
  obtain ⟨hpath, hstack⟩ := List.forall_mem_cons.1 h.stack_path
  refine ⟨hstack, fun e he => ?_, ?_⟩
  · rcases List.mem_append.1 he with he | he
    · exact h.table_path e he
    · rw [List.mem_singleton.1 he]
      exact ⟨i, w, hpath, hi⟩
  · rw [← h.kraft]
    simp [add_assoc]

/-- An internal node's path goes on to its two children. -/
theorem PathInv.internal {l r w : Nat} (hi : t.nodes[i]? = some (.internal l r w)) :
    PathInv t ((l, p ++ [false]) :: (r, p ++ [true]) :: stack) c := by
  obtain ⟨hpath, hstack⟩ := List.forall_mem_cons.1 h.stack_path
  have hbranch : ∀ x, follow t.nodes t.root (p ++ [x]) = some (if x then r else l) := fun x => by
    rw [follow_append, hpath, Option.bind_some, follow_cons_internal hi, follow_nil]
  refine ⟨?_, h.table_path, ?_⟩
  · exact List.forall_mem_cons.2 ⟨hbranch false, List.forall_mem_cons.2 ⟨hbranch true, hstack⟩⟩
  · rw [← h.kraft]
    simp only [List.map_cons, List.sum_cons, ← kraftWeight_concat p false true]
    ring

end Path

/-- With fuel for the nodes not yet visited the loop ends on an empty stack. -/
theorem exists_visitInv_codeLoop {t : Tree} (ht : t.wf) (fuel : Nat) {visited : List Nat}
    {stack : List (Nat × Bits)} {c : CodeTable} (hvisit : VisitInv t visited stack c)
    (hpath : PathInv t stack c) (hfuel : t.nodes.length ≤ visited.length + fuel) :
    ∃ all, VisitInv t all [] (codeLoop t.nodes fuel stack c) ∧
      PathInv t [] (codeLoop t.nodes fuel stack c) := by
  induction fuel generalizing visited stack c with
  | zero =>
    cases stack with
    | nil => exact ⟨visited, hvisit, hpath⟩
    | cons top stack => exact absurd (hvisit.length_lt ht) (Nat.not_lt_of_le hfuel)
  | succ fuel ih =>
    cases stack with
    | nil => exact ⟨visited, hvisit, hpath⟩
    | cons top stack =>
      obtain ⟨i, p⟩ := top
      have hfuel' : t.nodes.length ≤ (visited ++ [i]).length + fuel := by
        rw [List.length_append, List.length_singleton]
        omega
      rw [codeLoop]
      split
      next s w hi =>
        exact ih (hvisit.pop ht (by simp [hi, childrenOf]) (by simp [hi, keys, leafSymbols]))
          (hpath.leaf hi) hfuel'
      next l r w hi =>
        exact ih (hvisit.pop ht (by simp [hi]) (by simp [hi])) (hpath.internal hi) hfuel'
      next hi =>
        have hlt := hvisit.lt_length ht (i := i) (by simp)
        exact absurd hlt (Nat.not_lt_of_le (List.getElem?_eq_none_iff.1 hi))

/-! ### The codes of a tree -/

theorem genCodes_single {t : Tree} {c : Symbol} {w : Nat} (hone : t.leaves = 1)
    (h0 : t.nodes[0]? = some (.leaf c w)) : genCodes t = [(c, [false])] := by
  rw [genCodes, if_pos hone, singleCode, h0]

/-- A tree of one leaf and its code (R90). -/
theorem Tree.wf.exists_single {t : Tree} (h : t.wf) (hone : t.leaves = 1) :
    ∃ c w, t.nodes = [.leaf c w] ∧ genCodes t = [(c, [false])] := by
  obtain ⟨c, w, hs⟩ := h.nodes_single hone
  exact ⟨c, w, hs, genCodes_single hone (by rw [hs]; rfl)⟩

/-- With two leaves or more the codes are a table the loop has left with an empty stack, sorted. -/
theorem exists_perm_genCodes {t : Tree} (ht : t.wf) (hone : t.leaves ≠ 1) :
    ∃ all c, VisitInv t all [] c ∧ PathInv t [] c ∧ (genCodes t).Perm c := by
  obtain ⟨all, hvisit, hpath⟩ := exists_visitInv_codeLoop ht t.nodes.length (visited := [])
    ⟨List.Perm.refl _, List.nodup_nil, rfl⟩ (pathInv_root t) (Nat.le_add_left ..)
  refine ⟨all, _, hvisit, hpath, ?_⟩
  rw [genCodes, if_neg hone]
  exact tableSort_perm _

theorem keys_genCodes {t : Tree} (ht : t.wf) : keys (genCodes t) = leafSymbols t.nodes := by
  by_cases hone : t.leaves = 1
  · obtain ⟨c, w, hs, hcodes⟩ := ht.exists_single hone
    rw [hcodes, hs]
    rfl
  · obtain ⟨all, c, hvisit, -, hperm⟩ := exists_perm_genCodes ht hone
    have hkeys : (keys (genCodes t)).Pairwise (· < ·) :=
      List.pairwise_map.2 (genCodes_ascending ht)
    have hsyms := (hperm.map _).trans (hvisit.keys_perm ht)
    obtain ⟨-, -, -, hleaves, -⟩ := ht
    exact hsyms.eq_of_pairwise' hkeys hleaves

theorem leadsTo_of_mem_genCodes {t : Tree} (ht : t.wf) (hone : t.leaves ≠ 1) {e : Symbol × Bits}
    (he : e ∈ genCodes t) : t.LeadsTo e.2 e.1 := by
  obtain ⟨all, c, -, hpath, hperm⟩ := exists_perm_genCodes ht hone
  exact hpath.table_path e (hperm.mem_iff.1 he)

theorem sum_kraftWeight_genCodes {t : Tree} (ht : t.wf) (hone : t.leaves ≠ 1) :
    ((genCodes t).map fun e => kraftWeight e.2).sum = 1 := by
  obtain ⟨all, c, -, hpath, hperm⟩ := exists_perm_genCodes ht hone
  rw [(hperm.map _).sum_eq]
  simpa using hpath.kraft

/-- An entry whose code began another's would have the other's symbol. -/
theorem genCodes_prefixFree {t : Tree} (ht : t.wf) : PrefixFree (genCodes t) := by
  by_cases hone : t.leaves = 1
  · obtain ⟨c, w, -, hcodes⟩ := ht.exists_single hone
    rw [hcodes]
    exact List.pairwise_singleton ..
  · refine (genCodes_ascending ht).imp_of_mem fun {x y} hx hy hlt => ?_
    have hpx := leadsTo_of_mem_genCodes ht hone hx
    have hpy := leadsTo_of_mem_genCodes ht hone hy
    exact ⟨fun h => hlt.ne (hpx.symbol_eq_of_prefix hpy h),
      fun h => hlt.ne' (hpy.symbol_eq_of_prefix hpx h)⟩

/-- Settles O22: the loop of R89 leaves the paths to all leaves, and no path to a leaf begins a path
to another. -/
theorem codesArePrefixFree : Obligations.CodesArePrefixFree := by
  unfold Obligations.CodesArePrefixFree
  intro t ht
  refine ⟨keys_genCodes ht, genCodes_ascending ht, fun e he => (mem_genCodes ht he).2,
    genCodes_prefixFree ht, fun htwo e => leadsTo_of_mem_genCodes ht (by omega), fun hone e he => ?_⟩
  obtain ⟨c, w, -, hcodes⟩ := ht.exists_single hone
  rw [hcodes, List.mem_singleton] at he
  rw [he]

/-- Settles O23: the loop of R89 keeps the Kraft sum of its stack and table at 1, and a path to a leaf
passes internal nodes only, of which there are N - 1. -/
theorem codesAreComplete : Obligations.CodesAreComplete := by
  unfold Obligations.CodesAreComplete
  intro t ht
  refine ⟨fun htwo => ⟨fun e he => ⟨?_, ?_⟩, sum_kraftWeight_genCodes ht (by omega)⟩, fun hone => ?_⟩
  · exact List.length_pos_iff.2 (mem_genCodes ht he).2
  · obtain ⟨i, w, hpath, -⟩ := leadsTo_of_mem_genCodes ht (by omega) he
    have hle := ht.length_le_of_follow hpath
    rw [Tree.root] at hle
    omega
  · obtain ⟨c, w, -, hcodes⟩ := ht.exists_single hone
    rw [hcodes]
    rfl

/-- Settles O24: a code is a path to its symbol's leaf, and the walk reads such paths only. -/
theorem codesDecodeToTheirSymbols : Obligations.CodesDecodeToTheirSymbols := by
  unfold Obligations.CodesDecodeToTheirSymbols
  intro t ht
  by_cases hone : t.leaves = 1
  · obtain ⟨s, w, hs, hcodes⟩ := ht.exists_single hone
    have hwalk := walkSymbol_single hone hs
    refine ⟨fun e he x => ?_, fun b x c => ⟨fun htwo => by omega, fun _ => ?_⟩⟩
    · rw [hcodes, List.mem_singleton] at he
      rw [he]
      exact (hwalk _ _ _).2 ⟨rfl, rfl⟩
    · rw [hwalk, hs]
      simp [leafSymbols]
  · have hwalk := walkSymbol_eq_some_iff hone
    exact ⟨fun e he x => (hwalk _ _ _).2 ⟨e.2, rfl, leadsTo_of_mem_genCodes ht hone he⟩,
      fun b x c => ⟨fun _ => hwalk b x c, fun h => absurd h hone⟩⟩

/-! ### GENCODE (R92) -/

theorem exec_gencode_of_ok {s : State} {c : CodeTable} (h : gencodeResult s.params s.tree = .ok c) :
    exec .gencode s = .next { s with codes := some c }.completeOk :=
  exec_eq_completeOk rfl (by rw [stageOf, stageGencode, h])

theorem exec_gencode_of_error {s : State} {e : ErrCode}
    (h : gencodeResult s.params s.tree = .error e) :
    exec .gencode s = .next ({ s with codes := none }.completeError e 0x12) := by
  rw [exec_stage rfl, stageOf, stageGencode, h]
  rfl

/-- Settles O21: the two sides of R92's check. -/
theorem exec_gencode_result : Obligations.GencodeResult := by
  unfold Obligations.GencodeResult
  intro s t htree
  refine ⟨fun hle => exec_gencode_of_ok ?_, fun hlt => exec_gencode_of_error ?_,
    fun c w => genCodes_single⟩
  · rw [htree, gencodeResult, if_neg (Nat.not_lt_of_le hle)]
  · rw [htree, gencodeResult, if_pos hlt]

end Sys2Proof.Machine

/-! PACK and UNPACK (43_bit_packer.md R93-R97): the bits of a chunk, of a packed byte and of an
unpacked byte sequence, and the two commands' results. -/

namespace Sys2Proof.Machine

/-! ### The bits of a chunk -/

theorem bitsToNat_concat (b : Bits) (x : Bool) :
    bitsToNat (b ++ [x]) = Nat.bit x (bitsToNat b) := by
  rw [Nat.bit_val, bitsToNat, List.foldl_append, List.foldl_cons, List.foldl_nil, bitsToNat]

/-- Bit `i` of the number is the bit that stands `i` places from the end of the run. -/
theorem testBit_bitsToNat (b : Bits) (i : Nat) :
    (bitsToNat b).testBit i = b.reverse.getD i false := by
  induction b using List.reverseRecOn generalizing i with
  | nil => simp [bitsToNat]
  | append_singleton b x ih =>
    rw [bitsToNat_concat, List.reverse_append, List.reverse_singleton, List.singleton_append]
    cases i with
    | zero => rw [Nat.testBit_bit_zero, List.getD_cons_zero]
    | succ i => rw [Nat.testBit_bit_succ, ih, List.getD_cons_succ]

/-- The first bit of a chunk is its number's most significant bit. -/
theorem testBit_chunkAt (b : Bits) (start : Nat) {n k : Nat} (hk : k < n) :
    (chunkAt b start n).testBit (n - 1 - k) = b.getD (start + k) false := by
  have hi : n - 1 - k < ((List.range n).map fun i => b.getD (start + i) false).reverse.length := by
    simp only [List.length_reverse, List.length_map, List.length_range]
    omega
  rw [chunkAt, testBit_bitsToNat, List.getD_eq_getElem _ _ hi, List.getElem_reverse,
    List.getElem_map, List.getElem_range, List.length_map, List.length_range,
    Nat.sub_sub_self (by omega)]

/-! ### The bits of packed bytes and of unpacked bytes -/

/-- R93: bit `8j + k` of the run, 0 beyond its end, is bit `7 - k` of byte `j`. -/
theorem getLsbD_pack (b : Bits) {j k : Nat} (hj : j < (pack b).length) (hk : k < 8) :
    (pack b)[j].getLsbD (7 - k) = b.getD (8 * j + k) false := by
  simp only [pack, List.getElem_map, List.getElem_range, BitVec.getLsbD_ofNat]
  rw [testBit_chunkAt b (8 * j) hk, decide_eq_true (show 7 - k < 8 by omega), Bool.true_and]

theorem unpack_cons (x : Byte) (P : List Byte) : unpack (x :: P) = byteBits x ++ unpack P :=
  List.flatMap_cons

theorem getElem?_byteBits (x : Byte) {k : Nat} (hk : k < 8) :
    (byteBits x)[k]? = some (x.getLsbD (7 - k)) := by
  rw [byteBits, List.getElem?_map, List.getElem?_range hk, Option.map_some]

/-- R94: bit `8j + k` of the run is bit `7 - k` of byte `j`. -/
theorem getElem?_unpack (P : List Byte) {j k : Nat} (hj : j < P.length) (hk : k < 8) :
    (unpack P)[8 * j + k]? = some (P[j].getLsbD (7 - k)) := by
  induction P generalizing j with
  | nil => exact absurd hj (Nat.not_lt_zero j)
  | cons x P ih =>
    rw [unpack_cons]
    cases j with
    | zero =>
      rw [List.getElem?_append_left (by rw [length_byteBits]; omega), Nat.mul_zero, Nat.zero_add]
      exact getElem?_byteBits x hk
    | succ j =>
      have hindex : 8 * (j + 1) + k - (byteBits x).length = 8 * j + k := by
        rw [length_byteBits]
        omega
      rw [List.getElem?_append_right (by rw [length_byteBits]; omega), hindex]
      exact ih (Nat.lt_of_succ_lt_succ hj)

/-! ### The round trips (R95) -/

/-- Unpacking what was packed gives the bits back, and 0 from their end to that of the last byte. -/
theorem getElem?_unpack_pack (b : Bits) {i : Nat} (hi : i < 8 * (pack b).length) :
    (unpack (pack b))[i]? = some (b.getD i false) := by
  have hj : i / 8 < (pack b).length := by omega
  have hk : i % 8 < 8 := Nat.mod_lt i (by decide)
  have hbit := getElem?_unpack (pack b) hj hk
  rwa [getLsbD_pack b hj hk, Nat.div_add_mod] at hbit

theorem unpack_pack (b : Bits) :
    unpack (pack b) = b ++ List.replicate (8 * ((b.length + 7) / 8) - b.length) false := by
  have hlen : (unpack (pack b)).length
      = (b ++ List.replicate (8 * ((b.length + 7) / 8) - b.length) false).length := by
    rw [length_unpack, length_pack, List.length_append, List.length_replicate]
    omega
  refine List.ext_getElem hlen fun i hi _ => ?_
  have hbit := getElem?_unpack_pack b (length_unpack (pack b) ▸ hi)
  rw [List.getElem?_eq_getElem hi, Option.some_inj] at hbit
  rw [hbit, List.getElem_append]
  split
  next hlt => exact List.getD_eq_getElem b false hlt
  next hge => rw [List.getElem_replicate, List.getD_eq_default b false (Nat.le_of_not_lt hge)]

theorem pack_unpack (P : List Byte) : pack (unpack P) = P := by
  have hlen : (pack (unpack P)).length = P.length := by
    rw [length_pack, length_unpack]
    omega
  refine List.ext_getElem hlen fun j hj hjP => BitVec.eq_of_getLsbD_eq fun i hi => ?_
  have hk : 7 - i < 8 := by omega
  have hbit := getLsbD_pack (unpack P) hj hk
  rwa [List.getD_eq_getElem?_getD, getElem?_unpack P hjP hk, Option.getD_some,
    Nat.sub_sub_self (by omega)] at hbit

/-- Settles O29: the two round trips, with at most seven zero bits up to the next whole byte. -/
theorem packUnpackRoundTrip : Obligations.PackUnpackRoundTrip := by
  unfold Obligations.PackUnpackRoundTrip
  exact ⟨fun b => ⟨_, by omega, rfl, unpack_pack b⟩, pack_unpack⟩

/-! ### PACK (R96) -/

theorem exec_pack_of_ok {s : State} {P : List Byte} {pad : Nat}
    (h : packResult s.params s.bits = .ok (P, pad)) :
    exec .pack s = .next { s with
      payload := some P
      outMem := Memory.ofBytes P
      csr := { s.csr with
        outLen := BitVec.ofNat 32 P.length
        padBits := BitVec.ofNat 32 pad } }.completeOk :=
  exec_eq_completeOk rfl (by rw [stageOf, stagePack, h]; rfl)

theorem exec_pack_of_error {s : State} {e : ErrCode}
    (h : packResult s.params s.bits = .error e) :
    exec .pack s = .next ({ s with payload := none }.completeError e 0x14) := by
  rw [exec_stage rfl, stageOf, stagePack, h]
  rfl

/-- Settles O27: R96's checks in their order, and the bits of the packed bytes. -/
theorem exec_pack_result : Obligations.PackResult := by
  unfold Obligations.PackResult
  intro s
  refine ⟨fun hnone => exec_pack_of_error ?_, fun b hb => ⟨fun hlt => exec_pack_of_error ?_,
    fun hle => ⟨pack b, exec_pack_of_ok ?_, length_pack b,
      fun j k => getLsbD_pack b j.isLt k.isLt⟩⟩⟩
  · rw [hnone, packResult]
  · rw [hb, packResult, if_pos (by rwa [length_pack])]
  · rw [hb, packResult, if_neg (by rw [length_pack]; omega)]

/-! ### UNPACK (R97) -/

theorem exec_unpack_of_ok {s : State} {b : Bits} (h : unpackResult s.params s.payload = .ok b) :
    exec .unpack s = .next { s with bits := some b }.completeOk :=
  exec_eq_completeOk rfl (by rw [stageOf, stageUnpack, h])

theorem exec_unpack_of_error {s : State} {e : ErrCode}
    (h : unpackResult s.params s.payload = .error e) :
    exec .unpack s = .next ({ s with bits := none }.completeError e 0x21) := by
  rw [exec_stage rfl, stageOf, stageUnpack, h]
  rfl

/-- R97: a PAYLOAD within its bound never fails UNPACK's capacity check, by R6's constraints. -/
theorem eight_mul_length_le_bitsCap {p : Params} {P : List Byte} (hp : p.wf)
    (hP : P.length ≤ max p.inCap (p.bitsCap / 8)) : 8 * P.length ≤ p.bitsCap := by
  obtain ⟨-, -, -, -, ⟨hin, -, -⟩, -⟩ := hp
  omega

/-- Settles O28: R97's checks in their order, the bits of the unpacked bytes, and the bound. -/
theorem exec_unpack_result : Obligations.UnpackResult := by
  unfold Obligations.UnpackResult
  intro s
  refine ⟨fun hnone => exec_unpack_of_error ?_, fun P hP => ⟨fun hlt => exec_unpack_of_error ?_,
    fun hle => ⟨unpack P, exec_unpack_of_ok ?_, length_unpack P,
      fun j k => getElem?_unpack P j.isLt k.isLt⟩, eight_mul_length_le_bitsCap⟩⟩
  · rw [hnone, unpackResult]
  · rw [hP, unpackResult, if_pos hlt]
  · rw [hP, unpackResult, if_neg (Nat.not_lt_of_le hle)]

end Sys2Proof.Machine

/-! Deserialize (44_container.md R103, R104, R106): ParseField by the two sides of a field, the loop
over the fields by what each field adds, the separator, and the command DESERIALIZE. -/

namespace Sys2Proof.Machine

/-! ### ParseField (R104) -/

/-- R104's last step: the entry of symbol `c`, by the parse of its count. -/
def fieldEntry (c : Symbol) : CountParse → Except ErrCode (Symbol × Nat)
  | .malformed => .error .corruptContainer
  | .tooBig => .error .capacity
  | .ok n => .ok (c, n)

theorem parseField_of_notMem_colon {f : List Symbol} (h : colonSym ∉ f) :
    parseField f = .error .corruptContainer := by
  simp only [parseField, List.count_eq_zero.2 h, if_true]

theorem parseField_of_two_le_count {f : List Symbol} (h : 2 ≤ f.count colonSym) :
    parseField f = .error .unrepresentableSymbol := by
  have hne : f.count colonSym ≠ 0 := by omega
  simp only [parseField, hne, h, if_false, if_true]

section Field

variable {L R : List Symbol} (hL : colonSym ∉ L)

include hL

theorem forall_bne_colon : ∀ c ∈ L, (c != colonSym) = true :=
  fun _ hc => bne_iff_ne.2 fun h => hL (h ▸ hc)

theorem takeWhile_ne_colon : (L ++ colonSym :: R).takeWhile (· != colonSym) = L := by
  rw [List.takeWhile_append_of_pos (forall_bne_colon hL), List.takeWhile_cons_of_neg (by simp),
    List.append_nil]

theorem dropWhile_ne_colon :
    (L ++ colonSym :: R).dropWhile (· != colonSym) = colonSym :: R := by
  rw [List.dropWhile_append_of_pos (forall_bne_colon hL), List.dropWhile_cons_of_neg (by simp)]

variable (hR : colonSym ∉ R)

include hR

theorem count_colon_eq_one : (L ++ colonSym :: R).count colonSym = 1 := by
  rw [List.count_append, List.count_cons_self, List.count_eq_zero.2 hL, List.count_eq_zero.2 hR]

/-- R104: the left-hand side is checked before the count. -/
theorem parseField_of_lhsSymbol_eq_none (h : lhsSymbol L = none) :
    parseField (L ++ colonSym :: R) = .error .corruptContainer := by
  simp [parseField, count_colon_eq_one hL hR, takeWhile_ne_colon hL, h]

theorem parseField_of_lhsSymbol_eq_some {c : Symbol} (h : lhsSymbol L = some c) :
    parseField (L ++ colonSym :: R) = fieldEntry c (parseCount R) := by
  simp only [parseField, count_colon_eq_one hL hR, takeWhile_ne_colon hL, dropWhile_ne_colon hL, h,
    List.drop_one, List.tail_cons]
  cases parseCount R <;> rfl

end Field

theorem lhsSymbol_of_two_le_length {L : List Symbol} (h : 2 ≤ L.length) : lhsSymbol L = none := by
  match L, h with
  | _ :: _ :: _, _ => rfl

/-- Settles O33: a field with one COLON by its two sides, the left one checked first. -/
theorem parseFieldResults : Obligations.ParseFieldResults := by
  unfold Obligations.ParseFieldResults
  refine fun f => ⟨parseField_of_notMem_colon, parseField_of_two_le_count, ?_⟩
  rintro L R rfl hL hR
  refine ⟨fun hlong => parseField_of_lhsSymbol_eq_none hL hR (lhsSymbol_of_two_le_length hlong),
    fun c hc => ?_⟩
  have hlhs : lhsSymbol L = some c := by
    rcases hc with ⟨rfl, rfl⟩ | rfl <;> rfl
  have hentry := parseField_of_lhsSymbol_eq_some hL hR hlhs
  exact ⟨fun h => hentry.trans (congrArg _ h), fun h => hentry.trans (congrArg _ h),
    fun n h => hentry.trans (congrArg _ h)⟩

/-! ### The loop over the fields (R103) -/

theorem lookup_isSome_iff_mem_keys {f : FreqTable} {c : Symbol} :
    (f.lookup c).isSome = true ↔ c ∈ keys f := by
  simp only [List.lookup_isSome_iff, beq_iff_eq, keys, List.mem_map, eq_comm (a := c)]

/-- Distinct symbols within K_MAX and counts within COUNT_MAX: what R103 checks of the entries,
whatever their order. -/
structure FreqTable.Fits (p : Params) (f : FreqTable) : Prop where
  keys_nodup : (keys f).Nodup
  length_le : f.length ≤ p.kMax
  total_le : FreqTable.total f ≤ countMax

theorem FreqTable.total_perm {f g : FreqTable} (h : f.Perm g) :
    FreqTable.total f = FreqTable.total g := (h.map _).sum_eq

theorem mem_keys_perm {f g : FreqTable} (h : f.Perm g) {c : Symbol} : c ∈ keys f ↔ c ∈ keys g :=
  (h.map _).mem_iff

theorem FreqTable.Fits.perm {p : Params} {f g : FreqTable} (hf : FreqTable.Fits p f)
    (h : f.Perm g) : FreqTable.Fits p g where
  keys_nodup := (h.map _).nodup_iff.1 hf.keys_nodup
  length_le := h.length_eq ▸ hf.length_le
  total_le := FreqTable.total_perm h ▸ hf.total_le

theorem FreqTable.fits_of_wf {p : Params} {f : FreqTable} (hf : FreqTable.wf p f) :
    FreqTable.Fits p f := by
  obtain ⟨hasc, -, hlen, htotal⟩ := hf
  exact ⟨List.pairwise_map.2 (hasc.imp ne_of_lt), hlen, htotal⟩

section Fields

variable {p : Params} {fd : List Symbol} {fds : List (List Symbol)} {f : FreqTable} {c : Symbol}
  {n total : Nat}

theorem addFields_of_parseField_error {e : ErrCode} (h : parseField fd = .error e) :
    addFields p (fd :: fds) f total = .error e := by
  simp only [addFields, h]

variable (h : parseField fd = .ok (c, n))

include h

theorem addFields_of_mem_keys (hc : c ∈ keys f) :
    addFields p (fd :: fds) f total = .error .corruptContainer := by
  simp only [addFields, h, lookup_isSome_iff_mem_keys, hc, if_true]

theorem addFields_of_length_eq (hc : c ∉ keys f) (hk : f.length = p.kMax) :
    addFields p (fd :: fds) f total = .error .capacity := by
  simp only [addFields, h, lookup_isSome_iff_mem_keys, hc, hk, if_true, if_false]

theorem addFields_of_countMax_lt (hc : c ∉ keys f) (hk : f.length < p.kMax)
    (ht : countMax < total + n) : addFields p (fd :: fds) f total = .error .capacity := by
  simp only [addFields, h, lookup_isSome_iff_mem_keys, hc, hk.ne, ht, if_true, if_false]

theorem addFields_of_fits (hc : c ∉ keys f) (hk : f.length < p.kMax)
    (ht : FreqTable.total f + n ≤ countMax) :
    addFields p (fd :: fds) f (FreqTable.total f) =
      addFields p fds (tableInsert c n f) (FreqTable.total (tableInsert c n f)) := by
  simp only [addFields, h, lookup_isSome_iff_mem_keys, hc, hk.ne, Nat.not_lt.2 ht, if_false,
    total_tableInsert]

end Fields

/-- The loop after fields that give the entries `g`: it goes on with `f` and `g` merged in ascending
order. -/
theorem exists_addFields_append {p : Params} {pre : List (List Symbol)} {f g : FreqTable}
    (hpre : pre.map parseField = g.map .ok) (hfits : FreqTable.Fits p (f ++ g)) (hf : Ascending f) :
    ∃ u, Ascending u ∧ u.Perm (f ++ g) ∧ ∀ rest,
      addFields p (pre ++ rest) f (FreqTable.total f) = addFields p rest u (FreqTable.total u) := by
  induction g generalizing pre f with
  | nil =>
    obtain rfl := List.map_eq_nil_iff.1 hpre
    exact ⟨f, hf, by rw [List.append_nil], fun rest => rfl⟩
  | cons e g ih =>
    obtain ⟨fd, pre, rfl, hfd, hpre⟩ := List.map_eq_cons_iff.1 hpre
    have hmove : (f ++ e :: g).Perm (tableInsert e.1 e.2 f ++ g) :=
      List.perm_middle.trans ((tableInsert_perm e.1 e.2 f).symm.append_right g)
    have hnew : e.1 ∉ keys f := by
      have hnodup := hfits.keys_nodup
      simp only [keys, List.map_append, List.map_cons, List.nodup_middle, List.nodup_cons,
        List.mem_append, not_or] at hnodup
      exact hnodup.1.1
    have hlen := hfits.length_le
    have htotal := hfits.total_le
    simp only [FreqTable.total, List.length_append, List.length_cons, List.map_append,
      List.map_cons, List.sum_append, List.sum_cons] at hlen htotal
    obtain ⟨u, huasc, huperm, hu⟩ :=
      ih hpre (hfits.perm hmove) (tableInsert_ascending e.2 hf hnew)
    refine ⟨u, huasc, huperm.trans hmove.symm, fun rest => ?_⟩
    rw [List.cons_append, addFields_of_fits hfd hnew (by omega) (by rw [FreqTable.total]; omega), hu]

/-- The fields of entries that fit, in any order, give the entries in ascending order. -/
theorem addFields_of_perm {p : Params} {fds : List (List Symbol)} {f g : FreqTable}
    (hfds : fds.map parseField = g.map .ok) (hperm : g.Perm f) (hfits : FreqTable.Fits p f)
    (hf : Ascending f) : addFields p fds [] 0 = .ok f := by
  obtain ⟨u, huasc, huperm, hu⟩ :=
    exists_addFields_append (f := []) hfds (hfits.perm hperm.symm) List.Pairwise.nil
  have heq : u = f := (huperm.trans hperm).eq_of_pairwise
    (fun a b _ _ hab hba => absurd hba (Nat.lt_asymm hab)) huasc hf
  have hrun := hu []
  rw [List.append_nil, heq] at hrun
  exact hrun

/-! ### The fields of a frequency text (R103) -/

theorem splitSpaces_eq_splitOn (syms : List Symbol) :
    splitSpaces syms = syms.splitOn spaceSym := by
  induction syms with
  | nil => rfl
  | cons c syms ih =>
    rw [splitSpaces, List.splitOn_cons_eq_if_modifyHead, ih]
    by_cases hc : c = spaceSym
    · simp [hc]
    · cases hsplit : syms.splitOn spaceSym with
      | nil => exact absurd hsplit (List.splitOn_ne_nil _ _)
      | cons g gs => simp [hc]

theorem splitSpaces_intercalate {fds : List (List Symbol)} (hne : fds ≠ [])
    (hfds : ∀ fd ∈ fds, spaceSym ∉ fd) : splitSpaces ([spaceSym].intercalate fds) = fds := by
  rw [splitSpaces_eq_splitOn, List.splitOn_intercalate spaceSym hfds hne]

theorem parseFreqText_nil (p : Params) : parseFreqText p [] = .ok [] := rfl

theorem parseFreqText_intercalate {p : Params} {syms : List Symbol} {fds : List (List Symbol)}
    (hsyms : syms = [spaceSym].intercalate fds) (hne : syms ≠ [])
    (hfds : ∀ fd ∈ fds, spaceSym ∉ fd) : parseFreqText p syms = addFields p fds [] 0 := by
  have hfdsne : fds ≠ [] := by
    rintro rfl
    exact hne hsyms
  rw [parseFreqText, if_neg (List.length_eq_zero_iff.not.2 hne), hsyms,
    splitSpaces_intercalate hfdsne hfds]

/-! ### The separator (R103) -/

theorem splitNewline_append {h p : List Byte} (hh : newlineByte ∉ h) :
    splitNewline (h ++ newlineByte :: p) = some (h, p) := by
  induction h with
  | nil => rw [List.nil_append, splitNewline, if_pos rfl]
  | cons x h ih =>
    obtain ⟨hx, hh⟩ := List.ne_and_not_mem_of_not_mem_cons hh
    rw [List.cons_append, splitNewline, if_neg hx.symm, ih hh, Option.map_some]

theorem splitNewline_of_notMem {b : List Byte} (hb : newlineByte ∉ b) : splitNewline b = none := by
  cases hsplit : splitNewline b with
  | none => rfl
  | some hp =>
    refine absurd ?_ hb
    rw [splitNewline_eq_some hsplit]
    exact List.mem_append_right _ (List.mem_cons_self ..)

/-! ### Deserialize (R103) -/

theorem deserialize_of_notMem (p : Params) {b : List Byte} (hb : newlineByte ∉ b) :
    deserialize p b = .error .corruptContainer := by
  rw [deserialize, splitNewline_of_notMem hb]

section Split

variable {h P : List Byte} (hh : newlineByte ∉ h)

include hh

theorem deserialize_of_utf8Dec_eq_none (p : Params) (hbad : utf8Dec h = none) :
    deserialize p (h ++ newlineByte :: P) = .error .corruptContainer := by
  simp only [deserialize, splitNewline_append hh, hbad]

variable {p : Params} {syms : List Symbol} (hsyms : utf8Dec h = some syms)

include hsyms

theorem deserialize_of_parseFreqText_error {e : ErrCode} (he : parseFreqText p syms = .error e) :
    deserialize p (h ++ newlineByte :: P) = .error e := by
  simp only [deserialize, splitNewline_append hh, hsyms, he]

theorem deserialize_of_parseFreqText_ok {f : FreqTable} (hf : parseFreqText p syms = .ok f) :
    deserialize p (h ++ newlineByte :: P) = .ok (f, P) := by
  simp only [deserialize, splitNewline_append hh, hsyms, hf]

end Split

/-! ### DESERIALIZE (R106) -/

theorem State.input_of_inputIs {s : State} {b : List Byte} (h : s.InputIs b) : s.input = .ok b := by
  obtain ⟨hcap, hread⟩ := h
  rw [State.input, if_neg (Nat.not_lt_of_le hcap), hread]

theorem State.input_of_inCap_lt {s : State} (h : s.params.inCap < s.csr.inLen.toNat) :
    s.input = .error .capacity := if_pos h

theorem deserializeResult_of_inputIs {s : State} {b : List Byte} (h : s.InputIs b) :
    deserializeResult s = deserialize s.params b := by
  rw [deserializeResult, State.input_of_inputIs h]

theorem exec_deserialize_of_ok {s : State} {f : FreqTable} {P : List Byte}
    (h : deserializeResult s = .ok (f, P)) :
    exec .deserialize s = .next { s with freq := some f, payload := some P }.completeOk :=
  exec_eq_completeOk rfl (by rw [stageOf, stageDeserialize, h])

theorem exec_deserialize_of_error {s : State} {e : ErrCode} (h : deserializeResult s = .error e) :
    exec .deserialize s =
      .next ({ s with freq := none, payload := none }.completeError e 0x20) := by
  rw [exec_stage rfl, stageOf, stageDeserialize, h]
  rfl

/-- R103: after fields that give the entries `g`, the next field decides. -/
theorem parseFreqText_next_field {p : Params} {pre post : List (List Symbol)} {fd : List Symbol}
    {g : FreqTable} {syms : List Symbol} (hne : syms ≠ [])
    (hsyms : syms = [spaceSym].intercalate (pre ++ fd :: post))
    (hfds : ∀ x ∈ pre ++ fd :: post, spaceSym ∉ x) (hpre : pre.map parseField = g.map .ok)
    (hfits : FreqTable.Fits p g) :
    ∃ u, Ascending u ∧ u.Perm g ∧
      parseFreqText p syms = addFields p (fd :: post) u (FreqTable.total u) := by
  obtain ⟨u, huasc, huperm, hu⟩ := exists_addFields_append hpre hfits List.Pairwise.nil
  exact ⟨u, huasc, huperm, (parseFreqText_intercalate hsyms hne hfds).trans (hu _)⟩

/-- Settles O34: the checks of the command in their order, then the loop's at the field that decides. -/
theorem deserializeErrorsInOrder : Obligations.DeserializeErrorsInOrder := by
  unfold Obligations.DeserializeErrorsInOrder
  refine ⟨fun s t ht => ⟨fun hcap => ?_, fun b hb => ⟨fun hsep => ?_, ?_⟩⟩, parseFreqText_nil, ?_⟩
  · rw [ht]
    exact exec_deserialize_of_error (by rw [deserializeResult, State.input_of_inCap_lt hcap])
  · rw [ht]
    exact exec_deserialize_of_error
      ((deserializeResult_of_inputIs hb).trans (deserialize_of_notMem _ hsep))
  · rintro H P rfl hH
    have hresult := deserializeResult_of_inputIs hb
    refine ⟨fun hbad => ?_, fun syms hsyms => ⟨fun e he => ?_, fun f hf => ?_⟩⟩
    · rw [ht]
      exact exec_deserialize_of_error (hresult.trans (deserialize_of_utf8Dec_eq_none hH _ hbad))
    · rw [ht]
      exact exec_deserialize_of_error
        (hresult.trans (deserialize_of_parseFreqText_error hH hsyms he))
    · exact exec_deserialize_of_ok (hresult.trans (deserialize_of_parseFreqText_ok hH hsyms hf))
  · intro p pre post fd g syms hne hsyms hfds hpre hkeys hlen htotal
    obtain ⟨u, huasc, huperm, hu⟩ :=
      parseFreqText_next_field hne hsyms hfds hpre ⟨hkeys, hlen, htotal⟩
    rw [hu, ← FreqTable.total_perm huperm, ← huperm.length_eq]
    simp only [← mem_keys_perm huperm]
    refine ⟨fun e => addFields_of_parseField_error, fun c n hfd => ⟨addFields_of_mem_keys hfd,
      addFields_of_length_eq hfd, addFields_of_countMax_lt hfd, ?_⟩⟩
    rintro hnew hk hsum rfl
    exact ⟨tableInsert c n u, addFields_of_fits hfd hnew hk hsum, tableInsert_ascending n huasc hnew,
      (tableInsert_perm c n u).trans ((List.perm_append_singleton _ _).symm.trans
        (huperm.append_right _))⟩

end Sys2Proof.Machine

/-! The frequency text (44_container.md R99-R102, R107): its entries' fields parse back to them, it
holds no separator, and so a container reads back whatever the order of its entries; SERIALIZE. -/

namespace Sys2Proof.Machine

/-! ### An entry and its field (R100, R101) -/

/-- An entry that a container can hold (R101), with a count of R7. -/
structure Representable (e : Symbol × Nat) : Prop where
  scalar : isScalar e.1 = true
  ne_colon : e.1 ≠ colonSym
  ne_newline : e.1 ≠ newlineSym
  count_ne_zero : e.2 ≠ 0
  count_le : e.2 ≤ countMax

theorem representable_of_wf {p : Params} {f : FreqTable} (hf : FreqTable.wf p f)
    (hsyms : ∀ e ∈ f, e.1 ≠ colonSym ∧ e.1 ≠ newlineSym) : ∀ e ∈ f, Representable e := by
  intro e he
  obtain ⟨-, hentries, -, htotal⟩ := hf
  obtain ⟨hscalar, hcount⟩ := hentries e he
  obtain ⟨hcolon, hnewline⟩ := hsyms e he
  exact ⟨hscalar, hcolon, hnewline, Nat.one_le_iff_ne_zero.1 hcount,
    (List.le_sum_of_mem (List.mem_map_of_mem he)).trans htotal⟩

theorem lhsSymbol_lhs (c : Symbol) : lhsSymbol (lhs c) = some c := by
  unfold lhs
  split_ifs with hc
  · rw [hc, lhsSymbol]
  · rfl

theorem mem_lhs {c x : Symbol} : x ∈ lhs c ↔ x = c ∧ c ≠ spaceSym := by
  unfold lhs
  split_ifs with hc <;> simp [hc]

theorem notMem_dec {c n : Nat} (hn : n ≠ 0) (hc : c < 0x30 ∨ 0x39 < c) : c ∉ dec n := by
  obtain ⟨-, hdigits, -⟩ := isNumeral_dec hn
  intro hmem
  have hbounds : 0x30 ≤ c ∧ c ≤ 0x39 := hdigits c hmem
  omega

namespace Representable

variable {e : Symbol × Nat} (he : Representable e)

include he

theorem parseField_entryText : parseField (entryText e) = .ok e := by
  have hL : colonSym ∉ lhs e.1 := fun h => he.ne_colon (mem_lhs.1 h).1.symm
  have hR : colonSym ∉ dec e.2 := notMem_dec he.count_ne_zero (by decide)
  have hcount : parseCount (dec e.2) = .ok e.2 := by
    rw [parseCount_eq_ok_iff, decimalValue_dec he.count_ne_zero]
    exact ⟨isNumeral_dec he.count_ne_zero, rfl, he.count_le⟩
  rw [entryText, List.append_assoc, List.singleton_append,
    parseField_of_lhsSymbol_eq_some hL hR (lhsSymbol_lhs e.1), hcount, fieldEntry]

theorem spaceSym_notMem_entryText : spaceSym ∉ entryText e := by
  have hdigits : spaceSym ∉ dec e.2 := notMem_dec he.count_ne_zero (by decide)
  have hcolon : spaceSym ≠ colonSym := by decide
  simp only [entryText, List.mem_append, List.mem_singleton, mem_lhs, hdigits, hcolon, or_false]
  exact fun h => h.2 h.1.symm

/-- The symbols of an entry's field are symbols of R11, and no NEWLINE. -/
theorem of_mem_entryText {c : Nat} (hc : c ∈ entryText e) :
    isScalar c = true ∧ c ≠ newlineSym := by
  rw [entryText, List.mem_append, List.mem_append, List.mem_singleton, mem_lhs] at hc
  rcases hc with (⟨rfl, -⟩ | rfl) | hdigit
  · exact ⟨he.scalar, he.ne_newline⟩
  · decide
  · obtain ⟨-, hdigits, -⟩ := isNumeral_dec he.count_ne_zero
    have hbounds : 0x30 ≤ c ∧ c ≤ 0x39 := hdigits c hdigit
    rw [isScalar_iff, newlineSym]
    omega

end Representable

theorem entryText_ne_nil (e : Symbol × Nat) : entryText e ≠ [] := by simp [entryText]

/-! ### The frequency text (R100) -/

theorem mem_intercalate_singleton {sep c : Symbol} {fds : List (List Symbol)}
    (hc : c ∈ [sep].intercalate fds) : c = sep ∨ ∃ fd ∈ fds, c ∈ fd := by
  induction fds with
  | nil => cases hc
  | cons fd fds ih =>
    obtain rfl | hne := eq_or_ne fds []
    · rw [List.intercalate_singleton] at hc
      exact .inr ⟨fd, List.mem_cons_self .., hc⟩
    · rw [List.intercalate_cons_of_ne_nil hne, List.mem_append, List.mem_append,
        List.mem_singleton] at hc
      rcases hc with (hfd | hsep) | hrest
      · exact .inr ⟨fd, List.mem_cons_self .., hfd⟩
      · exact .inl hsep
      · exact (ih hrest).imp_right fun ⟨x, hx, hcx⟩ => ⟨x, List.mem_cons_of_mem _ hx, hcx⟩

section FreqText

variable {f : FreqTable} (hf : ∀ e ∈ f, Representable e)

include hf

theorem map_parseField_entryText : (f.map entryText).map parseField = f.map .ok := by
  rw [List.map_map]
  exact List.map_congr_left fun e he => (hf e he).parseField_entryText

theorem spaceSym_notMem_of_mem_map_entryText : ∀ fd ∈ f.map entryText, spaceSym ∉ fd :=
  List.forall_mem_map.2 fun e he => (hf e he).spaceSym_notMem_entryText

theorem freqText_ne_nil (hne : f ≠ []) : freqText f ≠ [] := by
  intro hnil
  have hsplit := splitSpaces_intercalate (List.map_eq_nil_iff.not.2 hne)
    (spaceSym_notMem_of_mem_map_entryText hf)
  rw [← freqText, hnil, splitSpaces] at hsplit
  obtain ⟨e, -, he⟩ := List.mem_map.1 (hsplit ▸ List.mem_singleton_self ([] : List Symbol))
  exact entryText_ne_nil e he

theorem of_mem_freqText {c : Symbol} (hc : c ∈ freqText f) :
    isScalar c = true ∧ c ≠ newlineSym := by
  rcases mem_intercalate_singleton hc with rfl | ⟨fd, hfd, hcfd⟩
  · decide
  · obtain ⟨e, he, rfl⟩ := List.mem_map.1 hfd
    exact (hf e he).of_mem_entryText hcfd

/-- R103: the text of a table's entries in any order gives the table. -/
theorem parseFreqText_freqText {p : Params} {g : FreqTable} (hperm : f.Perm g)
    (hg : FreqTable.wf p g) : parseFreqText p (freqText f) = .ok g := by
  obtain rfl | hne := eq_or_ne f []
  · rw [← hperm.nil_eq]
    exact parseFreqText_nil p
  · refine (parseFreqText_intercalate rfl (freqText_ne_nil hf hne)
      (spaceSym_notMem_of_mem_map_entryText hf)).trans ?_
    exact addFields_of_perm (map_parseField_entryText hf) hperm (FreqTable.fits_of_wf hg) hg.1

end FreqText

/-! ### The separator in UTF-8 (R71, R101) -/

/-- Every byte of a symbol beyond U+007F has its top bit set. -/
theorem toNat_of_mem_utf8Enc {c : Nat} (hc : 0x80 ≤ c) {b : Byte} (hb : b ∈ utf8Enc c) :
    0x80 ≤ b.toNat := by
  have hmark (m lo n : Nat) (hm : 0x80 ≤ m) (hn : m + 2 ^ n ≤ 2 ^ 8) :
      0x80 ≤ (BitVec.ofNat 8 (m + fieldOf c lo n)).toNat := by
    rw [toNat_ofNat_add_fieldOf hn]
    omega
  have hcont (lo : Nat) : 0x80 ≤ (contByte c lo).toNat := hmark 0x80 lo 6 le_rfl (by decide)
  by_cases htwo : c ≤ 0x7FF
  · rw [utf8Enc_two hc htwo, List.mem_pair] at hb
    rcases hb with rfl | rfl
    exacts [hmark _ _ _ (by decide) (by decide), hcont _]
  by_cases hthree : c ≤ 0xFFFF
  · simp only [utf8Enc_three (by omega) hthree, List.mem_cons, List.not_mem_nil, or_false] at hb
    rcases hb with rfl | rfl | rfl
    exacts [hmark _ _ _ (by decide) (by decide), hcont _, hcont _]
  · have hfour : 0x10000 ≤ c := by omega
    simp only [utf8Enc_four hfour, List.mem_cons, List.not_mem_nil, or_false] at hb
    rcases hb with rfl | rfl | rfl | rfl
    exacts [hmark _ _ _ (by decide) (by decide), hcont _, hcont _, hcont _]

theorem newlineByte_notMem_utf8Enc {c : Nat} (hc : c ≠ newlineSym) :
    newlineByte ∉ utf8Enc c := by
  intro hb
  by_cases hone : c ≤ 0x7F
  · rw [utf8Enc_one hone, List.mem_singleton] at hb
    have hval : newlineByte.toNat = c % 2 ^ 8 := by rw [hb, BitVec.toNat_ofNat]
    have hnl : newlineByte.toNat = newlineSym := rfl
    omega
  · exact absurd (toNat_of_mem_utf8Enc (by omega) hb) (by decide)

theorem newlineByte_notMem_utf8 {syms : List Symbol} (h : ∀ c ∈ syms, c ≠ newlineSym) :
    newlineByte ∉ utf8 syms := by
  rw [utf8, List.mem_flatMap]
  rintro ⟨c, hc, hb⟩
  exact newlineByte_notMem_utf8Enc (h c hc) hb

/-! ### The round trip (R106, R107) -/

/-- A container of a table's entries in any order reads back as the table and the payload. -/
theorem deserialize_containerBytes {p : Params} {f g : FreqTable} (hperm : f.Perm g)
    (hg : FreqTable.wf p g) (hsyms : ∀ e ∈ g, e.1 ≠ colonSym ∧ e.1 ≠ newlineSym) (P : List Byte) :
    deserialize p (containerBytes f P) = .ok (g, P) := by
  have hf : ∀ e ∈ f, Representable e := fun e he =>
    representable_of_wf hg hsyms e (hperm.mem_iff.1 he)
  have hdec : utf8Dec (utf8 (freqText f)) = some (freqText f) :=
    utf8Dec_utf8 fun c hc => (of_mem_freqText hf hc).1
  have hsep : newlineByte ∉ utf8 (freqText f) :=
    newlineByte_notMem_utf8 fun c hc => (of_mem_freqText hf hc).2
  exact deserialize_of_parseFreqText_ok hsep hdec (parseFreqText_freqText hf hperm hg)

/-- Settles O32: the container reads back, whatever the order of its entries. -/
theorem deserializeAcceptsAnyEntryOrder : Obligations.DeserializeAcceptsAnyEntryOrder := by
  unfold Obligations.DeserializeAcceptsAnyEntryOrder
  intro s f l P hf hsyms hperm hinput
  exact exec_deserialize_of_ok
    ((deserializeResult_of_inputIs hinput).trans (deserialize_containerBytes hperm hf hsyms P))

/-! ### SERIALIZE (R102, R105) -/

theorem serialize_of_unrepresentable (p : Params) {f : FreqTable} (P : List Byte)
    (h : ∃ e ∈ f, e.1 = colonSym ∨ e.1 = newlineSym) :
    serialize p f P = .error .unrepresentableSymbol :=
  if_pos (by simpa [unrepresentable] using h)

theorem serialize_of_representable (p : Params) {f : FreqTable} (P : List Byte)
    (h : ∀ e ∈ f, e.1 ≠ colonSym ∧ e.1 ≠ newlineSym) :
    serialize p f P =
      if p.outCap < (containerBytes f P).length then .error .capacity
      else .ok (containerBytes f P) :=
  if_neg (by simpa [unrepresentable] using h)

/-- Settles O31: what Serialize returns is the container, which reads back. -/
theorem containerRoundTrip : Obligations.ContainerRoundTrip := by
  unfold Obligations.ContainerRoundTrip
  intro p f P B hf hsyms hB
  rw [serialize_of_representable p P hsyms] at hB
  split_ifs at hB
  obtain rfl := Except.ok.inj hB
  exact deserialize_containerBytes (List.Perm.refl f) hf hsyms P

theorem exec_serialize_of_ok {s : State} {B : List Byte}
    (h : serializeResult s.params s.freq s.payload = .ok B) :
    exec .serialize s = .next (s.memWriteOut B).completeOk :=
  exec_eq_completeOk rfl (by rw [stageOf, stageSerialize, h])

theorem exec_serialize_of_error {s : State} {e : ErrCode}
    (h : serializeResult s.params s.freq s.payload = .error e) :
    exec .serialize s = .next (s.completeError e 0x15) := by
  rw [exec_stage rfl, stageOf, stageSerialize, h]
  rfl

/-- Settles O30: R102's checks in their order, on the container R99 and R100 describe. -/
theorem exec_serialize_result : Obligations.SerializeResult := by
  unfold Obligations.SerializeResult
  refine ⟨fun f => rfl, fun s f P hfreq hpayload => ?_⟩
  have hresult : serializeResult s.params s.freq s.payload = serialize s.params f P := by
    rw [hfreq, hpayload, serializeResult]
  refine ⟨fun hbad => ?_, ?_⟩
  · exact exec_serialize_of_error (hresult.trans (serialize_of_unrepresentable _ P hbad))
  · rintro hsyms B rfl
    have hserialize := hresult.trans (serialize_of_representable _ P hsyms)
    exact ⟨fun hlt => exec_serialize_of_error (hserialize.trans (if_pos hlt)),
      fun hle => exec_serialize_of_ok (hserialize.trans (if_neg (Nat.not_lt_of_le hle)))⟩

end Sys2Proof.Machine

/-! ENCODE as far as its last stage (45_codec.md R108-R114): what COUNT and MAP make of a text, the
state after PACK, and the texts SERIALIZE rejects (44_container.md R101). -/

namespace Sys2Proof.Machine

/-! ### COUNT and MAP on a well-formed text (R108-R111) -/

theorem length_countSymbols (syms : List Symbol) :
    (countSymbols syms).length = syms.dedup.length := by
  rw [countSymbols, List.length_map, (distinctSymbols_perm_dedup syms).length_eq]

theorem exists_mem_countSymbols {c : Symbol} {syms : List Symbol} (hc : c ∈ syms) :
    ∃ e ∈ countSymbols syms, e.1 = c :=
  ⟨_, List.mem_map_of_mem (mem_distinctSymbols.2 hc), rfl⟩

theorem countSymbols_ne_nil {syms : List Symbol} (hne : syms ≠ []) : countSymbols syms ≠ [] := by
  obtain ⟨c, hc⟩ := List.exists_mem_of_ne_nil syms hne
  obtain ⟨e, he, -⟩ := exists_mem_countSymbols hc
  exact List.ne_nil_of_mem he

theorem countResult_of_inputIs {s : State} {syms : List Symbol} (hne : syms ≠ [])
    (hsyms : AllScalar syms) (hinput : s.InputIs (utf8 syms))
    (hk : syms.dedup.length ≤ s.params.kMax) : countResult s = .ok (countSymbols syms) := by
  rw [← length_countSymbols] at hk
  simp only [countResult, State.input_of_inputIs hinput, countFreq, utf8Dec_utf8 hsyms,
    List.length_eq_zero_iff, hne, Nat.not_lt.2 hk, if_false]

theorem codesOf_cons_eq_some {c : CodeTable} {k : Symbol} {syms : List Symbol} {b : Bits}
    (h : codesOf c (k :: syms) = some b) :
    ∃ code bs, c.lookup k = some code ∧ codesOf c syms = some bs ∧ b = code ++ bs := by
  unfold codesOf at h
  split at h
  next code bs hcode hbs => exact ⟨code, bs, hcode, hbs, (Option.some.inj h).symm⟩
  · cases h

/-- The loop of R110 on symbols that all have codes, when all the bits fit. -/
theorem mapLoop_of_codesOf {p : Params} {c : CodeTable} {syms : List Symbol} {b : Bits}
    (h : codesOf c syms = some b) {start : Bits} (hcap : (start ++ b).length ≤ p.bitsCap) :
    mapLoop p c syms start = .ok (start ++ b) := by
  induction syms generalizing b start with
  | nil =>
    obtain rfl := Option.some.inj h
    rw [mapLoop, List.append_nil]
  | cons k syms ih =>
    obtain ⟨code, bs, hcode, hbs, rfl⟩ := codesOf_cons_eq_some h
    rw [← List.append_assoc] at hcap ⊢
    have hfits : ¬ p.bitsCap < (start ++ code).length := by
      rw [List.length_append] at hcap
      omega
    simp only [mapLoop, hcode, hfits, if_false]
    exact ih hbs hcap

theorem mapResult_of_codesOf {s : State} {c : CodeTable} {syms : List Symbol} {b : Bits}
    (hsyms : AllScalar syms) (hinput : s.InputIs (utf8 syms)) (hc : s.codes = some c)
    (hb : codesOf c syms = some b) (hcap : b.length ≤ s.params.bitsCap) :
    mapResult s = .ok b := by
  simp only [mapResult, hc, State.input_of_inputIs hinput, mapSymbols, utf8Dec_utf8 hsyms]
  exact mapLoop_of_codesOf hb hcap

/-! ### The stages before SERIALIZE (R114) -/

/-- The state after ENCODE's first five stages on a text of table `f`: the five stores, the packed
bytes in OUT_MEM, and PAD_BITS. -/
def State.packed (s : State) (f : FreqTable) (b : Bits) : State :=
  { s with
    freq := some f
    tree := some (buildTree f)
    codes := some (genCodes (buildTree f))
    bits := some b
    payload := some (pack b)
    outMem := Memory.ofBytes (pack b)
    csr := { s.csr with
      outLen := BitVec.ofNat 32 (pack b).length
      padBits := BitVec.ofNat 32 (8 * (pack b).length - b.length) } }

theorem stageCount_of_ok {s : State} {f : FreqTable} (h : countResult s = .ok f) :
    stageCount s = .ok { s with freq := some f } := by rw [stageCount, h]

theorem stageBuild_of_ok {s : State} {t : Tree} (h : buildResult s.freq = .ok t) :
    stageBuild s = .ok { s with tree := some t } := by rw [stageBuild, h]

theorem stageGencode_of_ok {s : State} {c : CodeTable} (h : gencodeResult s.params s.tree = .ok c) :
    stageGencode s = .ok { s with codes := some c } := by rw [stageGencode, h]

theorem stageMap_of_ok {s : State} {b : Bits} (h : mapResult s = .ok b) :
    stageMap s = .ok { s with bits := some b } := by rw [stageMap, h]

theorem stagePack_of_ok {s : State} {P : List Byte} {pad : Nat}
    (h : packResult s.params s.bits = .ok (P, pad)) :
    stagePack s = .ok { s with
      payload := some P
      outMem := Memory.ofBytes P
      csr := { s.csr with
        outLen := BitVec.ofNat 32 P.length
        padBits := BitVec.ofNat 32 pad } } := by
  rw [stagePack, h]
  rfl

theorem packResult_of_le {p : Params} {b : Bits} (h : (pack b).length ≤ p.outCap) :
    packResult p (some b) = .ok (pack b, 8 * (pack b).length - b.length) :=
  if_neg (Nat.not_lt_of_le h)

theorem gencodeResult_of_le {p : Params} {t : Tree} (h : (genCodes t).maxLen ≤ p.lMax) :
    gencodeResult p (some t) = .ok (genCodes t) :=
  if_neg (Nat.not_lt_of_le h)

/-- When the first five stages fit their capacities, ENCODE is what SERIALIZE makes of the state they
leave. -/
theorem exec_encode_eq_serialize {s : State} {syms : List Symbol} {b : Bits} (hne : syms ≠ [])
    (hsyms : AllScalar syms) (hinput : s.InputIs (utf8 syms))
    (hk : syms.dedup.length ≤ s.params.kMax)
    (hmax : (genCodes (buildTree (countSymbols syms))).maxLen ≤ s.params.lMax)
    (hb : codesOf (genCodes (buildTree (countSymbols syms))) syms = some b)
    (hbits : b.length ≤ s.params.bitsCap) (hpack : (pack b).length ≤ s.params.outCap) :
    exec .encode s = exec .serialize (s.packed (countSymbols syms) b) := by
  have hstages :
      runStages encodeStages s = stageSerialize (s.packed (countSymbols syms) b) := by
    rw [encodeStages]
    refine (runStages_cons_ok (stageCount_of_ok
      (countResult_of_inputIs hne hsyms hinput hk))).trans ?_
    refine (runStages_cons_ok (stageBuild_of_ok
      (buildResult_of_ne_nil (countSymbols_ne_nil hne)))).trans ?_
    refine (runStages_cons_ok (stageGencode_of_ok (gencodeResult_of_le hmax))).trans ?_
    refine (runStages_cons_ok (stageMap_of_ok
      (mapResult_of_codesOf hsyms ?_ rfl hb ?_))).trans ?_
    · exact hinput
    · exact hbits
    refine (runStages_cons_ok (stagePack_of_ok (packResult_of_le hpack))).trans ?_
    exact runStages_singleton _ _
  exact congrArg (fun r => Host.Outcome.next (StageResult.complete r)) hstages

/-- Settles O41: the last stage fails on the table of the text, from the state the five before leave. -/
theorem encodeRejectsColonAndNewline : Obligations.EncodeRejectsColonAndNewline := by
  unfold Obligations.EncodeRejectsColonAndNewline
  rintro s syms f c b hsyms hbad hinput hk rfl rfl hmax hb hbits hout
  have hne : syms ≠ [] := by
    rintro rfl
    exact hbad.elim List.not_mem_nil List.not_mem_nil
  have hentry : ∃ e ∈ countSymbols syms, e.1 = colonSym ∨ e.1 = newlineSym := by
    rcases hbad with hmem | hmem
    · exact (exists_mem_countSymbols hmem).imp fun _ he => ⟨he.1, .inl he.2⟩
    · exact (exists_mem_countSymbols hmem).imp fun _ he => ⟨he.1, .inr he.2⟩
  rw [exec_encode_eq_serialize hne hsyms hinput hk hmax hb hbits (by rwa [length_pack])]
  exact exec_serialize_of_error
    (serialize_of_unrepresentable s.params (pack b) hentry)

end Sys2Proof.Machine

/-! COUNT and MAP (45_codec.md R108-R111, R119): what each makes of its input, in the order of its
checks, and the two commands' results. -/

namespace Sys2Proof.Machine

theorem State.input_eq_ok_iff {s : State} {b : List Byte} : s.input = .ok b ↔ s.InputIs b := by
  refine ⟨fun h => ?_, State.input_of_inputIs⟩
  unfold State.input at h
  split_ifs at h with hcap
  exact ⟨Nat.le_of_not_lt hcap, Except.ok.inj h⟩

/-! ### COUNT (R108, R109) -/

theorem countSymbols_ascending (syms : List Symbol) : Ascending (countSymbols syms) :=
  List.pairwise_map.2 (distinctSymbols_pairwise syms)

theorem mem_countSymbols {syms : List Symbol} {c n : Nat} :
    (c, n) ∈ countSymbols syms ↔ c ∈ syms ∧ n = syms.count c := by
  simp only [countSymbols, List.mem_map, mem_distinctSymbols, Prod.mk.injEq]
  constructor
  · rintro ⟨k, hk, rfl, rfl⟩
    exact ⟨hk, rfl⟩
  · rintro ⟨hc, rfl⟩
    exact ⟨c, hc, rfl, rfl⟩

theorem countResult_eq_countFreq {s : State} {b : List Byte} (h : s.InputIs b) :
    countResult s = countFreq s.params b := by
  rw [countResult, State.input_of_inputIs h]

/-- COUNT succeeds only on a text that is well formed and not empty, with the table of the text. -/
theorem countResult_eq_ok {s : State} {f : FreqTable} (h : countResult s = .ok f) :
    ∃ syms, AllScalar syms ∧ s.InputIs (utf8 syms) ∧ syms ≠ [] ∧ f = countSymbols syms := by
  unfold countResult at h
  split at h
  · cases h
  next b hb =>
  unfold countFreq at h
  split at h
  · cases h
  next syms hdec =>
  split_ifs at h with hempty hk
  obtain ⟨hsyms, rfl⟩ := allScalar_and_utf8_of_utf8Dec hdec
  exact ⟨syms, hsyms, State.input_eq_ok_iff.1 hb, fun hnil => hempty (hnil ▸ rfl),
    (Except.ok.inj h).symm⟩

theorem exec_count_of_ok {s : State} {f : FreqTable} (h : countResult s = .ok f) :
    exec .count s = .next { s with freq := some f }.completeOk :=
  exec_eq_completeOk rfl (stageCount_of_ok h)

theorem exec_count_of_error {s : State} {e : ErrCode} (h : countResult s = .error e) :
    exec .count s = .next ({ s with freq := none }.completeError e 0x10) := by
  rw [exec_stage rfl, stageOf, stageCount, h]
  rfl

/-- Settles O15: the table of the text, with its entries. -/
theorem exec_count_result : Obligations.CountResult := by
  unfold Obligations.CountResult
  exact fun s syms hne hsyms hinput hk =>
    ⟨countSymbols syms, exec_count_of_ok (countResult_of_inputIs hne hsyms hinput hk),
      countSymbols_ascending syms, fun _ _ => mem_countSymbols⟩

/-- Settles O16: the counts of the text's table sum to its length, which is within IN_LEN. -/
theorem frequencyFidelity : Obligations.FrequencyFidelity := by
  unfold Obligations.FrequencyFidelity
  intro s t hs h hdone
  obtain ⟨u, hu, rfl⟩ := exec_done hs (by decide) h hdone
  rw [stagesOf, List.map_singleton, runStages_singleton, stageOf] at hu
  obtain ⟨f, hf, hok⟩ | ⟨e, -, hfail⟩ := stageCount_cases s
  · obtain rfl := StageResult.ok.inj (hok.symm.trans hu)
    obtain ⟨syms, hsyms, hinput, -, rfl⟩ := countResult_eq_ok hf
    refine ⟨syms, _, hsyms, hinput, rfl, ?_, fun c => ?_⟩
    · have hlen := length_le_length_utf8 syms
      have hword := s.csr.inLen.isLt
      rw [(State.input_ok (State.input_of_inputIs hinput)).1] at hlen
      have htotal := total_countSymbols syms
      exact (toNat_ofNat_of_le (htotal.le.trans (by omega))).trans htotal
    · rw [keys_countSymbols, mem_distinctSymbols]
  · cases hfail.symm.trans hu

/-- Settles O17: R109's check of IN_LEN, then R108's in their order. -/
theorem countErrorsInOrder : Obligations.CountErrorsInOrder := by
  unfold Obligations.CountErrorsInOrder
  intro s t ht
  simp only [ht]
  refine ⟨fun hcap => exec_count_of_error ?_, fun b hb => ?_⟩
  · rw [countResult, State.input_of_inCap_lt hcap]
  · have hresult := countResult_eq_countFreq hb
    refine ⟨fun hbad => ?_, fun hempty => ?_, fun syms hsyms hk => ?_⟩ <;>
      refine exec_count_of_error (hresult.trans ?_)
    · rw [countFreq, hbad]
    · rw [countFreq, hempty]
      rfl
    · have hne : syms.length ≠ 0 := by
        intro hzero
        rw [List.length_eq_zero_iff.1 hzero] at hk
        exact Nat.not_lt_zero _ hk
      rw [← length_countSymbols] at hk
      simp only [countFreq, hsyms, hne, hk, if_false, if_true]

/-! ### MAP (R110, R111) -/

section MapLoop

variable {p : Params} {c : CodeTable} {k : Symbol} {syms : List Symbol} {start code : Bits}

theorem mapLoop_of_lookup_eq_none (h : c.lookup k = none) :
    mapLoop p c (k :: syms) start = .error .noCode := by
  simp only [mapLoop, h]

theorem mapLoop_of_bitsCap_lt (h : c.lookup k = some code)
    (hcap : p.bitsCap < (start ++ code).length) :
    mapLoop p c (k :: syms) start = .error .capacity := by
  simp only [mapLoop, h, hcap, if_true]

theorem mapLoop_of_fits (h : c.lookup k = some code)
    (hcap : (start ++ code).length ≤ p.bitsCap) :
    mapLoop p c (k :: syms) start = mapLoop p c syms (start ++ code) := by
  simp only [mapLoop, h, Nat.not_lt_of_le hcap, if_false]

end MapLoop

theorem codesOf_cons {c : CodeTable} {k : Symbol} {syms : List Symbol} {code bs : Bits}
    (hcode : c.lookup k = some code) (hbs : codesOf c syms = some bs) :
    codesOf c (k :: syms) = some (code ++ bs) := by
  simp only [codesOf, hcode, hbs]

/-- The loop of R110 past symbols whose codes fit. -/
theorem mapLoop_append {p : Params} {c : CodeTable} {pre : List Symbol} {bs : Bits}
    (h : codesOf c pre = some bs) {start : Bits} (hcap : (start ++ bs).length ≤ p.bitsCap)
    (post : List Symbol) : mapLoop p c (pre ++ post) start = mapLoop p c post (start ++ bs) := by
  induction pre generalizing bs start with
  | nil =>
    obtain rfl := Option.some.inj h
    rw [List.nil_append, List.append_nil]
  | cons k pre ih =>
    obtain ⟨code, rest, hcode, hrest, rfl⟩ := codesOf_cons_eq_some h
    rw [← List.append_assoc] at hcap ⊢
    have hfits : (start ++ code).length ≤ p.bitsCap :=
      (List.prefix_append (start ++ code) rest).length_le.trans hcap
    rw [List.cons_append, mapLoop_of_fits hcode hfits, ih hrest hcap]

/-- The loop of R110 succeeds only with the codes of all its symbols. -/
theorem mapLoop_eq_ok {p : Params} {c : CodeTable} {syms : List Symbol} {start b : Bits}
    (h : mapLoop p c syms start = .ok b) : ∃ bs, codesOf c syms = some bs ∧ b = start ++ bs := by
  induction syms generalizing start with
  | nil =>
    cases h
    exact ⟨[], rfl, (List.append_nil _).symm⟩
  | cons k syms ih =>
    unfold mapLoop at h
    split at h
    · cases h
    next code hcode =>
    split_ifs at h
    obtain ⟨bs, hbs, rfl⟩ := ih h
    exact ⟨code ++ bs, codesOf_cons hcode hbs, List.append_assoc ..⟩

theorem mapResult_eq_mapSymbols {s : State} {c : CodeTable} {b : List Byte} (hc : s.codes = some c)
    (h : s.InputIs b) : mapResult s = mapSymbols s.params b c := by
  simp only [mapResult, hc, State.input_of_inputIs h]

theorem exec_map_of_ok {s : State} {b : Bits} (h : mapResult s = .ok b) :
    exec .map s = .next { s with bits := some b }.completeOk :=
  exec_eq_completeOk rfl (stageMap_of_ok h)

theorem exec_map_of_error {s : State} {e : ErrCode} (h : mapResult s = .error e) :
    exec .map s = .next ({ s with bits := none }.completeError e 0x13) := by
  rw [exec_stage rfl, stageOf, stageMap, h]
  rfl

/-- Settles O25: the loop of R110 on symbols that all have codes. -/
theorem exec_map_result : Obligations.MapResult := by
  unfold Obligations.MapResult
  exact fun s c syms b hsyms hinput hc hb hcap =>
    exec_map_of_ok (mapResult_of_codesOf hsyms hinput hc hb hcap)

/-- Settles O26: R111's check of IN_LEN, then R110's, at the symbol that decides. -/
theorem mapErrorsInOrder : Obligations.MapErrorsInOrder := by
  unfold Obligations.MapErrorsInOrder
  intro s c t hc ht
  simp only [ht]
  refine ⟨fun hcap => exec_map_of_error ?_,
    fun b hb => ⟨fun hbad => exec_map_of_error ?_, fun pre k post bs hdec hbs hfits => ?_⟩⟩
  · simp only [mapResult, hc, State.input_of_inCap_lt hcap]
  · rw [mapResult_eq_mapSymbols hc hb, mapSymbols, hbad]
  · have hresult : mapResult s = mapLoop s.params c (k :: post) bs := by
      rw [mapResult_eq_mapSymbols hc hb, mapSymbols, hdec]
      exact mapLoop_append hbs (start := []) hfits _
    exact ⟨fun hnone => exec_map_of_error (hresult.trans (mapLoop_of_lookup_eq_none hnone)),
      fun code hcode hlt => exec_map_of_error (hresult.trans (mapLoop_of_bitsCap_lt hcode hlt))⟩

end Sys2Proof.Machine

/-! WALK (45_codec.md R112, R113, R120): one symbol read off the bits, the loop past the codes of a
text, and where it ends; the command's results. -/

namespace Sys2Proof.Machine

/-! ### One symbol (R112) -/

theorem mem_of_lookup_eq_some {c : CodeTable} {k : Symbol} {code : Bits}
    (h : c.lookup k = some code) : (k, code) ∈ c := by
  obtain ⟨before, after, rfl, -⟩ := List.lookup_eq_some_iff.1 h
  exact List.mem_append_right _ (List.mem_cons_self ..)

theorem walkSymbol_append_of_mem_genCodes {t : Tree} (ht : t.wf) {k : Symbol} {code : Bits}
    (h : (k, code) ∈ genCodes t) (x : Bits) : walkSymbol t (code ++ x) = some (k, x) := by
  obtain ⟨hwalk, -⟩ := codesDecodeToTheirSymbols t ht
  exact hwalk (k, code) h x

theorem walkSymbol_of_leaves_eq_one {t : Tree} (hone : t.leaves = 1) (b : Bits) :
    walkSymbol t b = singleSymbol t b := if_pos hone

theorem singleSymbol_append {t : Tree} {b rest : Bits} {c : Symbol}
    (h : singleSymbol t b = some (c, rest)) (x : Bits) :
    singleSymbol t (b ++ x) = some (c, rest ++ x) := by
  unfold singleSymbol at h
  split at h
  next b =>
    split at h
    next s w h0 =>
      cases h
      simp only [List.cons_append, singleSymbol, h0]
    · cases h
  · cases h

/-- A symbol is read from the bits it takes, whatever follows them. -/
theorem walkSymbol_append {t : Tree} {b rest : Bits} {c : Symbol}
    (h : walkSymbol t b = some (c, rest)) (x : Bits) :
    walkSymbol t (b ++ x) = some (c, rest ++ x) := by
  by_cases hone : t.leaves = 1
  · rw [walkSymbol_of_leaves_eq_one hone] at h ⊢
    exact singleSymbol_append h x
  · obtain ⟨path, rfl, hpath⟩ := (walkSymbol_eq_some_iff hone b rest c).1 h
    exact (walkSymbol_eq_some_iff hone _ _ c).2 ⟨path, List.append_assoc .., hpath⟩

/-- A path to a leaf begins no other path to a leaf. -/
theorem Tree.LeadsTo.eq_of_prefix {t : Tree} {b b' : Bits} {c c' : Symbol} (h : t.LeadsTo b c)
    (h' : t.LeadsTo b' c') (hprefix : b <+: b') : b = b' := by
  obtain ⟨i, w, hpath, hleaf⟩ := h
  obtain ⟨j, w', hpath', -⟩ := h'
  obtain ⟨more, rfl⟩ := hprefix
  rw [follow_append, hpath, Option.bind_some] at hpath'
  rw [eq_nil_of_follow_leaf hleaf hpath', List.append_nil]

/-- The root of a tree of two leaves or more is an internal node, so no leaf's path is empty. -/
theorem Tree.LeadsTo.ne_nil {t : Tree} (ht : t.wf) (hone : t.leaves ≠ 1) {b : Bits} {c : Symbol}
    (h : t.LeadsTo b c) : b ≠ [] := by
  rintro rfl
  obtain ⟨i, w, hroot, hleaf⟩ := h
  obtain rfl := Option.some.inj hroot
  have hlt := (ht.leaf hleaf).1
  rw [Tree.root] at hlt
  omega

/-- Reading a symbol takes a bit at least. -/
theorem length_lt_of_walkSymbol {t : Tree} (ht : t.wf) {b rest : Bits} {c : Symbol}
    (h : walkSymbol t b = some (c, rest)) : rest.length < b.length := by
  by_cases hone : t.leaves = 1
  · obtain ⟨s, w, hs⟩ := ht.nodes_single hone
    obtain ⟨rfl, -⟩ := (walkSymbol_single hone hs _ _ _).1 h
    exact Nat.lt_succ_self _
  · obtain ⟨path, rfl, hpath⟩ := (walkSymbol_eq_some_iff hone _ _ _).1 h
    have hpos := List.length_pos_iff.2 (hpath.ne_nil ht hone)
    rw [List.length_append]
    omega

/-- Bits that run out inside a code are read as no symbol. -/
theorem walkSymbol_of_proper_prefix {t : Tree} (ht : t.wf) {e : Symbol × Bits} {b : Bits}
    (he : e ∈ genCodes t) (hprefix : b <+: e.2) (hne : b ≠ e.2) : walkSymbol t b = none := by
  refine Option.eq_none_iff_forall_ne_some.2 fun ⟨c, rest⟩ h => ?_
  by_cases hone : t.leaves = 1
  · obtain ⟨s, w, hs, hcodes⟩ := ht.exists_single hone
    obtain ⟨rfl, -⟩ := (walkSymbol_single hone hs _ _ _).1 h
    rw [hcodes, List.mem_singleton] at he
    subst he
    obtain rfl := List.prefix_nil.1 (List.cons_prefix_cons.1 hprefix).2
    exact hne rfl
  · obtain ⟨path, rfl, hpath⟩ := (walkSymbol_eq_some_iff hone _ _ _).1 h
    have hcode := leadsTo_of_mem_genCodes ht hone he
    have heq := hpath.eq_of_prefix hcode ((List.prefix_append path rest).trans hprefix)
    exact hne (hprefix.eq_of_length_le (heq ▸ (List.prefix_append path rest).length_le))

theorem walkSymbol_single_of_true {t : Tree} (hone : t.leaves = 1) {b : Bits}
    (hb : b.head? = some true) : walkSymbol t b = none := by
  obtain ⟨rest, rfl⟩ := List.head?_eq_some_iff.1 hb
  rw [walkSymbol_of_leaves_eq_one hone, singleSymbol]
  exact fun _ h => nomatch h

/-! ### The loop (R112) -/

section WalkLoop

variable {p : Params} {t : Tree} {n : Nat} {b rest : Bits} {out : List Byte} {c : Symbol}

theorem walkLoop_of_walkSymbol_eq_none (h : walkSymbol t b = none) :
    walkLoop p t (n + 1) b out = .error .corruptContainer := by
  simp only [walkLoop, h]

theorem walkLoop_of_outCap_lt (h : walkSymbol t b = some (c, rest))
    (hcap : p.outCap < out.length + (utf8Enc c).length) :
    walkLoop p t (n + 1) b out = .error .capacity := by
  simp only [walkLoop, h, hcap, if_true]

theorem walkLoop_of_fits (h : walkSymbol t b = some (c, rest))
    (hcap : out.length + (utf8Enc c).length ≤ p.outCap) :
    walkLoop p t (n + 1) b out = walkLoop p t n rest (out ++ utf8Enc c) := by
  simp only [walkLoop, h, Nat.not_lt_of_le hcap, if_false]

/-- The loop past the codes of symbols whose UTF-8 fits. -/
theorem walkLoop_append_of_codesOf (ht : t.wf) {syms : List Symbol}
    (h : codesOf (genCodes t) syms = some b) (hcap : (out ++ utf8 syms).length ≤ p.outCap) :
    walkLoop p t (syms.length + n) (b ++ rest) out = walkLoop p t n rest (out ++ utf8 syms) := by
  induction syms generalizing b out with
  | nil =>
    obtain rfl := Option.some.inj h
    rw [List.length_nil, Nat.zero_add, utf8_nil, List.nil_append, List.append_nil]
  | cons k syms ih =>
    obtain ⟨code, bs, hcode, hbs, rfl⟩ := codesOf_cons_eq_some h
    rw [utf8_cons, ← List.append_assoc] at hcap ⊢
    have hfits : out.length + (utf8Enc k).length ≤ p.outCap := by
      rw [← List.length_append]
      exact (List.prefix_append (out ++ utf8Enc k) _).length_le.trans hcap
    have hread := walkSymbol_append_of_mem_genCodes ht (mem_of_lookup_eq_some hcode) (bs ++ rest)
    rw [List.length_cons, Nat.add_right_comm, List.append_assoc, walkLoop_of_fits hread hfits,
      ih hbs hcap]

/-- Bits after those the loop takes change nothing but what is left. -/
theorem walkLoop_append {out' : List Byte} (h : walkLoop p t n b out = .ok (out', rest))
    (x : Bits) : walkLoop p t n (b ++ x) out = .ok (out', rest ++ x) := by
  induction n generalizing b out with
  | zero =>
    cases h
    rfl
  | succ n ih =>
    unfold walkLoop at h
    split at h
    · cases h
    next c b' hread =>
    split_ifs at h with hcap
    rw [walkLoop_of_fits (walkSymbol_append hread x) (Nat.le_of_not_lt hcap)]
    exact ih h

/-- With fewer bits than symbols to emit, the loop ends with an error. -/
theorem walkLoop_of_length_lt (ht : t.wf) (h : b.length < n) :
    ∃ e, (e = .corruptContainer ∨ e = .capacity) ∧ walkLoop p t n b out = .error e := by
  induction n generalizing b out with
  | zero => exact absurd h (Nat.not_lt_zero _)
  | succ n ih =>
    cases hread : walkSymbol t b with
    | none => exact ⟨_, .inl rfl, walkLoop_of_walkSymbol_eq_none hread⟩
    | some r =>
      obtain ⟨c, rest⟩ := r
      by_cases hcap : p.outCap < out.length + (utf8Enc c).length
      · exact ⟨_, .inr rfl, walkLoop_of_outCap_lt hread hcap⟩
      · have hless := length_lt_of_walkSymbol ht hread
        rw [walkLoop_of_fits hread (Nat.le_of_not_lt hcap)]
        exact ih (by omega)

end WalkLoop

/-! ### WalkDecode (R112, R120) -/

theorem walkDecode_of_walkLoop_ok {p : Params} {t : Tree} {b rest : Bits} {out : List Byte}
    (h : walkLoop p t (weightAt t.nodes t.root) b [] = .ok (out, rest)) :
    walkDecode p t b = .ok (out, b.length - rest.length) := by
  simp only [walkDecode, h]

theorem walkDecode_eq_ok {p : Params} {t : Tree} {b : Bits} {out : List Byte} {pos : Nat}
    (h : walkDecode p t b = .ok (out, pos)) :
    ∃ rest, walkLoop p t (weightAt t.nodes t.root) b [] = .ok (out, rest) ∧
      pos = b.length - rest.length := by
  unfold walkDecode at h
  split at h
  · cases h
  next rest hloop =>
    cases h
    exact ⟨rest, hloop, rfl⟩

/-- The codes of a text decode to the text, and only their bits are consumed. -/
theorem walkDecode_of_codesOf {p : Params} {t : Tree} (ht : t.wf) {syms : List Symbol} {b : Bits}
    (hweight : weightAt t.nodes t.root = syms.length) (hb : codesOf (genCodes t) syms = some b)
    (hcap : (utf8 syms).length ≤ p.outCap) (x : Bits) :
    walkDecode p t (b ++ x) = .ok (utf8 syms, b.length) := by
  have hloop : walkLoop p t (weightAt t.nodes t.root) (b ++ x) [] = .ok (utf8 syms, x) := by
    rw [hweight]
    exact walkLoop_append_of_codesOf (n := 0) ht hb (out := []) hcap
  rw [walkDecode_of_walkLoop_ok hloop, List.length_append, Nat.add_sub_cancel]

/-- Settles O36: the loop stops after the last symbol, whatever follows. -/
theorem walkIgnoresTrailingBits : Obligations.WalkIgnoresTrailingBits := by
  unfold Obligations.WalkIgnoresTrailingBits
  intro p t b x out pos h
  obtain ⟨rest, hloop, rfl⟩ := walkDecode_eq_ok h
  rw [walkDecode_of_walkLoop_ok (walkLoop_append hloop x), List.length_append, List.length_append,
    Nat.add_sub_add_right]

/-! ### WALK (R113) -/

theorem walkResult_of_walkDecode {p : Params} {t : Tree} {b : Bits} {out : List Byte} {pos : Nat}
    (h : walkDecode p t b = .ok (out, pos)) :
    walkResult p (some t) (some b) = .ok (out, b.length - pos) := by
  simp only [walkResult, h]

theorem walkResult_of_walkLoop_error {p : Params} {t : Tree} {b : Bits} {e : ErrCode}
    (h : walkLoop p t (weightAt t.nodes t.root) b [] = .error e) :
    walkResult p (some t) (some b) = .error e := by
  simp only [walkResult, walkDecode, h]

theorem stageWalk_of_ok {s : State} {out : List Byte} {trail : Nat}
    (h : walkResult s.params s.tree s.bits = .ok (out, trail)) :
    stageWalk s = .ok { s with
      outMem := Memory.ofBytes out
      csr := { s.csr with
        outLen := BitVec.ofNat 32 out.length
        trailBits := BitVec.ofNat 32 trail } } := by
  rw [stageWalk, h]
  rfl

theorem exec_walk_of_error {s : State} {e : ErrCode}
    (h : walkResult s.params s.tree s.bits = .error e) :
    exec .walk s = .next (s.completeError e 0x22) := by
  rw [exec_stage rfl, stageOf, stageWalk, h]
  rfl

/-- Settles O35: the loop past the codes of the whole text leaves the bits after them. -/
theorem walkDecodesTheCodes : Obligations.WalkDecodesTheCodes := by
  unfold Obligations.WalkDecodesTheCodes
  intro s t syms b x htree ht hweight hb hbits hcap
  refine exec_eq_completeOk rfl (stageWalk_of_ok ?_)
  rw [htree, hbits, walkResult_of_walkDecode (walkDecode_of_codesOf ht hweight hb hcap x),
    List.length_append, Nat.add_sub_cancel_left]

/-- After the codes of symbols that fit, fewer than the root weighs, the loop's error at the next
symbol is the walk's. -/
theorem walkResult_error_after_codesOf {p : Params} {t : Tree} (ht : t.wf) {syms : List Symbol}
    {b rest : Bits} {n : Nat} {e : ErrCode} (hb : codesOf (genCodes t) syms = some b)
    (hcap : (utf8 syms).length ≤ p.outCap)
    (hweight : weightAt t.nodes t.root = syms.length + (n + 1))
    (h : walkLoop p t (n + 1) rest (utf8 syms) = .error e) :
    walkResult p (some t) (some (b ++ rest)) = .error e := by
  refine walkResult_of_walkLoop_error ?_
  rw [hweight]
  exact (walkLoop_append_of_codesOf ht hb (out := []) hcap).trans h

/-- Settles O37: the loop past the codes that fit stops at the next symbol, and no symbol is read
without a bit. -/
theorem walkFailsOnTooFewBits : Obligations.WalkFailsOnTooFewBits := by
  unfold Obligations.WalkFailsOnTooFewBits
  constructor
  · intro s t syms bs rest htree ht hb hbits hlt hcap
    obtain ⟨n, hweight⟩ := Nat.exists_eq_add_of_lt hlt
    have hfail : ∀ e, walkLoop s.params t (n + 1) rest (utf8 syms) = .error e →
        exec .walk s = .next (s.completeError e 0x22) := fun e he => exec_walk_of_error <| by
      rw [htree, hbits]
      exact walkResult_error_after_codesOf ht hb hcap hweight he
    refine ⟨fun ⟨e, he, hprefix, hne⟩ => ?_, fun hone htrue => ?_, fun e he hprefix hout => ?_⟩
    · exact hfail _ (walkLoop_of_walkSymbol_eq_none (walkSymbol_of_proper_prefix ht he hprefix hne))
    · exact hfail _ (walkLoop_of_walkSymbol_eq_none (walkSymbol_single_of_true hone htrue))
    · obtain ⟨more, rfl⟩ := hprefix
      refine hfail _ (walkLoop_of_outCap_lt (walkSymbol_append_of_mem_genCodes ht he more) ?_)
      rwa [utf8, List.flatMap_append, List.flatMap_singleton, List.length_append] at hout
  · intro s t b htree ht hbits hlt
    obtain ⟨e, hcode, he⟩ := walkLoop_of_length_lt ht hlt
    refine ⟨e, hcode, exec_walk_of_error ?_⟩
    rw [htree, hbits]
    exact walkResult_of_walkLoop_error he

end Sys2Proof.Machine

/-! ENCODE and DECODE (45_codec.md R114-R116): what each leaves when it succeeds, and that DECODE of
what ENCODE produced is the text. -/

namespace Sys2Proof.Machine

/-! ### The codes of a text's own table -/

theorem countSymbols_wf {s : State} {syms : List Symbol} (hne : syms ≠ []) (hsyms : AllScalar syms)
    (hinput : s.InputIs (utf8 syms)) (hk : syms.dedup.length ≤ s.params.kMax) :
    FreqTable.wf s.params (countSymbols syms) :=
  countResult_wf (countResult_of_inputIs hne hsyms hinput hk)

theorem keys_genCodes_buildTree {p : Params} {f : FreqTable} (hf : FreqTable.wf p f)
    (hne : f ≠ []) : keys (genCodes (buildTree f)) = keys f := by
  obtain ⟨htree, -, hkeys, -⟩ := builtTreeIsHuffmanTree p f hf hne
  rw [keys_genCodes htree, hkeys]

theorem exists_codesOf {c : CodeTable} {syms : List Symbol} (h : ∀ k ∈ syms, k ∈ keys c) :
    ∃ b, codesOf c syms = some b := by
  induction syms with
  | nil => exact ⟨[], rfl⟩
  | cons k syms ih =>
    obtain ⟨hk, hsyms⟩ := List.forall_mem_cons.1 h
    obtain ⟨bs, hbs⟩ := ih hsyms
    obtain ⟨e, he, hek⟩ := List.mem_map.1 hk
    have hsome : (c.lookup k).isSome = true :=
      List.lookup_isSome_iff.2 ⟨e, he, beq_iff_eq.2 hek.symm⟩
    obtain ⟨code, hcode⟩ := Option.isSome_iff_exists.1 hsome
    exact ⟨_, codesOf_cons hcode hbs⟩

theorem weightAt_root_buildTree {f : FreqTable} (hne : f ≠ []) :
    weightAt (buildTree f).nodes (buildTree f).root = FreqTable.total f := by
  obtain ⟨r, hinv⟩ := loopInv_buildTree hne
  exact hinv.tree_weight

theorem countSymbols_representable {syms : List Symbol} (hcolon : colonSym ∉ syms)
    (hnewline : newlineSym ∉ syms) :
    ∀ e ∈ countSymbols syms, e.1 ≠ colonSym ∧ e.1 ≠ newlineSym := by
  rintro ⟨c, n⟩ he
  obtain ⟨hc, -⟩ := mem_countSymbols.1 he
  exact ⟨ne_of_mem_of_not_mem hc hcolon, ne_of_mem_of_not_mem hc hnewline⟩

/-! ### ENCODE (R114) -/

theorem length_le_length_containerBytes (f : FreqTable) (P : List Byte) :
    P.length ≤ (containerBytes f P).length := by
  rw [containerBytes, List.length_append, List.length_cons]
  omega

/-- Settles O38: every symbol of the text has a code, and SERIALIZE succeeds on the state the five
stages before it leave. -/
theorem encodeResult : Obligations.EncodeResult := by
  unfold Obligations.EncodeResult
  rintro s syms f c hne hsyms hcolon hnewline hinput hk rfl rfl hmax
  have hwf := countSymbols_wf hne hsyms hinput hk
  obtain ⟨b, hb⟩ : ∃ b, codesOf (genCodes (buildTree (countSymbols syms))) syms = some b :=
    exists_codesOf fun k hmem => by
      rwa [keys_genCodes_buildTree hwf (countSymbols_ne_nil hne), keys_countSymbols,
        mem_distinctSymbols]
  refine ⟨b, hb, fun hbits hout => ?_⟩
  have hpack := (length_le_length_containerBytes (countSymbols syms) (pack b)).trans hout
  rw [exec_encode_eq_serialize hne hsyms hinput hk hmax hb hbits hpack]
  have hserialize := serialize_of_representable s.params (pack b)
    (countSymbols_representable hcolon hnewline)
  exact exec_serialize_of_ok (hserialize.trans (if_neg (Nat.not_lt_of_le hout)))

/-! ### What a successful ENCODE has found (R114) -/

section StagesOk

variable {s u : State}

theorem stageCount_eq_ok :
    stageCount s = .ok u ↔ ∃ f, countResult s = .ok f ∧ u = { s with freq := some f } := by
  unfold stageCount
  cases countResult s <;> simp [eq_comm]

theorem stageBuild_eq_ok :
    stageBuild s = .ok u ↔ ∃ t, buildResult s.freq = .ok t ∧ u = { s with tree := some t } := by
  unfold stageBuild
  cases buildResult s.freq <;> simp [eq_comm]

theorem stageGencode_eq_ok :
    stageGencode s = .ok u ↔
      ∃ c, gencodeResult s.params s.tree = .ok c ∧ u = { s with codes := some c } := by
  unfold stageGencode
  cases gencodeResult s.params s.tree <;> simp [eq_comm]

theorem stageMap_eq_ok :
    stageMap s = .ok u ↔ ∃ b, mapResult s = .ok b ∧ u = { s with bits := some b } := by
  unfold stageMap
  cases mapResult s <;> simp [eq_comm]

theorem stagePack_eq_ok :
    stagePack s = .ok u ↔ ∃ P pad, packResult s.params s.bits = .ok (P, pad) ∧
      u = { s with
        outMem := Memory.ofBytes P
        payload := some P
        csr := { s.csr with
          outLen := BitVec.ofNat 32 P.length
          padBits := BitVec.ofNat 32 pad } } := by
  unfold stagePack
  rcases packResult s.params s.bits with e | ⟨P, pad⟩ <;> simp [eq_comm, State.memWriteOut]

theorem stageSerialize_eq_ok :
    stageSerialize s = .ok u ↔
      ∃ B, serializeResult s.params s.freq s.payload = .ok B ∧ u = s.memWriteOut B := by
  unfold stageSerialize
  cases serializeResult s.params s.freq s.payload <;> simp [eq_comm]

end StagesOk

theorem utf8_injective {syms syms' : List Symbol} (h : AllScalar syms) (h' : AllScalar syms')
    (heq : utf8 syms = utf8 syms') : syms = syms' := by
  have hdec := utf8Dec_utf8 h
  rw [heq, utf8Dec_utf8 h'] at hdec
  exact (Option.some.inj hdec).symm

theorem buildResult_eq_ok {f : FreqTable} {t : Tree} (h : buildResult (some f) = .ok t) :
    t = buildTree f := by
  simp only [buildResult] at h
  split_ifs at h
  exact (Except.ok.inj h).symm

theorem gencodeResult_eq_ok {p : Params} {t : Tree} {c : CodeTable}
    (h : gencodeResult p (some t) = .ok c) : c = genCodes t := by
  simp only [gencodeResult] at h
  split_ifs at h
  exact (Except.ok.inj h).symm

theorem mapResult_eq_ok {s : State} {c : CodeTable} {syms : List Symbol} {b : Bits}
    (h : mapResult s = .ok b) (hc : s.codes = some c) (hsyms : AllScalar syms)
    (hinput : s.InputIs (utf8 syms)) : codesOf c syms = some b := by
  simp only [mapResult_eq_mapSymbols hc hinput, mapSymbols, utf8Dec_utf8 hsyms] at h
  obtain ⟨bs, hbs, rfl⟩ := mapLoop_eq_ok h
  exact hbs

theorem serializeResult_eq_ok {p : Params} {f : FreqTable} {P B : List Byte}
    (h : serializeResult p (some f) (some P) = .ok B) : B = containerBytes f P := by
  simp only [serializeResult, serialize] at h
  split_ifs at h
  exact (Except.ok.inj h).symm

/-- The results of ENCODE's stages, each on those of the stages before it. -/
theorem runStages_encode_eq_ok {s u : State}
    (h : runStages ((stagesOf .encode).map stageOf) s = .ok u) :
    ∃ f t c b P pad B, countResult s = .ok f ∧ buildResult (some f) = .ok t ∧
      gencodeResult s.params (some t) = .ok c ∧ mapResult { s with codes := some c } = .ok b ∧
      packResult s.params (some b) = .ok (P, pad) ∧
      serializeResult s.params (some f) (some P) = .ok B ∧
      u.outMem = Memory.ofBytes B ∧ u.csr.padBits = BitVec.ofNat 32 pad := by
  simp only [stagesOf, List.map_cons, stageOf, runStages_cons_eq_ok, stageCount_eq_ok,
    stageBuild_eq_ok, stageGencode_eq_ok, stageMap_eq_ok, stagePack_eq_ok,
    stageSerialize_eq_ok] at h
  obtain ⟨_, ⟨f, hf, rfl⟩, _, ⟨t, ht, rfl⟩, _, ⟨c, hc, rfl⟩, _, ⟨b, hb, rfl⟩,
    _, ⟨P, pad, hP, rfl⟩, _, ⟨B, hB, rfl⟩, hend⟩ := h
  cases hend
  exact ⟨f, t, c, b, P, pad, B, hf, ht, hc, hb, hP, hB, rfl, rfl⟩

/-- A successful ENCODE of a text has taken its table, the codes of the tree built from it, and the
text's bits within BITS_CAP; it leaves the container of the table and the packed bits. -/
theorem exec_encode_done {s t : State} {syms : List Symbol} (hsyms : AllScalar syms)
    (hinput : s.InputIs (utf8 syms)) (hs : s.FlagsClear) (h : exec .encode s = .next t)
    (hdone : t.csr.status.done = true) :
    FreqTable.wf s.params (countSymbols syms) ∧
    ∃ b, codesOf (genCodes (buildTree (countSymbols syms))) syms = some b ∧
      b.length ≤ s.params.bitsCap ∧
      t.outBytes = containerBytes (countSymbols syms) (pack b) ∧
      t.csr.padBits = BitVec.ofNat 32 (8 * (pack b).length - b.length) := by
  obtain ⟨u, hu, rfl⟩ := exec_done hs (by decide) h hdone
  obtain ⟨f, tree, c, b, P, pad, B, hf, htree, hc, hb, hP, hB, hout, hpad⟩ :=
    runStages_encode_eq_ok hu
  have hwf := countResult_wf hf
  obtain ⟨syms', hsyms', hinput', -, rfl⟩ := countResult_eq_ok hf
  obtain rfl := utf8_injective hsyms hsyms' (hinput.2.symm.trans hinput'.2)
  obtain rfl := buildResult_eq_ok htree
  obtain rfl := gencodeResult_eq_ok hc
  obtain ⟨_, hbits, rfl, rfl, -⟩ := packResult_ok hP
  obtain rfl := Option.some.inj hbits
  obtain rfl := serializeResult_eq_ok hB
  have hcodes := mapResult_eq_ok hb rfl hsyms hinput
  have hlen := mapResult_length hb
  exact ⟨hwf, b, hcodes, hlen,
    (congrArg Memory.bytes hout).trans (Memory.bytes_ofBytes _), hpad⟩

/-! ### DECODE (R115) -/

theorem stageDeserialize_of_ok {s : State} {f : FreqTable} {P : List Byte}
    (h : deserializeResult s = .ok (f, P)) :
    stageDeserialize s = .ok { s with freq := some f, payload := some P } := by
  rw [stageDeserialize, h]

theorem stageUnpack_of_ok {s : State} {b : Bits} (h : unpackResult s.params s.payload = .ok b) :
    stageUnpack s = .ok { s with bits := some b } := by rw [stageUnpack, h]

theorem unpackResult_of_le {p : Params} {P : List Byte} (h : 8 * P.length ≤ p.bitsCap) :
    unpackResult p (some P) = .ok (unpack P) :=
  if_neg (Nat.not_lt_of_le h)

/-- Settles O39: the four stages, each on the stores of those before it. -/
theorem decodeResult : Obligations.DecodeResult := by
  unfold Obligations.DecodeResult
  intro s B P out f pos hinput hparse hne hcap hwalk
  have hresult := walkResult_of_walkDecode hwalk
  rw [length_unpack] at hresult
  refine congrArg (fun r => Host.Outcome.next (StageResult.complete r))
    (a₂ := StageResult.ok _) ?_
  rw [decodeStages]
  refine (runStages_cons_ok (stageDeserialize_of_ok
    ((deserializeResult_of_inputIs hinput).trans hparse))).trans ?_
  refine (runStages_cons_ok (stageBuild_of_ok (buildResult_of_ne_nil hne))).trans ?_
  refine (runStages_cons_ok (stageUnpack_of_ok (unpackResult_of_le hcap))).trans ?_
  exact (runStages_singleton _ _).trans (stageWalk_of_ok hresult)

/-! ### DECODE of ENCODE (R116) -/

/-- Bits within BITS_CAP, a whole number of bytes (R6), are so with their pad bits. -/
theorem eight_mul_length_pack_le {p : Params} {b : Bits} (hp : p.wf) (hb : b.length ≤ p.bitsCap) :
    8 * (pack b).length ≤ p.bitsCap := by
  obtain ⟨-, -, -, -, ⟨-, -, hmod⟩, -⟩ := hp
  rw [length_pack]
  omega

/-- Settles O42: the container reads back to the table and the payload, which unpacks to the text's
codes and the pad bits; the tree, built from the same table, weighs the text's length. -/
theorem decodeOfEncodeIsTheText : Obligations.DecodeOfEncodeIsTheText := by
  unfold Obligations.DecodeOfEncodeIsTheText
  intro s t u syms hp hne hsyms hcolon hnewline hinput hs hencode hdone hparams hu _ hinput' hcap
  obtain ⟨hwf, b, hb, hbits, hout, hpad⟩ := exec_encode_done hsyms hinput hs hencode hdone
  have hf := countSymbols_ne_nil hne
  have hparse : deserialize u.params t.outBytes = .ok (countSymbols syms, pack b) := by
    rw [hparams, hout]
    exact deserialize_containerBytes (List.Perm.refl _) hwf
      (countSymbols_representable hcolon hnewline) _
  have hwalk : walkDecode u.params (buildTree (countSymbols syms)) (unpack (pack b))
      = .ok (utf8 syms, b.length) := by
    rw [hparams, unpack_pack]
    exact walkDecode_of_codesOf (buildTree_wf hwf hf)
      ((weightAt_root_buildTree hf).trans (total_countSymbols syms)) hb hcap _
  have hpacked : 8 * (pack b).length ≤ u.params.bitsCap := by
    rw [hparams]
    exact eight_mul_length_pack_le hp hbits
  have hlen : (utf8 syms).length ≤ 2 ^ 32 - 1 := by
    obtain ⟨-, -, ⟨-, hout⟩, -⟩ := hp
    omega
  exact ⟨_, decodeResult u _ _ _ _ _ hinput' hparse hf hpacked hwalk, ⟨rfl, rfl, rfl, hu.2.1⟩,
    Memory.bytes_ofBytes _, toNat_ofNat_of_le hlen, hpad.symm⟩

end Sys2Proof.Machine

/-! What ENCODE and DECODE depend on (40_command_model.md R83, 45_codec.md R118): two runs on the
same input agree in every store and result they have written so far, stage by stage. -/

namespace Sys2Proof.Machine

/-! ### Agreement of two states -/

/-- The two states hold the same input, and the same in every store and result that one of the
stages `done` writes (R70). -/
structure Agree (done : List Instr) (s t : State) : Prop where
  input : SameInput s t
  freq : (∃ j ∈ [Instr.count, .deserialize], j ∈ done) → s.freq = t.freq
  tree : (∃ j ∈ [Instr.build], j ∈ done) → s.tree = t.tree
  codes : (∃ j ∈ [Instr.gencode], j ∈ done) → s.codes = t.codes
  bits : (∃ j ∈ [Instr.map, .unpack], j ∈ done) → s.bits = t.bits
  payload : (∃ j ∈ [Instr.pack, .deserialize], j ∈ done) → s.payload = t.payload
  output : (∃ j ∈ [Instr.pack, .serialize, .walk], j ∈ done) →
    s.outMem = t.outMem ∧ s.csr.outLen = t.csr.outLen
  padBits : (∃ j ∈ [Instr.pack], j ∈ done) → s.csr.padBits = t.csr.padBits
  trailBits : (∃ j ∈ [Instr.walk], j ∈ done) → s.csr.trailBits = t.csr.trailBits

theorem agree_nil {s t : State} (h : SameInput s t) : Agree [] s t := by
  constructor
  case input => exact h
  all_goals exact fun ⟨_, _, hnil⟩ => absurd hnil List.not_mem_nil

/-- A part of the state that only the stages `writers` write agrees after stage `j` as it did
before, or because `j` has just written it. -/
theorem agree_part {α : Type} {part : State → α} {writers done : List Instr} {j : Instr}
    {s t u v : State} (hu : j ∉ writers → part u = part s) (hv : j ∉ writers → part v = part t)
    (hdone : (∃ k ∈ writers, k ∈ done) → part s = part t)
    (hj : (∃ k ∈ writers, k ∈ [j]) → part u = part v) :
    (∃ k ∈ writers, k ∈ j :: done) → part u = part v := by
  rintro ⟨k, hk, hmem⟩
  by_cases hw : j ∈ writers
  · exact hj ⟨j, hw, List.mem_singleton_self j⟩
  · rcases List.mem_cons.1 hmem with rfl | hmem
    · exact absurd hk hw
    · rw [hu hw, hv hw, hdone ⟨k, hk, hmem⟩]

/-- What the stages before have written stays the same when a stage writes the same to both. -/
theorem Agree.cons {done : List Instr} {j : Instr} {s t u v : State} (h : Agree done s t)
    (hu : StageFrame j s u) (hv : StageFrame j t v) (hj : Agree [j] u v) :
    Agree (j :: done) u v where
  input := hj.input
  freq := agree_part (part := State.freq) hu.freq hv.freq h.freq hj.freq
  tree := agree_part (part := State.tree) hu.tree hv.tree h.tree hj.tree
  codes := agree_part (part := State.codes) hu.codes hv.codes h.codes hj.codes
  bits := agree_part (part := State.bits) hu.bits hv.bits h.bits hj.bits
  payload := agree_part (part := State.payload) hu.payload hv.payload h.payload hj.payload
  output hk := Prod.mk.inj (agree_part (part := fun w => (w.outMem, w.csr.outLen))
    (fun hw => Prod.ext_iff.2 (hu.output hw)) (fun hw => Prod.ext_iff.2 (hv.output hw))
    (fun hd => Prod.ext_iff.2 (h.output hd)) (fun hd => Prod.ext_iff.2 (hj.output hd)) hk)
  padBits := agree_part (part := (·.csr.padBits)) hu.padBits hv.padBits h.padBits hj.padBits
  trailBits := agree_part (part := (·.csr.trailBits)) hu.trailBits hv.trailBits h.trailBits
    hj.trailBits

/-! ### One stage on two states -/

/-- For each store a stage reads (R70), the stages that write it. -/
def operandWriters : Instr → List (List Instr)
  | .build => [[.count, .deserialize]]
  | .gencode => [[.build]]
  | .map => [[.gencode]]
  | .pack => [[.map, .unpack]]
  | .serialize => [[.count, .deserialize], [.pack, .deserialize]]
  | .unpack => [[.pack, .deserialize]]
  | .walk => [[.build], [.map, .unpack]]
  | .count | .deserialize | .nop | .encode | .decode | .query | .clear => []

/-- The two results succeed with states that agree in what `done` writes, or fail alike. -/
inductive SameResult (done : List Instr) : StageResult → StageResult → Prop
  | ok {u v : State} (h : Agree done u v) : SameResult done (.ok u) (.ok v)
  | fail (e : ErrCode) (b : Byte) (u v : State) : SameResult done (.fail e b u) (.fail e b v)

theorem SameInput.input_eq {s t : State} (h : SameInput s t) : s.input = t.input := by
  obtain ⟨hparams, hlen, hbytes⟩ := h
  unfold State.input
  rw [hparams, hlen]
  split_ifs with hcap
  · rfl
  · refine congrArg Except.ok (List.map_congr_left fun k hk => hbytes _ ?_)
    rw [hlen, hparams]
    have hlt := List.mem_range.1 hk
    omega

/-- A stage that reads only what the states agree in does the same to both. -/
theorem stageOf_sameResult {done : List Instr} {s t : State} (h : Agree done s t) (j : Instr)
    (hreads : ∀ writers ∈ operandWriters j, ∃ k ∈ writers, k ∈ done) :
    SameResult [j] (stageOf j s) (stageOf j t) := by
  have hinput := h.input.input_eq
  obtain ⟨hparams, -⟩ := h.input
  cases j
  case' count =>
    have hresult : countResult s = countResult t := by
      rw [countResult, hinput, hparams, countResult]
    simp only [stageOf, stageCount, hresult]
  case' build => simp only [stageOf, stageBuild, h.freq (hreads _ (by decide))]
  case' gencode =>
    have hresult : gencodeResult s.params s.tree = gencodeResult t.params t.tree := by
      rw [hparams, h.tree (hreads _ (by decide))]
    simp only [stageOf, stageGencode, hresult]
  case' map =>
    have hresult : mapResult s = mapResult t := by
      rw [mapResult, h.codes (hreads _ (by decide)), hinput, hparams, mapResult]
    simp only [stageOf, stageMap, hresult]
  case' pack => simp only [stageOf, stagePack, hparams, h.bits (hreads _ (by decide))]
  case' serialize =>
    simp only [stageOf, stageSerialize, hparams, h.freq (hreads _ (by decide)),
      h.payload (hreads _ (by decide))]
  case' deserialize =>
    have hresult : deserializeResult s = deserializeResult t := by
      rw [deserializeResult, hinput, hparams, deserializeResult]
    simp only [stageOf, stageDeserialize, hresult]
  case' unpack =>
    have hresult : unpackResult s.params s.payload = unpackResult t.params t.payload := by
      rw [hparams, h.payload (hreads _ (by decide))]
    simp only [stageOf, stageUnpack, hresult]
  case' walk =>
    simp only [stageOf, stageWalk, hparams, h.tree (hreads _ (by decide)),
      h.bits (hreads _ (by decide))]
  case nop | encode | decode | query | clear =>
    refine .ok ?_
    constructor
    case input => exact h.input
    all_goals simp
  all_goals
    split
    · refine .ok ?_
      constructor
      case input => exact h.input
      all_goals simp [State.memWriteOut]
    · exact .fail ..

/-! ### The stages of a command on two states -/

/-- Every store a stage of `js` reads is written by a stage before it, or by one of `done`. -/
def readsOnlyWritten : List Instr → List Instr → Bool
  | _, [] => true
  | done, j :: js =>
    (operandWriters j).all (fun writers => writers.any fun k => done.contains k) &&
      readsOnlyWritten (j :: done) js

theorem readsOnlyWritten_cons {done js : List Instr} {j : Instr} :
    readsOnlyWritten done (j :: js) = true ↔
      (∀ writers ∈ operandWriters j, ∃ k ∈ writers, k ∈ done) ∧
        readsOnlyWritten (j :: done) js = true := by
  simp [readsOnlyWritten]

theorem runStages_sameResult {done js : List Instr} {s t : State} (h : Agree done s t)
    (hjs : readsOnlyWritten done js = true) :
    SameResult (js.reverse ++ done) (runStages (js.map stageOf) s)
      (runStages (js.map stageOf) t) := by
  induction js generalizing done s t with
  | nil => exact .ok h
  | cons j js ih =>
    obtain ⟨hreads, hjs⟩ := readsOnlyWritten_cons.1 hjs
    have hstage := stageOf_sameResult h j hreads
    rw [List.map_cons, List.reverse_cons, List.append_assoc, List.singleton_append]
    generalize hs : stageOf j s = r, ht : stageOf j t = r' at hstage
    cases hstage with
    | ok hj =>
      rw [runStages_cons_ok hs, runStages_cons_ok ht]
      exact ih (h.cons (StageFrame.of_ok hs) (StageFrame.of_ok ht) hj) hjs
    | fail e b u v =>
      rw [runStages_cons_fail hs, runStages_cons_fail ht]
      exact .fail ..

/-- ENCODE and DECODE read no store that they have not written. -/
theorem readsOnlyWritten_stagesOf {i : Instr} (hi : i = .encode ∨ i = .decode) :
    readsOnlyWritten [] (stagesOf i) = true := by
  rcases hi with rfl | rfl <;> decide

/-- The stores both codec commands write, and the output, by their writers (R70, R81). -/
theorem mem_stagesOf_codec {i : Instr} (hi : i = .encode ∨ i = .decode) :
    ∀ writers ∈ [[Instr.count, .deserialize], [.build], [.map, .unpack], [.pack, .deserialize],
      [.pack, .serialize, .walk]], ∃ j ∈ writers, j ∈ (stagesOf i).reverse ++ [] := by
  rcases hi with rfl | rfl <;> decide

/-- Settles O43: the stages give the same results to two states of the same input; a codec command
that succeeds leaves what its stages wrote, one that fails the error and no output. -/
theorem codecDependsOnTheInputOnly : Obligations.CodecDependsOnTheInputOnly := by
  unfold Obligations.CodecDependsOnTheInputOnly
  intro i s₁ s₂ t₁ t₂ hi hinput hs₁ hs₂ h₁ h₂
  have hstages : stagesOf i ≠ [] := by rcases hi with rfl | rfl <;> decide
  have hresult := runStages_sameResult (agree_nil hinput) (readsOnlyWritten_stagesOf hi)
  have hflags₁ := runStages_flagsClear (stagesOf i) hs₁
  have hflags₂ := runStages_flagsClear (stagesOf i) hs₂
  rw [exec_eq_runStages hstages] at h₁ h₂
  cases h₁
  cases h₂
  generalize runStages ((stagesOf i).map stageOf) s₁ = r₁,
    runStages ((stagesOf i).map stageOf) s₂ = r₂ at hresult hflags₁ hflags₂ ⊢
  obtain ⟨hdone₁, herr₁, hreg₁⟩ := hflags₁
  obtain ⟨hdone₂, herr₂, hreg₂⟩ := hflags₂
  cases hresult with
  | ok h =>
    have hwrites := mem_stagesOf_codec hi
    obtain ⟨hmem, hlen⟩ := h.output (hwrites _ (by decide))
    refine ⟨rfl, herr₁.trans herr₂.symm, hreg₁.trans hreg₂.symm, hlen, congrArg Memory.bytes hmem,
      fun _ => ⟨h.freq (hwrites _ (by decide)), h.tree (hwrites _ (by decide)),
        h.bits (hwrites _ (by decide)), h.payload (hwrites _ (by decide)), ?_, ?_⟩⟩
    · rintro rfl
      exact ⟨h.codes (by decide), h.padBits (by decide)⟩
    · rintro rfl
      exact h.trailBits (by decide)
  | fail e b u v =>
    exact ⟨hdone₁.trans hdone₂.symm, rfl, rfl, rfl, rfl,
      fun hdone => nomatch hdone₁.symm.trans hdone⟩

end Sys2Proof.Machine

/-! The control commands (46_control.md R121-R123): QUERY's three results by the entries it finds, and
what is left to the stage commands after CLEAR. -/

namespace Sys2Proof.Machine

/-! ### QUERY (R34-R36, R123) -/

@[simp] theorem State.queried_csr_qfreq (s : State) :
    s.queried.csr.qfreq = BitVec.ofNat 32 (s.queryFreq.getD 0) := rfl

@[simp] theorem State.queried_csr_qcodeLen (s : State) :
    s.queried.csr.qcodeLen = BitVec.ofNat 32 ((s.queryCode.map List.length).getD 0) := rfl

@[simp] theorem State.queried_csr_qcode (s : State) :
    s.queried.csr.qcode = BitVec.ofNat 32
      ((s.queryCode.map fun b => chunkAt b (32 * s.csr.qword.toNat) 32).getD 0) := rfl

/-- QUERY writes its three results and nothing else before it completes. -/
theorem exec_query (s : State) :
    exec .query s = .next
      { s with csr := { s.csr with
          qfreq := s.queried.csr.qfreq
          qcodeLen := s.queried.csr.qcodeLen
          qcode := s.queried.csr.qcode } }.completeOk := rfl

/-- A chunk as a word of its own width has its first bit at the top. -/
theorem getLsbD_ofNat_chunkAt (b : Bits) (start : Nat) {n k : Nat} (hk : k < n) :
    (BitVec.ofNat n (chunkAt b start n)).getLsbD (n - 1 - k) = b.getD (start + k) false := by
  rw [BitVec.getLsbD_ofNat, testBit_chunkAt b start hk, decide_eq_true (by omega), Bool.true_and]

/-- Settles O44: QSYM has an entry in a store or has none, the store being invalid or without it; the
bits of QCODE are those of the code's chunk. -/
theorem queryResult : Obligations.QueryResult := by
  unfold Obligations.QueryResult
  intro s
  refine ⟨_, _, _, exec_query s, fun f n hf hn => ?_, fun hnone => ?_, fun c b hc hb => ?_,
    fun hnone => ?_⟩
  · have hentry : s.queryFreq = some n := Option.bind_eq_some_iff.2 ⟨f, hf, hn⟩
    simp [hentry]
  · have hentry : s.queryFreq = none := Option.bind_eq_none_iff.2 hnone
    simp [hentry]
  · have hentry : s.queryCode = some b := Option.bind_eq_some_iff.2 ⟨c, hc, hb⟩
    refine ⟨by simp [hentry], fun i => ?_⟩
    rw [State.queried_csr_qcode, hentry]
    exact getLsbD_ofNat_chunkAt b _ i.isLt
  · have hentry : s.queryCode = none := Option.bind_eq_none_iff.2 hnone
    simp [hentry]

/-! ### NOP and CLEAR (R121, R122) -/

/-- R79, R122: after CLEAR each stage that needs a store finds it invalid. -/
theorem exec_cleared_is_sequence (s : State) :
    ∀ i ∈ [Instr.build, .gencode, .map, .pack, .serialize, .unpack, .walk],
      ∃ u, exec i s.cleared.completeOk = .next u ∧ u.csr.err = ⟨.sequence, i.opcode⟩ := by
  simp only [List.forall_mem_cons, List.not_mem_nil, false_imp_iff, implies_true, and_true]
  exact ⟨⟨_, exec_build_of_error rfl, rfl⟩, ⟨_, exec_gencode_of_error rfl, rfl⟩,
    ⟨_, exec_map_of_error rfl, rfl⟩, ⟨_, exec_pack_of_error rfl, rfl⟩,
    ⟨_, exec_serialize_of_error rfl, rfl⟩, ⟨_, exec_unpack_of_error rfl, rfl⟩,
    ⟨_, exec_walk_of_error rfl, rfl⟩⟩

/-- Settles O45: the two commands by their definitions, and the stages on the stores CLEAR leaves. -/
theorem nopAndClearResults : Obligations.NopAndClearResults := by
  unfold Obligations.NopAndClearResults
  exact fun s => ⟨rfl, s.cleared.completeOk, rfl, rfl, exec_cleared_is_sequence s⟩

end Sys2Proof.Machine

/-! The error SEQUENCE (60_exceptions.md R132): the errors a stage raises when the stores it needs are
valid, and that ENCODE and DECODE write each store before a stage reads it (R83). -/

namespace Sys2Proof.Machine

/-! ### The errors a stage raises on valid stores -/

section StageErrors

variable {s : State} {p : Params} {e : ErrCode}

theorem State.input_eq_error (h : s.input = .error e) : e = .capacity := by
  unfold State.input at h
  split_ifs at h
  cases h
  rfl

theorem countResult_eq_error (h : countResult s = .error e) :
    e ∈ [ErrCode.capacity, .invalidText, .emptyInput] := by
  unfold countResult countFreq at h
  split at h
  next hinput =>
    obtain rfl := State.input_eq_error hinput
    cases h
    decide
  split at h
  · cases h
    decide
  · split_ifs at h <;> cases h <;> decide

theorem buildResult_some_eq_error {f : FreqTable} (h : buildResult (some f) = .error e) :
    e = .emptyInput := by
  simp only [buildResult] at h
  split_ifs at h
  cases h
  rfl

theorem gencodeResult_some_eq_error {t : Tree} (h : gencodeResult p (some t) = .error e) :
    e = .capacity := by
  simp only [gencodeResult] at h
  split_ifs at h
  cases h
  rfl

theorem mapLoop_eq_error {c : CodeTable} {syms : List Symbol} {b : Bits}
    (h : mapLoop p c syms b = .error e) : e ∈ [ErrCode.noCode, .capacity] := by
  induction syms generalizing b with
  | nil => cases h
  | cons k syms ih =>
    unfold mapLoop at h
    split at h
    · cases h
      decide
    · split_ifs at h
      · cases h
        decide
      · exact ih h

theorem mapResult_eq_error {c : CodeTable} (hc : s.codes = some c) (h : mapResult s = .error e) :
    e ∈ [ErrCode.invalidText, .noCode, .capacity] := by
  simp only [mapResult, hc, mapSymbols] at h
  split at h
  next hinput =>
    obtain rfl := State.input_eq_error hinput
    cases h
    decide
  split at h
  · cases h
    decide
  · exact List.mem_cons_of_mem _ (mapLoop_eq_error h)

theorem packResult_some_eq_error {b : Bits} (h : packResult p (some b) = .error e) :
    e = .capacity := by
  simp only [packResult] at h
  split_ifs at h
  cases h
  rfl

theorem serializeResult_some_eq_error {f : FreqTable} {P : List Byte}
    (h : serializeResult p (some f) (some P) = .error e) :
    e ∈ [ErrCode.unrepresentableSymbol, .capacity] := by
  simp only [serializeResult, serialize] at h
  split_ifs at h <;> cases h <;> decide

theorem parseField_eq_error {fd : List Symbol} (h : parseField fd = .error e) :
    e ∈ [ErrCode.corruptContainer, .unrepresentableSymbol, .capacity] := by
  unfold parseField at h
  dsimp only at h
  split_ifs at h
  · cases h
    decide
  · cases h
    decide
  split at h
  · cases h
    decide
  · split at h <;> cases h <;> decide

theorem addFields_eq_error {fds : List (List Symbol)} {f : FreqTable} {total : Nat}
    (h : addFields p fds f total = .error e) :
    e ∈ [ErrCode.corruptContainer, .unrepresentableSymbol, .capacity] := by
  induction fds generalizing f total with
  | nil => cases h
  | cons fd fds ih =>
    unfold addFields at h
    split at h
    next hfield =>
      cases h
      exact parseField_eq_error hfield
    split_ifs at h
    · cases h
      decide
    · cases h
      decide
    · cases h
      decide
    · exact ih h

theorem parseFreqText_eq_error {syms : List Symbol} (h : parseFreqText p syms = .error e) :
    e ∈ [ErrCode.corruptContainer, .unrepresentableSymbol, .capacity] := by
  unfold parseFreqText at h
  split_ifs at h
  exact addFields_eq_error h

theorem deserializeResult_eq_error (h : deserializeResult s = .error e) :
    e ∈ [ErrCode.corruptContainer, .unrepresentableSymbol, .capacity] := by
  unfold deserializeResult deserialize at h
  split at h
  next hinput =>
    obtain rfl := State.input_eq_error hinput
    cases h
    decide
  split at h
  · cases h
    decide
  split at h
  · cases h
    decide
  split at h
  next hparse =>
    cases h
    exact parseFreqText_eq_error hparse
  · cases h

theorem unpackResult_some_eq_error {P : List Byte} (h : unpackResult p (some P) = .error e) :
    e = .capacity := by
  simp only [unpackResult] at h
  split_ifs at h
  cases h
  rfl

theorem walkLoop_eq_error {t : Tree} {n : Nat} {b : Bits} {out : List Byte}
    (h : walkLoop p t n b out = .error e) : e ∈ [ErrCode.corruptContainer, .capacity] := by
  induction n generalizing b out with
  | zero => cases h
  | succ n ih =>
    unfold walkLoop at h
    split at h
    · cases h
      decide
    · split_ifs at h
      · cases h
        decide
      · exact ih h

theorem walkResult_some_eq_error {t : Tree} {b : Bits}
    (h : walkResult p (some t) (some b) = .error e) :
    e ∈ [ErrCode.corruptContainer, .capacity] := by
  simp only [walkResult, walkDecode] at h
  split at h
  next hwalk =>
    split at hwalk
    next hloop =>
      cases h
      cases hwalk
      exact walkLoop_eq_error hloop
    · cases hwalk
  · cases h

end StageErrors

/-! ### The stores that stages before have written are valid (R83) -/

/-- Every store that one of the stages `done` writes (R70) is valid. -/
structure Written (done : List Instr) (s : State) : Prop where
  freq : (∃ j ∈ [Instr.count, .deserialize], j ∈ done) → ∃ f, s.freq = some f
  tree : (∃ j ∈ [Instr.build], j ∈ done) → ∃ t, s.tree = some t
  codes : (∃ j ∈ [Instr.gencode], j ∈ done) → ∃ c, s.codes = some c
  bits : (∃ j ∈ [Instr.map, .unpack], j ∈ done) → ∃ b, s.bits = some b
  payload : (∃ j ∈ [Instr.pack, .deserialize], j ∈ done) → ∃ P, s.payload = some P

theorem written_nil (s : State) : Written [] s := by
  constructor <;> exact fun ⟨_, _, hnil⟩ => absurd hnil List.not_mem_nil

/-- A stage that succeeds leaves the stores it writes valid. -/
theorem written_of_stageOf_ok {j : Instr} {s u : State} (h : stageOf j s = .ok u) :
    Written [j] u := by
  cases j
  case serialize | walk | nop | encode | decode | query | clear => constructor <;> simp
  case' count => obtain ⟨_, -, hj⟩ | ⟨_, -, hj⟩ := stageCount_cases s
  case' build => obtain ⟨_, -, hj⟩ | ⟨_, -, hj⟩ := stageBuild_cases s
  case' gencode => obtain ⟨_, -, hj⟩ | ⟨_, -, hj⟩ := stageGencode_cases s
  case' map => obtain ⟨_, -, hj⟩ | ⟨_, -, hj⟩ := stageMap_cases s
  case' pack => obtain ⟨_, _, -, hj⟩ | ⟨_, -, hj⟩ := stagePack_cases s
  case' deserialize => obtain ⟨_, _, -, hj⟩ | ⟨_, -, hj⟩ := stageDeserialize_cases s
  case' unpack => obtain ⟨_, -, hj⟩ | ⟨_, -, hj⟩ := stageUnpack_cases s
  all_goals
    rw [stageOf, hj] at h
    cases h
  all_goals constructor <;> simp

/-- A store that a stage does not write is as valid after it as before. -/
theorem written_store {α : Type} {store : State → Option α} {writers done : List Instr} {j : Instr}
    {s u : State} (hframe : j ∉ writers → store u = store s)
    (hdone : (∃ k ∈ writers, k ∈ done) → ∃ x, store s = some x)
    (hj : (∃ k ∈ writers, k ∈ [j]) → ∃ x, store u = some x) :
    (∃ k ∈ writers, k ∈ j :: done) → ∃ x, store u = some x := by
  rintro ⟨k, hk, hmem⟩
  by_cases hw : j ∈ writers
  · exact hj ⟨j, hw, List.mem_singleton_self j⟩
  · rcases List.mem_cons.1 hmem with rfl | hmem
    · exact absurd hk hw
    · rw [hframe hw]
      exact hdone ⟨k, hk, hmem⟩

theorem Written.cons {done : List Instr} {j : Instr} {s u : State} (h : Written done s)
    (hok : stageOf j s = .ok u) : Written (j :: done) u where
  freq := written_store (StageFrame.of_ok hok).freq h.freq (written_of_stageOf_ok hok).freq
  tree := written_store (StageFrame.of_ok hok).tree h.tree (written_of_stageOf_ok hok).tree
  codes := written_store (StageFrame.of_ok hok).codes h.codes (written_of_stageOf_ok hok).codes
  bits := written_store (StageFrame.of_ok hok).bits h.bits (written_of_stageOf_ok hok).bits
  payload :=
    written_store (StageFrame.of_ok hok).payload h.payload (written_of_stageOf_ok hok).payload

/-- A stage that reads only valid stores does not fail with SEQUENCE. -/
theorem Written.stageOf_fail_ne_sequence {done : List Instr} {j : Instr} {s u : State} {e : ErrCode}
    {b : Byte} (h : Written done s) (hreads : ∀ writers ∈ operandWriters j, ∃ k ∈ writers, k ∈ done)
    (hfail : stageOf j s = .fail e b u) : e ≠ .sequence := by
  rintro rfl
  cases j
  case' count => obtain ⟨_, -, hj⟩ | ⟨_, he, hj⟩ := stageCount_cases s
  case' build => obtain ⟨_, -, hj⟩ | ⟨_, he, hj⟩ := stageBuild_cases s
  case' gencode => obtain ⟨_, -, hj⟩ | ⟨_, he, hj⟩ := stageGencode_cases s
  case' map => obtain ⟨_, -, hj⟩ | ⟨_, he, hj⟩ := stageMap_cases s
  case' pack => obtain ⟨_, _, -, hj⟩ | ⟨_, he, hj⟩ := stagePack_cases s
  case' serialize => obtain ⟨_, -, hj⟩ | ⟨_, he, hj⟩ := stageSerialize_cases s
  case' deserialize => obtain ⟨_, _, -, hj⟩ | ⟨_, he, hj⟩ := stageDeserialize_cases s
  case' unpack => obtain ⟨_, -, hj⟩ | ⟨_, he, hj⟩ := stageUnpack_cases s
  case' walk => obtain ⟨_, _, -, hj⟩ | ⟨_, he, hj⟩ := stageWalk_cases s
  case nop | encode | decode | query | clear => cases hfail
  all_goals
    rw [stageOf, hj] at hfail
    cases hfail
  case count => exact absurd (countResult_eq_error he) (by decide)
  case deserialize => exact absurd (deserializeResult_eq_error he) (by decide)
  case build =>
    obtain ⟨f, hf⟩ := h.freq (hreads _ (by decide))
    rw [hf] at he
    exact absurd (buildResult_some_eq_error he) (by decide)
  case gencode =>
    obtain ⟨t, ht⟩ := h.tree (hreads _ (by decide))
    rw [ht] at he
    exact absurd (gencodeResult_some_eq_error he) (by decide)
  case map =>
    obtain ⟨c, hc⟩ := h.codes (hreads _ (by decide))
    exact absurd (mapResult_eq_error hc he) (by decide)
  case pack =>
    obtain ⟨b, hb⟩ := h.bits (hreads _ (by decide))
    rw [hb] at he
    exact absurd (packResult_some_eq_error he) (by decide)
  case serialize =>
    obtain ⟨f, hf⟩ := h.freq (hreads _ (by decide))
    obtain ⟨P, hP⟩ := h.payload (hreads _ (by decide))
    rw [hf, hP] at he
    exact absurd (serializeResult_some_eq_error he) (by decide)
  case unpack =>
    obtain ⟨P, hP⟩ := h.payload (hreads _ (by decide))
    rw [hP] at he
    exact absurd (unpackResult_some_eq_error he) (by decide)
  case walk =>
    obtain ⟨t, ht⟩ := h.tree (hreads _ (by decide))
    obtain ⟨b, hb⟩ := h.bits (hreads _ (by decide))
    rw [ht, hb] at he
    exact absurd (walkResult_some_eq_error he) (by decide)

theorem runStages_fail_ne_sequence {done js : List Instr} {s u : State} {e : ErrCode} {b : Byte}
    (h : Written done s) (hjs : readsOnlyWritten done js = true)
    (hfail : runStages (js.map stageOf) s = .fail e b u) : e ≠ .sequence := by
  induction js generalizing done s with
  | nil => cases hfail
  | cons j js ih =>
    obtain ⟨hreads, hjs⟩ := readsOnlyWritten_cons.1 hjs
    rw [List.map_cons] at hfail
    cases hj : stageOf j s with
    | ok v =>
      rw [runStages_cons_ok hj] at hfail
      exact ih (h.cons hj) hjs hfail
    | fail e' b' v =>
      rw [runStages_cons_fail hj] at hfail
      cases hfail
      exact h.stageOf_fail_ne_sequence hreads hj

/-- A command whose stages read only what earlier ones wrote does not complete with SEQUENCE. -/
theorem exec_err_ne_sequence {i : Instr} {s t : State} (hi : stagesOf i ≠ [])
    (hreads : readsOnlyWritten [] (stagesOf i) = true) (hs : s.FlagsClear)
    (h : exec i s = .next t) : t.csr.err.code ≠ .sequence := by
  have hflags := runStages_flagsClear (stagesOf i) hs
  rw [exec_eq_runStages hi] at h
  cases h
  cases hr : runStages ((stagesOf i).map stageOf) s with
  | ok u =>
    rw [hr] at hflags
    obtain ⟨-, -, hreg⟩ := hflags
    exact fun hcode => nomatch (congrArg ErrReg.code hreg).symm.trans hcode
  | fail e b u => exact runStages_fail_ne_sequence (written_nil s) hreads hr

theorem serializeResult_of_missing (p : Params) {f : Option FreqTable} {P : Option (List Byte)}
    (h : f = none ∨ P = none) : serializeResult p f P = .error .sequence := by
  rcases h with rfl | rfl
  · rfl
  · cases f <;> rfl

theorem walkResult_of_missing (p : Params) {t : Option Tree} {b : Option Bits}
    (h : t = none ∨ b = none) : walkResult p t b = .error .sequence := by
  rcases h with rfl | rfl
  · rfl
  · cases t <;> rfl

/-- Settles O11: a stage checks its stores first, and COUNT, DESERIALIZE and the codec commands read
no store that they have not written. -/
theorem missingStoreIsSequence : Obligations.MissingStoreIsSequence := by
  unfold Obligations.MissingStoreIsSequence
  refine ⟨fun s => ⟨fun h => ?_, fun h => ?_, fun h => ?_, fun h => ?_, fun h => ?_, fun h => ?_,
    fun h => ?_⟩, fun i s t hi hs h => ?_⟩
  · exact exec_build_of_error (by rw [h, buildResult])
  · exact exec_gencode_of_error (by rw [h, gencodeResult])
  · exact exec_map_of_error (by rw [mapResult, h])
  · exact exec_pack_of_error (by rw [h, packResult])
  · exact exec_serialize_of_error (serializeResult_of_missing _ h)
  · exact exec_unpack_of_error (by rw [h, unpackResult])
  · exact exec_walk_of_error (walkResult_of_missing _ h)
  · have hstages : ∀ k ∈ [Instr.count, .deserialize, .encode, .decode],
        stagesOf k ≠ [] ∧ readsOnlyWritten [] (stagesOf k) = true := by decide
    obtain ⟨hne, hreads⟩ := hstages i hi
    exact exec_err_ne_sequence hne hreads hs h

end Sys2Proof.Machine

/-! Reset and the stops of a step (70_reset_and_hazards.md R142-R144): the stuck host access, the
reset state element by element and its invariant, and the turns while reset is asserted. -/

namespace Sys2Proof.Machine

/-! ### Where a step stops (R142, U8) -/

theorem State.coreMove_ne_stuck (s : State) : s.coreMove ≠ .stuck := by
  unfold State.coreMove
  split_ifs <;> nofun

/-- Only a host access while reset is asserted is stuck. -/
theorem nextMove_eq_stuck_iff (s : State) :
    nextMove s = .stuck ↔
      s.inReset = true ∧ ∃ a, s.schedule.head? = some (.access a) := by
  unfold nextMove
  split
  next h => simp [h, State.coreMove_ne_stuck]
  next h => simp [h, State.coreMove_ne_stuck]
  next h => cases hreset : s.inReset <;> simp [h]
  next h => simp [h]
  next h => simp [h]

theorem step_of_stuck {s : State} (h : nextMove s = .stuck) : step s = .fault .accessInReset := by
  simp only [step, h]

/-- Every move that is not stuck has a next state. -/
theorem exists_step_eq_next {s : State} (h : nextMove s ≠ .stuck) : ∃ t, step s = .next t := by
  unfold step
  cases hmove : nextMove s with
  | rest t => exact ⟨t, rfl⟩
  | core t =>
    cases hfetch : fetch t with
    | ok i => simpa only [hfetch] using exists_exec_eq_next i t
    | error e => exact ⟨t.illegalCommand, by simp only [hfetch]⟩
  | access a t => exact ⟨hostAccess a t, rfl⟩
  | stuck => exact absurd hmove h

theorem exists_stuck_or_step_eq_next (s : State) : nextMove s = .stuck ∨ ∃ t, step s = .next t := by
  by_cases h : nextMove s = .stuck
  · exact .inl h
  · exact .inr (exists_step_eq_next h)

/-- Settles O5: a step whose move is stuck faults, and every other one has a next state. -/
theorem stepStopsOnlyOnAccessInReset : Obligations.StepStopsOnlyOnAccessInReset := by
  unfold Obligations.StepStopsOnlyOnAccessInReset
  refine ⟨fun s f => ?_, fun s r => ?_⟩
  · rw [← nextMove_eq_stuck_iff]
    rcases exists_stuck_or_step_eq_next s with hstuck | ⟨t, ht⟩
    · simp [step_of_stuck hstuck, hstuck]
    · have hmove : nextMove s ≠ .stuck := fun h => nomatch (step_of_stuck h).symm.trans ht
      simp [ht, hmove]
  · rcases exists_stuck_or_step_eq_next s with hstuck | ⟨t, ht⟩
    · simp [step_of_stuck hstuck]
    · simp [ht]

/-! ### The reset state (R143) -/

theorem State.reset_regValue (r : Reg) :
    State.reset.regValue r = if r = .id then 0x48554631 else 0 := by
  cases r <;> rfl

/-- OUT_LEN is 0, so every byte of OUT_MEM reads as a free value (R50). -/
theorem State.reset_outByte (i d : Nat) : State.reset.outByte i d = Config.freeByte d :=
  if_pos (.inr (Nat.zero_le i))

/-- Settles O6: the reset state by its definition. -/
theorem resetStateIsAsSpecified : Obligations.ResetStateIsAsSpecified := by
  unfold Obligations.ResetStateIsAsSpecified
  exact ⟨rfl, rfl, State.reset_regValue, rfl, rfl, rfl, rfl, rfl, fun _ => rfl,
    State.reset_outByte, rfl, rfl⟩

theorem State.reset_sequencerInv : State.reset.SequencerInv := by decide

theorem State.reset_memoryInv : State.reset.MemoryInv :=
  ⟨State.reset_inMem_wf, nofun, State.reset_outMem_wf, rfl, Nat.zero_le _, Nat.zero_le _⟩

theorem State.reset_storeInv : State.reset.StoreInv :=
  State.storeInv_of_invalid rfl rfl rfl rfl rfl rfl

/-- Settles O57: the invariant part by part, the parameters by R6. -/
theorem resetMeetsTheInvariant : Obligations.ResetMeetsTheInvariant := by
  unfold Obligations.ResetMeetsTheInvariant
  exact ⟨Config.params_wf, State.reset_sequencerInv, State.reset_memoryInv, State.reset_storeInv⟩

/-! ### While reset is asserted (R142, R144) -/

theorem nextMove_assertReset {s : State} {rest : List Turn}
    (h : s.schedule = .assertReset :: rest) :
    nextMove s = .rest { s with schedule := rest }.applyReset := by
  rw [nextMove, h]

theorem nextMove_releaseReset {s : State} {rest : List Turn}
    (h : s.schedule = .releaseReset :: rest) :
    nextMove s = .rest { s with inReset := false, schedule := rest } := by
  rw [nextMove, h]
  rfl

/-- Settles O7: assertion is one turn, and the next turn is the core's, the host's or the release. -/
theorem assertedResetReplacesEverything : Obligations.AssertedResetReplacesEverything := by
  unfold Obligations.AssertedResetReplacesEverything
  intro s rest hassert
  refine ⟨_, step_of_rest (nextMove_assertReset hassert), rfl, rfl, fun a => rfl,
    fun rest' hcore => ?_, fun a rest' haccess => ?_, fun rest' hrelease => ?_⟩
  · exact step_of_rest ((nextMove_core hcore).trans (State.coreMove_idle rfl))
  · exact step_of_stuck ((nextMove_eq_stuck_iff _).2 ⟨rfl, a, congrArg List.head? haccess⟩)
  · exact step_of_rest (nextMove_releaseReset hrelease)

end Sys2Proof.Machine
